-- ==== Sys2Proof/Word.lean ====
section
/-! DEFINITION. The word types of the core: bytes of the spaces (20 R80), 32-bit registers (10 R46), pixel channels and
palette entries. -/

namespace Sys2Proof

/-- An element of a byte space, u8 (20 R80). -/
abbrev Byte := BitVec 8

/-- A host-visible register, 32 bits (10 R46 to R54). -/
abbrev Word := BitVec 32

/-- One palette entry, red, green, blue (10 R39). -/
structure Rgb where
  r : Byte
  g : Byte
  b : Byte
  deriving DecidableEq, Repr

/-- The four channel bytes of a normalized pixel, in channel order (44 R360). -/
structure Channels where
  c0 : Byte
  c1 : Byte
  c2 : Byte
  c3 : Byte
  deriving DecidableEq, Repr, Inhabited

end Sys2Proof
end

