-- ==== Sys2Proof/Config.lean ====
section
/-! DEFINITION. The constants of the core (00 R9) and the two free values the spec leaves open: nothing can evaluate a
free value, so a statement holds whatever it is. The open parameters that are numbers, IN_CAP and OUT_CAP, are fields of
State (log 3). -/

namespace Sys2Proof

/-- PAYLOAD_CEILING, 4,194,304 bytes (00 R9, 44 R369). -/
def Config.payloadCeiling : Nat := 4194304

/-- FREE VALUE: the byte IN holds at an address the host has not written since power-on number `boot` (10 R57, 93 I16;
log 5). -/
opaque Config.inPowerOn (boot address : Nat) : Byte

/-- What SampleFn may look at: the reconstructed image (44 R361). -/
structure SampleView where
  bitDepth : Byte
  colorType : Byte
  width : Nat
  height : Nat
  bpp : Nat
  cpr : Nat
  pix : List Byte
  pal : List Rgb
  deriving DecidableEq, Repr

/-- FREE VALUE: the open parameter SampleFn, the four channel bytes of pixel (x, y) at a bit depth other than 8, where it
is supplied (00 R9, 44 R361; log 4). -/
opaque Config.sampleFn (view : SampleView) (x y : Nat) : Channels

end Sys2Proof
end

