-- ==== Sys2Proof/Syntax.lean ====
section
/-! DEFINITION. The items the core decodes and the host commands: one constructor per row of the opcode table (30 R134).
A constructor's argument is the free part of the row's own value (the bits its mask leaves open); extra bits, stored
bytes and chunk data are read from the stream by the operation itself. -/

namespace Sys2Proof

inductive Instr where
  -- host.cmd
  /-- 40 R150: a write of CTRL with bit 0 set; the operand is bit 1, HEADER_ONLY (10 R46). -/
  | start (headerOnly : Bool)
  /-- 44 R374: a write of PIX_CMD with bit 0 set (10 R53). -/
  | pixelRead
  -- png.sig
  /-- 40 R151. -/
  | sig
  -- png.chunk
  /-- 40 R154. -/
  | ihdr
  /-- 40 R163. -/
  | plte
  /-- 40 R164. -/
  | idat
  /-- 40 R165. -/
  | iend
  /-- 40 R166: any other TYPE (30 R113). -/
  | skip (type : BitVec 32)
  -- zlib.hdr
  /-- 42 R241: a header `CMF * 256 + FLG` that passes the three checks. -/
  | zhdr (value : BitVec 16)
  /-- 42 R241: a header that fails one of them. -/
  | zhdrBad (value : BitVec 16)
  -- deflate.bhdr; the operand is BFINAL, bit 0 of the header (30 R117)
  /-- 42 R243. -/
  | blkStored (final : Bool)
  /-- 42 R244. -/
  | blkFixed (final : Bool)
  /-- 42 R245. -/
  | blkDynamic (final : Bool)
  /-- 42 R242, BTYPE 3. -/
  | blkInvalid (final : Bool)
  -- deflate.cl
  /-- 42 R246: symbols 0 to 15, the code length itself. -/
  | clen (length : BitVec 4)
  /-- 42 R247. -/
  | repprev
  /-- 42 R248. -/
  | repzero
  /-- 42 R249. -/
  | repzerol
  -- deflate.ll
  /-- 42 R251: symbols 0 to 255, the byte itself. -/
  | lit (byte : Byte)
  /-- 42 R252. -/
  | eob
  -- 42 R253: the length codes
  | len257
  | len258
  | len259
  | len260
  | len261
  | len262
  | len263
  | len264
  | len265
  | len266
  | len267
  | len268
  | len269
  | len270
  | len271
  | len272
  | len273
  | len274
  | len275
  | len276
  | len277
  | len278
  | len279
  | len280
  | len281
  | len282
  | len283
  | len284
  | len285
  /-- 42 R256: symbols 286 and 287; the operand is bit 0. -/
  | llInvalid (low : BitVec 1)
  -- deflate.dist, 42 R254: the distance codes
  | dist0
  | dist1
  | dist2
  | dist3
  | dist4
  | dist5
  | dist6
  | dist7
  | dist8
  | dist9
  | dist10
  | dist11
  | dist12
  | dist13
  | dist14
  | dist15
  | dist16
  | dist17
  | dist18
  | dist19
  | dist20
  | dist21
  | dist22
  | dist23
  | dist24
  | dist25
  | dist26
  | dist27
  | dist28
  | dist29
  /-- 42 R257: symbols 30 and 31; the operand is bit 0. -/
  | distInvalid (low : BitVec 1)
  -- png.filter
  /-- 43 R324. -/
  | filtNone
  /-- 43 R325. -/
  | filtSub
  /-- 43 R326. -/
  | filtUp
  /-- 43 R327. -/
  | filtAvg
  /-- 43 R328. -/
  | filtPaeth
  /-- 43 R329: tags 5 to 255. -/
  | filtInvalid (tag : Byte)
  -- seq.extract
  /-- 44 R368. -/
  | plen
  /-- 44 R370. -/
  | pixel
  deriving DecidableEq, Repr

end Sys2Proof
end

