-- ==== Sys2Proof/Decode.lean ====
section
/-! DEFINITION. The decoder: a value of an alphabet to the item it stands for, or a rejection by name (30 R128, R134); the
encoder, from the same tables; and the reading of a bare opcode-table word. Which alphabet the next value belongs to is
fixed by the state (30 R131) and lies in Machine/Fetch.lean, as does reading the value from its space. -/

namespace Sys2Proof

/-- The alphabets of 30 R134. The two host commands share a word and differ by the REG offset written, so each has its
own. -/
inductive Alphabet where
  | ctrl     -- the word written to CTRL
  | pixCmd   -- the word written to PIX_CMD
  | sig      -- 8 bytes of IN, first most significant
  | chunk    -- TYPE, 4 bytes big-endian
  | zlib     -- CMF * 256 + FLG
  | bhdr     -- 3 bits, the first read is bit 0
  | cl       -- code-length symbol
  | ll       -- literal/length symbol
  | dist     -- distance symbol
  | filter   -- filter-type tag
  | seq      -- EXTRACT steps, sequenced by phase, no encoding
  deriving DecidableEq, Repr

/-- Why a value is no item of its alphabet. -/
inductive Reject where
  | noCommand          -- a REG word whose bit 0 is 0: an ordinary register write
  | badSignature       -- not the 8 bytes of 30 R111
  | tooWide            -- the value does not fit the alphabet's width
  | codeLengthSymbol   -- a code-length symbol above 18
  | literalSymbol      -- a literal/length symbol above 287
  | distanceSymbol     -- a distance symbol above 31
  | noEncoding         -- EXTRACT steps have no encoding (30 R110)
  deriving DecidableEq, Repr

/-- The PNG signature, first byte most significant (30 R111). -/
def signatureValue : Nat := 0x89504E470D0A1A0A

/-- The four recognised chunk types, as big-endian values (30 R113). -/
def chunkTypeIhdr : BitVec 32 := 0x49484452#32
def chunkTypePlte : BitVec 32 := 0x504C5445#32
def chunkTypeIdat : BitVec 32 := 0x49444154#32
def chunkTypeIend : BitVec 32 := 0x49454E44#32

/-- The three checks of a zlib header `CMF * 256 + FLG`: CM is 8, FDICT is 0, the value is a multiple of 31 (30 R116). -/
def zlibHeaderOk (h : BitVec 16) : Bool :=
  h.toNat / 256 % 16 == 8 && h.toNat / 32 % 2 == 0 && h.toNat % 31 == 0

/-- LEN_257 to LEN_285 in code order (30 R121). -/
def lengthItems : List Instr :=
  [.len257, .len258, .len259, .len260, .len261, .len262, .len263, .len264, .len265, .len266,
   .len267, .len268, .len269, .len270, .len271, .len272, .len273, .len274, .len275, .len276,
   .len277, .len278, .len279, .len280, .len281, .len282, .len283, .len284, .len285]

/-- DIST_0 to DIST_29 in code order (30 R122). -/
def distanceItems : List Instr :=
  [.dist0, .dist1, .dist2, .dist3, .dist4, .dist5, .dist6, .dist7, .dist8, .dist9,
   .dist10, .dist11, .dist12, .dist13, .dist14, .dist15, .dist16, .dist17, .dist18, .dist19,
   .dist20, .dist21, .dist22, .dist23, .dist24, .dist25, .dist26, .dist27, .dist28, .dist29]

/-- The item of a chunk TYPE (30 R113, R128). -/
def decodeChunkType (t : BitVec 32) : Instr :=
  if t = chunkTypeIhdr then .ihdr
  else if t = chunkTypePlte then .plte
  else if t = chunkTypeIdat then .idat
  else if t = chunkTypeIend then .iend
  else .skip t

/-- The item of a 3-bit block header: bit 0 BFINAL, bits 2:1 BTYPE (30 R117). -/
def decodeBlockHeader (v : Nat) : Instr :=
  let final := v % 2 == 1
  match v / 2 % 4 with
  | 0 => .blkStored final
  | 1 => .blkFixed final
  | 2 => .blkDynamic final
  | _ => .blkInvalid final

/-- The item of a filter-type tag (30 R126). -/
def decodeFilterTag (tag : Byte) : Instr :=
  if tag = 0 then .filtNone
  else if tag = 1 then .filtSub
  else if tag = 2 then .filtUp
  else if tag = 3 then .filtAvg
  else if tag = 4 then .filtPaeth
  else .filtInvalid tag

/-- The decoder: the item a value of an alphabet stands for. -/
def decode : Alphabet → Nat → Except Reject Instr
  | .ctrl, v =>
    if 2 ^ 32 ≤ v then .error .tooWide
    else if v % 2 = 1 then .ok (.start (v / 2 % 2 == 1)) else .error .noCommand
  | .pixCmd, v =>
    if 2 ^ 32 ≤ v then .error .tooWide
    else if v % 2 = 1 then .ok .pixelRead else .error .noCommand
  | .sig, v => if v = signatureValue then .ok .sig else .error .badSignature
  | .chunk, v =>
    if 2 ^ 32 ≤ v then .error .tooWide else .ok (decodeChunkType (BitVec.ofNat 32 v))
  | .zlib, v =>
    if 2 ^ 16 ≤ v then .error .tooWide
    else if zlibHeaderOk (BitVec.ofNat 16 v) then .ok (.zhdr (BitVec.ofNat 16 v))
    else .ok (.zhdrBad (BitVec.ofNat 16 v))
  | .bhdr, v => if 8 ≤ v then .error .tooWide else .ok (decodeBlockHeader v)
  | .cl, v =>
    if v < 16 then .ok (.clen (BitVec.ofNat 4 v))
    else if v = 16 then .ok .repprev
    else if v = 17 then .ok .repzero
    else if v = 18 then .ok .repzerol
    else .error .codeLengthSymbol
  | .ll, v =>
    if v < 256 then .ok (.lit (BitVec.ofNat 8 v))
    else if v = 256 then .ok .eob
    else match lengthItems[v - 257]? with
      | some i => .ok i
      | none => if v < 288 then .ok (.llInvalid (BitVec.ofNat 1 (v - 286))) else .error .literalSymbol
  | .dist, v =>
    match distanceItems[v]? with
    | some i => .ok i
    | none => if v < 32 then .ok (.distInvalid (BitVec.ofNat 1 (v - 30))) else .error .distanceSymbol
  | .filter, v => if 256 ≤ v then .error .tooWide else .ok (decodeFilterTag (BitVec.ofNat 8 v))
  | .seq, _ => .error .noEncoding

/-- The code of a length item (30 R121). -/
def Instr.lengthCode : Instr → Option Nat
  | .len257 => some 257
  | .len258 => some 258
  | .len259 => some 259
  | .len260 => some 260
  | .len261 => some 261
  | .len262 => some 262
  | .len263 => some 263
  | .len264 => some 264
  | .len265 => some 265
  | .len266 => some 266
  | .len267 => some 267
  | .len268 => some 268
  | .len269 => some 269
  | .len270 => some 270
  | .len271 => some 271
  | .len272 => some 272
  | .len273 => some 273
  | .len274 => some 274
  | .len275 => some 275
  | .len276 => some 276
  | .len277 => some 277
  | .len278 => some 278
  | .len279 => some 279
  | .len280 => some 280
  | .len281 => some 281
  | .len282 => some 282
  | .len283 => some 283
  | .len284 => some 284
  | .len285 => some 285
  | _ => none

/-- The code of a distance item (30 R122). -/
def Instr.distanceCode : Instr → Option Nat
  | .dist0 => some 0
  | .dist1 => some 1
  | .dist2 => some 2
  | .dist3 => some 3
  | .dist4 => some 4
  | .dist5 => some 5
  | .dist6 => some 6
  | .dist7 => some 7
  | .dist8 => some 8
  | .dist9 => some 9
  | .dist10 => some 10
  | .dist11 => some 11
  | .dist12 => some 12
  | .dist13 => some 13
  | .dist14 => some 14
  | .dist15 => some 15
  | .dist16 => some 16
  | .dist17 => some 17
  | .dist18 => some 18
  | .dist19 => some 19
  | .dist20 => some 20
  | .dist21 => some 21
  | .dist22 => some 22
  | .dist23 => some 23
  | .dist24 => some 24
  | .dist25 => some 25
  | .dist26 => some 26
  | .dist27 => some 27
  | .dist28 => some 28
  | .dist29 => some 29
  | _ => none

/-- The alphabet of an item (30 R134). -/
def Instr.alphabet : Instr → Alphabet
  | .start _ => .ctrl
  | .pixelRead => .pixCmd
  | .sig => .sig
  | .ihdr | .plte | .idat | .iend | .skip _ => .chunk
  | .zhdr _ | .zhdrBad _ => .zlib
  | .blkStored _ | .blkFixed _ | .blkDynamic _ | .blkInvalid _ => .bhdr
  | .clen _ | .repprev | .repzero | .repzerol => .cl
  | .lit _ | .eob | .llInvalid _ => .ll
  | .len257 | .len258 | .len259 | .len260 | .len261 | .len262 | .len263 | .len264 | .len265 | .len266 => .ll
  | .len267 | .len268 | .len269 | .len270 | .len271 | .len272 | .len273 | .len274 | .len275 | .len276 => .ll
  | .len277 | .len278 | .len279 | .len280 | .len281 | .len282 | .len283 | .len284 | .len285 => .ll
  | .distInvalid _ => .dist
  | .dist0 | .dist1 | .dist2 | .dist3 | .dist4 | .dist5 | .dist6 | .dist7 | .dist8 | .dist9 => .dist
  | .dist10 | .dist11 | .dist12 | .dist13 | .dist14 | .dist15 | .dist16 | .dist17 | .dist18 | .dist19 => .dist
  | .dist20 | .dist21 | .dist22 | .dist23 | .dist24 | .dist25 | .dist26 | .dist27 | .dist28 | .dist29 => .dist
  | .filtNone | .filtSub | .filtUp | .filtAvg | .filtPaeth | .filtInvalid _ => .filter
  | .plen | .pixel => .seq

/-- The 3-bit block header (30 R117). -/
def encodeBlockHeader (btype : Nat) (final : Bool) : Nat := 2 * btype + final.toNat

/-- The encoder: the value of an item in its alphabet; none for the EXTRACT steps, which have no encoding (30 R110). -/
def encode : Instr → Option Nat
  | .start h => some (1 + 2 * h.toNat)
  | .pixelRead => some 1
  | .sig => some signatureValue
  | .ihdr => some chunkTypeIhdr.toNat
  | .plte => some chunkTypePlte.toNat
  | .idat => some chunkTypeIdat.toNat
  | .iend => some chunkTypeIend.toNat
  | .skip t => some t.toNat
  | .zhdr h | .zhdrBad h => some h.toNat
  | .blkStored f => some (encodeBlockHeader 0 f)
  | .blkFixed f => some (encodeBlockHeader 1 f)
  | .blkDynamic f => some (encodeBlockHeader 2 f)
  | .blkInvalid f => some (encodeBlockHeader 3 f)
  | .clen n => some n.toNat
  | .repprev => some 16
  | .repzero => some 17
  | .repzerol => some 18
  | .lit b => some b.toNat
  | .eob => some 256
  | .len257 => some 257
  | .len258 => some 258
  | .len259 => some 259
  | .len260 => some 260
  | .len261 => some 261
  | .len262 => some 262
  | .len263 => some 263
  | .len264 => some 264
  | .len265 => some 265
  | .len266 => some 266
  | .len267 => some 267
  | .len268 => some 268
  | .len269 => some 269
  | .len270 => some 270
  | .len271 => some 271
  | .len272 => some 272
  | .len273 => some 273
  | .len274 => some 274
  | .len275 => some 275
  | .len276 => some 276
  | .len277 => some 277
  | .len278 => some 278
  | .len279 => some 279
  | .len280 => some 280
  | .len281 => some 281
  | .len282 => some 282
  | .len283 => some 283
  | .len284 => some 284
  | .len285 => some 285
  | .llInvalid low => some (286 + low.toNat)
  | .dist0 => some 0
  | .dist1 => some 1
  | .dist2 => some 2
  | .dist3 => some 3
  | .dist4 => some 4
  | .dist5 => some 5
  | .dist6 => some 6
  | .dist7 => some 7
  | .dist8 => some 8
  | .dist9 => some 9
  | .dist10 => some 10
  | .dist11 => some 11
  | .dist12 => some 12
  | .dist13 => some 13
  | .dist14 => some 14
  | .dist15 => some 15
  | .dist16 => some 16
  | .dist17 => some 17
  | .dist18 => some 18
  | .dist19 => some 19
  | .dist20 => some 20
  | .dist21 => some 21
  | .dist22 => some 22
  | .dist23 => some 23
  | .dist24 => some 24
  | .dist25 => some 25
  | .dist26 => some 26
  | .dist27 => some 27
  | .dist28 => some 28
  | .dist29 => some 29
  | .distInvalid low => some (30 + low.toNat)
  | .filtNone => some 0
  | .filtSub => some 1
  | .filtUp => some 2
  | .filtAvg => some 3
  | .filtPaeth => some 4
  | .filtInvalid tag => some tag.toNat
  | .plen | .pixel => none

/-- The alphabet in which a bare word of the opcode table is read. The table's word does not say its alphabet, and
several rows share a word (START, PIXEL_READ, FILT_SUB and DIST_1 are all the byte 1), so the row that fixes the most
bits is taken, the first in the table among equals (log 16). -/
def tableAlphabet (nbits w : Nat) : Alphabet :=
  if nbits ≤ 8 then
    if w < 5 then .filter
    else if w = 16 ∨ w = 17 then .cl
    else if w < 32 then .dist
    else .filter
  else if nbits ≤ 16 then (if w < 512 then .ll else .zlib)
  else if nbits ≤ 24 then (if w = 18 then .cl else if w < 32 then .dist else .zlib)
  else if nbits ≤ 32 then (if w < 32 then .dist else .chunk)
  else .sig

/-- The item the decoder reads from a bare word of the opcode table, none where it refuses. -/
def decodeTableWord (nbits w : Nat) : Option Instr :=
  match decode (tableAlphabet nbits w) w with
  | .ok i => some i
  | .error _ => none

end Sys2Proof
end

