-- ==== Sys2Proof/Machine/State.lean ====
section
/-! DEFINITION. The state of the core, whole (10 R30 to R58, 20 R80), the reasons a step stops, and the state after
power-on reset (10 R57, 70 R450). -/

namespace Sys2Proof.Machine

/-- The phase register (10 R45). -/
inductive Phase where
  | idle | parse | inflate | unfilter | extract | done | doneHeader | error
  deriving DecidableEq, Repr

/-- The inflate sub-state (10 R42). -/
inductive InflateState where
  | zhdr | bhdr | clseq | codes | idone
  deriving DecidableEq, Repr

/-- The colour types of 10 R36; no other value is ever stored. -/
inductive ColorType where
  | gray | rgb | palette | grayAlpha | rgba
  deriving DecidableEq, Repr

/-- The fault classes (60 R400). -/
inductive FaultClass where
  | formatError | unsupportedFeature | payloadTooLarge | outOfBounds | emptyPixelData | resourceExhausted | refused
  deriving DecidableEq, Repr

/-- The fault details, the complete list of 60 R401 in its order; a detail has one class. -/
inductive FaultDetail where
  | badSignature | truncatedInput | invalidField | invalidPalette | badDeflateHeader | truncatedDeflateStream
  | invalidBlockType | invalidFilterType | storedLengthMismatch | invalidSymbol | invalidDistance | invalidHuffmanCode
  | invalidCodeLengths | chunkOrder | truncatedImageData
  | unsupportedInterlace
  | lengthCeiling
  | pixelCoordinates | paletteIndex
  | noPixels
  | inBuffer | outBuffer
  | sampleFn
  deriving DecidableEq, Repr

/-- The fault latch: a detail, which gives the class, and the two information words, exact naturals (60 R401, R402). -/
structure FaultRecord where
  detail : FaultDetail
  info0 : Nat
  info1 : Nat
  deriving DecidableEq, Repr

/-- An entry of a decode table that is not empty: code length and symbol (41 R205). -/
structure CodeEntry where
  length : Nat
  symbol : Nat
  deriving DecidableEq, Repr

/-- A decode table: the longest code length and 2^maxLen entries (10 R40, 41 R205). -/
structure HuffTable where
  maxLen : Nat
  entries : List (Option CodeEntry)
  deriving DecidableEq, Repr

/-- The byte windows the host can address (20 R80, R92). -/
inductive Window where
  | input | output | pixels | payload
  deriving DecidableEq, Repr

/-- What the host does at its turn (10 R46 to R55, 70 R462). `pass` leaves the turn to the engine; `width` is in bytes;
`powerOn` is power-on reset (70 R450). -/
inductive HostEvent where
  | pass
  | writeReg (offset width : Nat) (value : Word)
  | readReg (offset width : Nat)
  | writeWindow (window : Window) (address : Nat) (value : Byte)
  | readWindow (window : Window) (address : Nat)
  | powerOn
  deriving DecidableEq, Repr

/-- The input space IN: the bytes the host has written, addresses strictly rising (20 R80; log 5, 6). -/
abbrev Memory := List Host.Cell

/-- The canonical form of IN: addresses strictly rising. An unlisted address has no value of its own, so no entry equals
what an unlisted address reads as. -/
def Memory.wf : Memory → Bool
  | [] => true
  | [_] => true
  | a :: b :: rest => decide (a.1 < b.1) && Memory.wf (b :: rest)

/-- The machine stops. Neither reason arises in a state that keeps the invariant of Safety.lean. -/
inductive Fault where
  /-- Raised by the fetch (Machine/Fetch.lean) when a decode table of the state yields a symbol its alphabet does not
  have. HuffBuild makes no such table, so no run reaches it. SAFE: the model stops where the spec says nothing. -/
  | symbolOutsideAlphabet (alphabet : Alphabet) (symbol : Nat)
  deriving DecidableEq, Repr

/-- No meaning: what the spec puts outside itself (60 R410). -/
inductive Refusal where
  /-- Raised by exec for an instruction that has no meaning yet. SAFE. -/
  | notModelled (mnemonic : String)
  /-- Raised by the host port when the host writes IN in a busy phase (70 R454, 60 R410). SAFE: the spec refuses it. -/
  | inputWriteWhileBusy
  /-- Raised by the host port for a REG access narrower than 32 bits or at an offset that is no multiple of 4
  (10 R54, 20 R91, 60 R410). SAFE: the spec refuses it. -/
  | registerAccess
  /-- Raised by the host port for a window address outside the space (the spec gives it no byte; log 13). SAFE. -/
  | windowAddress
  /-- Raised by the host port for a write to a read-only window (20 R80; log 13). SAFE. -/
  | windowReadOnly
  deriving DecidableEq, Repr

/-- The state of one core. -/
structure State where
  -- the host's schedule and the model's own fields
  /-- The host's turns still to come, oldest first; when it is empty every turn is the engine's (log 1). -/
  host : List HostEvent
  /-- The value the host's last read returned (log 2). -/
  busData : Word
  /-- Power-on resets so far (log 5). -/
  boots : Nat
  /-- IN_CAP, none = unbounded (00 R9, 92 D4; log 3). -/
  inCap : Option Nat
  /-- OUT_CAP, none = unbounded (00 R9, 92 D4; log 3). -/
  outCap : Option Nat
  /-- Whether SampleFn is supplied (00 R9, 44 R361; log 4). -/
  sampleFnPresent : Bool
  -- engine (10 R45)
  phase : Phase
  err : Option FaultRecord
  -- host-written (10 R46, R50, 20 R80)
  headerOnly : Bool
  inLen : BitVec 32
  input : Memory
  -- PARSE (10 R32, R35 to R39, 20 R82)
  pos : Nat
  hdrValid : Bool
  width : BitVec 32
  height : BitVec 32
  bitDepth : Byte
  colorType : ColorType
  compression : Byte
  filter : Byte
  interlace : Byte
  pal : Option (List Rgb)
  z : List Byte
  -- INFLATE (10 R33, R40 to R42, 20 R83)
  bitPos : Nat
  ist : InflateState
  bfinal : Bool
  btype : BitVec 2
  litTab : Option HuffTable
  distTab : Option HuffTable
  clTab : Option HuffTable
  hlit : Nat
  hdist : Nat
  hclen : Nat
  clLen : List (BitVec 3)
  lens : List (BitVec 4)
  /-- The length of a back-reference whose distance item comes next (log 8). -/
  pendLen : Option Nat
  out : List Byte
  -- UNFILTER (10 R43, 20 R84)
  row : Nat
  bpp : Nat
  cpr : Nat
  pix : List Byte
  pixValid : Bool
  -- EXTRACT (10 R44, 20 R85)
  plen : BitVec 32
  px : Nat
  py : Nat
  payload : List Byte
  payloadValid : Bool
  -- pixel-read port (10 R53)
  pixX : Word
  pixY : Word
  pixData : Word
  pixStatus : Byte
  deriving DecidableEq, Repr

/-- The state after power-on reset (10 R57, 70 R450). -/
def State.reset : State where
  host := []
  busData := 0
  boots := 0
  inCap := none
  outCap := none
  sampleFnPresent := false
  phase := .idle
  err := none
  headerOnly := false
  inLen := 0
  input := []
  pos := 0
  hdrValid := false
  width := 0
  height := 0
  bitDepth := 0
  colorType := .gray
  compression := 0
  filter := 0
  interlace := 0
  pal := none
  z := []
  bitPos := 0
  ist := .zhdr
  bfinal := false
  btype := 0
  litTab := none
  distTab := none
  clTab := none
  hlit := 0
  hdist := 0
  hclen := 0
  clLen := List.replicate 19 0
  lens := []
  pendLen := none
  out := []
  row := 0
  bpp := 0
  cpr := 0
  pix := []
  pixValid := false
  plen := 0
  px := 0
  py := 0
  payload := []
  payloadValid := false
  pixX := 0
  pixY := 0
  pixData := 0
  pixStatus := 0

end Sys2Proof.Machine
end

