-- ==== Sys2Proof/Machine/Operands.lean ====
section
/-! DEFINITION. Operand assembly (30 R129): byte-order helpers, the IHDR fields, colour types, the DEFLATE tables and the
geometry. Every value is unsigned; nothing sign-extends (00 R10). -/

namespace Sys2Proof.Machine

/-- `be(B)`: the big-endian value of a byte sequence (00 R12). -/
def be (bytes : List Byte) : Nat :=
  bytes.foldl (fun v b => v * 256 + b.toNat) 0

/-- Byte k of a sequence. A read past the end gives 0 and is never made by a reachable state (log 17). -/
def byteAt (bytes : List Byte) (k : Nat) : Byte := bytes.getD k 0

/-- `colors(ct)` (10 R37). -/
def ColorType.colors : ColorType → Nat
  | .gray => 1
  | .rgb => 3
  | .palette => 1
  | .grayAlpha => 2
  | .rgba => 4

/-- `hasAlpha(ct)` (10 R37). -/
def ColorType.hasAlpha : ColorType → Bool
  | .grayAlpha | .rgba => true
  | .gray | .rgb | .palette => false

/-- The u8 value of a colour type (10 R36). -/
def ColorType.code : ColorType → Byte
  | .gray => 0
  | .rgb => 2
  | .palette => 3
  | .grayAlpha => 4
  | .rgba => 6

/-- The colour type of a u8 value, none outside {0, 2, 3, 4, 6} (40 R158). -/
def colorTypeOf (ct : Byte) : Option ColorType :=
  if ct = 0 then some .gray
  else if ct = 2 then some .rgb
  else if ct = 3 then some .palette
  else if ct = 4 then some .grayAlpha
  else if ct = 6 then some .rgba
  else none

/-- The bit depths IHDR admits (40 R157). -/
def bitDepthLegal (bd : Byte) : Bool :=
  bd == 1 || bd == 2 || bd == 4 || bd == 8 || bd == 16

/-- `allowed(ct)`: the bit depths of a colour type (40 R158). -/
def depthAllowed (ct : ColorType) (bd : Byte) : Bool :=
  match ct with
  | .gray => bd == 1 || bd == 2 || bd == 4 || bd == 8 || bd == 16
  | .rgb | .grayAlpha | .rgba => bd == 8 || bd == 16
  | .palette => bd == 1 || bd == 2 || bd == 4 || bd == 8

/-- The entries of a PLTE payload: entry k is bytes 3k, 3k+1, 3k+2 (30 R115). -/
def paletteEntries : List Byte → List Rgb
  | r :: g :: b :: rest => ⟨r, g, b⟩ :: paletteEntries rest
  | _ => []

/-- The order in which a dynamic header gives the code-length code lengths (30 R118). -/
def clOrder : List Nat := [16, 17, 18, 0, 8, 7, 9, 6, 10, 5, 11, 4, 12, 3, 13, 2, 14, 1, 15]

/-- A base and its count of extra bits. -/
structure BaseExtra where
  base : Nat
  extra : Nat
  deriving DecidableEq, Repr

/-- LBASE and LEXT of the length codes 257 to 285 (30 R121). -/
def lengthTable : List BaseExtra :=
  [⟨3, 0⟩, ⟨4, 0⟩, ⟨5, 0⟩, ⟨6, 0⟩, ⟨7, 0⟩, ⟨8, 0⟩, ⟨9, 0⟩, ⟨10, 0⟩,
   ⟨11, 1⟩, ⟨13, 1⟩, ⟨15, 1⟩, ⟨17, 1⟩, ⟨19, 2⟩, ⟨23, 2⟩, ⟨27, 2⟩, ⟨31, 2⟩,
   ⟨35, 3⟩, ⟨43, 3⟩, ⟨51, 3⟩, ⟨59, 3⟩, ⟨67, 4⟩, ⟨83, 4⟩, ⟨99, 4⟩, ⟨115, 4⟩,
   ⟨131, 5⟩, ⟨163, 5⟩, ⟨195, 5⟩, ⟨227, 5⟩, ⟨258, 0⟩]

/-- DBASE and DEXT of the distance codes 0 to 29 (30 R122). -/
def distanceTable : List BaseExtra :=
  [⟨1, 0⟩, ⟨2, 0⟩, ⟨3, 0⟩, ⟨4, 0⟩, ⟨5, 1⟩, ⟨7, 1⟩, ⟨9, 2⟩, ⟨13, 2⟩, ⟨17, 3⟩, ⟨25, 3⟩,
   ⟨33, 4⟩, ⟨49, 4⟩, ⟨65, 5⟩, ⟨97, 5⟩, ⟨129, 6⟩, ⟨193, 6⟩, ⟨257, 7⟩, ⟨385, 7⟩,
   ⟨513, 8⟩, ⟨769, 8⟩, ⟨1025, 9⟩, ⟨1537, 9⟩, ⟨2049, 10⟩, ⟨3073, 10⟩,
   ⟨4097, 11⟩, ⟨6145, 11⟩, ⟨8193, 12⟩, ⟨12289, 12⟩, ⟨16385, 13⟩, ⟨24577, 13⟩]

/-- The row of a length code, 257 to 285. -/
def lengthRow (code : Nat) : BaseExtra := lengthTable.getD (code - 257) ⟨258, 0⟩

/-- The row of a distance code, 0 to 29. -/
def distanceRow (code : Nat) : BaseExtra := distanceTable.getD code ⟨24577, 13⟩

/-- The code lengths of the fixed literal/length code (30 R123, 41 R212). -/
def fixedLitLengths : List Nat :=
  List.replicate 144 8 ++ List.replicate 112 9 ++ List.replicate 24 7 ++ List.replicate 8 8

/-- The code lengths of the fixed distance code (30 R123, 41 R212). -/
def fixedDistLengths : List Nat := List.replicate 32 5

/-- `bpp`: bytes per pixel (43 R321). -/
def bytesPerPixel (ct : ColorType) (bitDepth : Byte) : Nat :=
  max 1 (ct.colors * bitDepth.toNat / 8)

/-- The big-endian value of four channel bytes: the payload length (30 R127) and PIX_DATA (44 R374). -/
def channelsValue (c : Channels) : Nat :=
  c.c0.toNat * 2 ^ 24 + c.c1.toNat * 2 ^ 16 + c.c2.toNat * 2 ^ 8 + c.c3.toNat

/-- The channel bytes in channel order (30 R127). -/
def channelsBytes (c : Channels) : List Byte := [c.c0, c.c1, c.c2, c.c3]

end Sys2Proof.Machine
end

