-- ==== Sys2Proof/Machine/Flags.lean ====
section
/-! DEFINITION. Flags, numeric codes and the register views the host reads (10 R45 to R56, 60 R400, R401). -/

namespace Sys2Proof.Machine

/-- The numeric code of a phase (10 R47). -/
def Phase.code : Phase → Nat
  | .idle => 0
  | .parse => 1
  | .inflate => 2
  | .unfilter => 3
  | .extract => 4
  | .done => 5
  | .doneHeader => 6
  | .error => 7

/-- The busy phases (10 R45). -/
def Phase.busy : Phase → Bool
  | .parse | .inflate | .unfilter | .extract => true
  | .idle | .done | .doneHeader | .error => false

/-- The terminal phases (10 R45, 60 R415). -/
def Phase.terminal : Phase → Bool
  | .done | .doneHeader | .error => true
  | .idle | .parse | .inflate | .unfilter | .extract => false

/-- `S.plteSeen`: the palette is present (10 R39). -/
def State.plteSeen (s : State) : Bool := s.pal.isSome

/-- The palette entries, none when it is absent (44 R364). -/
def State.palette (s : State) : List Rgb := s.pal.getD []

/-- The class of a detail (60 R401). -/
def FaultDetail.cls : FaultDetail → FaultClass
  | .badSignature | .truncatedInput | .invalidField | .invalidPalette | .badDeflateHeader => .formatError
  | .truncatedDeflateStream | .invalidBlockType | .invalidFilterType | .storedLengthMismatch => .formatError
  | .invalidSymbol | .invalidDistance | .invalidHuffmanCode | .invalidCodeLengths => .formatError
  | .chunkOrder | .truncatedImageData => .formatError
  | .unsupportedInterlace => .unsupportedFeature
  | .lengthCeiling => .payloadTooLarge
  | .pixelCoordinates | .paletteIndex => .outOfBounds
  | .noPixels => .emptyPixelData
  | .inBuffer | .outBuffer => .resourceExhausted
  | .sampleFn => .refused

/-- The class code, ERR.CLASS (60 R400). -/
def FaultClass.code : FaultClass → Nat
  | .formatError => 1
  | .unsupportedFeature => 2
  | .payloadTooLarge => 3
  | .outOfBounds => 4
  | .emptyPixelData => 5
  | .resourceExhausted => 6
  | .refused => 7

/-- The detail code, ERR.DETAIL (60 R401). -/
def FaultDetail.code : FaultDetail → Nat
  | .badSignature => 1
  | .truncatedInput => 2
  | .invalidField => 3
  | .invalidPalette => 4
  | .badDeflateHeader => 5
  | .truncatedDeflateStream => 6
  | .invalidBlockType => 7
  | .invalidFilterType => 8
  | .storedLengthMismatch => 9
  | .invalidSymbol => 10
  | .invalidDistance => 11
  | .invalidHuffmanCode => 12
  | .invalidCodeLengths => 13
  | .chunkOrder => 14
  | .truncatedImageData => 15
  | .unsupportedInterlace => 1
  | .lengthCeiling => 1
  | .pixelCoordinates => 1
  | .paletteIndex => 2
  | .noPixels => 1
  | .inBuffer => 1
  | .outBuffer => 2
  | .sampleFn => 1

/-- CTRL as read: START reads 0 (10 R46). -/
def State.ctrlView (s : State) : Nat := 2 * s.headerOnly.toNat

/-- STATUS (10 R47). -/
def State.statusView (s : State) : Nat :=
  s.phase.code + 2 ^ 4 * s.hdrValid.toNat + 2 ^ 5 * s.pixValid.toNat + 2 ^ 6 * s.payloadValid.toNat
    + 2 ^ 7 * s.phase.busy.toNat + 2 ^ 8 * s.plteSeen.toNat

/-- ERR (10 R48). -/
def State.errView (s : State) : Nat :=
  match s.err with
  | none => 0
  | some f => f.detail.cls.code + 2 ^ 8 * f.detail.code

/-- ERR_INFO0, before reduction mod 2^32 (10 R49). -/
def State.errInfo0 (s : State) : Nat :=
  match s.err with
  | none => 0
  | some f => f.info0

/-- ERR_INFO1, before reduction mod 2^32 (10 R49). -/
def State.errInfo1 (s : State) : Nat :=
  match s.err with
  | none => 0
  | some f => f.info1

/-- FORMAT (10 R51). -/
def State.formatView (s : State) : Nat :=
  s.bitDepth.toNat + 2 ^ 8 * s.colorType.code.toNat + 2 ^ 16 * s.compression.toNat + 2 ^ 24 * s.filter.toNat

/-- FORMAT2 (10 R51). The derived fields read 0 until the header is valid, which gives the register's reset value 0
(log 11, DEDUCED). -/
def State.format2View (s : State) : Nat :=
  s.interlace.toNat
    + (if s.hdrValid then 2 ^ 8 * s.colorType.colors + 2 ^ 11 * s.colorType.hasAlpha.toNat else 0)

/-- PAL_COUNT (10 R51). -/
def State.palCountView (s : State) : Nat :=
  s.palette.length % 2 ^ 9 + 2 ^ 31 * s.plteSeen.toNat

/-- The register at a 4-byte aligned REG offset, as the host reads it; reserved offsets read 0 (10 R46 to R54). -/
def State.readRegister (s : State) (offset : Nat) : Word :=
  BitVec.ofNat 32 <|
    if offset = 0x00 then s.ctrlView
    else if offset = 0x04 then s.statusView
    else if offset = 0x08 then s.errView
    else if offset = 0x0C then s.errInfo0
    else if offset = 0x10 then s.errInfo1
    else if offset = 0x14 then s.inLen.toNat
    else if offset = 0x18 then s.width.toNat
    else if offset = 0x1C then s.height.toNat
    else if offset = 0x20 then s.formatView
    else if offset = 0x24 then s.format2View
    else if offset = 0x28 then s.palCountView
    else if offset = 0x2C then s.out.length
    else if offset = 0x30 then s.plen.toNat
    else if offset = 0x34 then s.pixX.toNat
    else if offset = 0x38 then s.pixY.toNat
    else if offset = 0x40 then s.pixData.toNat
    else if offset = 0x44 then s.pixStatus.toNat
    else 0

end Sys2Proof.Machine
end

