-- ==== Sys2Proof/Machine/Ops.lean ====
section
/-! DEFINITION. The shared operations: fault entry and the way out of it, reading and writing IN, the bit reader
(41 R200 to R203), appending to OUT. An operation answers a value and the state after it, or the state in which a fault
has just been latched. -/

namespace Sys2Proof.Machine

/-- The result of an operation of the engine: it goes on with a value, or it has raised a fault and the operation that
ran it ends there (60 R403). Both carry the state reached, so writes made before a raise stay. -/
inductive Res (α : Type) where
  | ok (value : α) (s : State)
  | raised (s : State)

/-- Go on with the value and the state, unless a fault was raised. -/
def Res.bind {α β : Type} : Res α → (α → State → Res β) → Res β
  | .ok v s, f => f v s
  | .raised s, _ => .raised s

/-- The step a finished operation makes: a raised fault is state too (60 R403). -/
def Res.outcome : Res Unit → Host.Outcome State Fault Refusal
  | .ok _ s => .next s
  | .raised s => .next s

/-- Fault entry, `raise C(D, i0, i1)` (60 R403): latch the fault, empty and invalidate the payload, enter ERROR, change
nothing else. -/
def State.raise (s : State) (detail : FaultDetail) (info0 info1 : Nat) : State :=
  { s with
    err := some ⟨detail, info0, info1⟩
    payloadValid := false
    payload := []
    phase := .error }

/-- Raise inside an operation: nothing after it in the operation is performed (00 R13). -/
def raiseFault {α : Type} (detail : FaultDetail) (info0 info1 : Nat) (s : State) : Res α :=
  .raised (s.raise detail info0 info1)

/-- The reset part of START (10 R57, 70 R451), the only way out of ERROR besides power-on reset (60 R407): every field
marked `reset by START` at its reset value; the host-written IN, IN_LEN and HEADER_ONLY kept, and with them the open
parameters and the model's own schedule, bus word and power-on count. -/
def State.startReset (s : State) : State :=
  { State.reset with
    host := s.host
    busData := s.busData
    boots := s.boots
    inCap := s.inCap
    outCap := s.outCap
    sampleFnPresent := s.sampleFnPresent
    headerOnly := s.headerOnly
    inLen := s.inLen
    input := s.input }

/-- Power-on reset (70 R450, 60 R409): every field at its reset value, the contents of IN unspecified again. The open
parameters and the host's schedule stay. -/
def State.powerOnReset (s : State) : State :=
  { State.reset with
    host := s.host
    boots := s.boots + 1
    inCap := s.inCap
    outCap := s.outCap
    sampleFnPresent := s.sampleFnPresent }

/-- Whether a number of bytes exceeds a capacity parameter (00 R9); an unbounded one is never exceeded. -/
def exceedsCap (n : Nat) : Option Nat → Bool
  | none => false
  | some cap => decide (cap < n)

/-! ### IN -/

/-- The byte the host has written at an address of IN, none if it has written none. -/
def Memory.read : Memory → Nat → Option Byte
  | [], _ => none
  | (a, b) :: rest, n => if n = a then some b else Memory.read rest n

/-- Write a byte of IN, keeping the addresses strictly rising. -/
def Memory.write : Memory → Nat → Byte → Memory
  | [], n, v => [(n, v)]
  | (a, b) :: rest, n, v =>
    if n < a then (n, v) :: (a, b) :: rest
    else if n = a then (n, v) :: rest
    else (a, b) :: Memory.write rest n v

/-- The byte at an address of IN: what the host wrote, else the unspecified power-on content (10 R57, 93 I16; log 5). -/
def State.inByte (s : State) (address : Nat) : Byte :=
  (Memory.read s.input address).getD (Config.inPowerOn s.boots address)

/-- The n bytes of IN from an address, `IN[a : a+n]` (00 R12). -/
def State.inBytes (s : State) (address : Nat) : Nat → List Byte
  | 0 => []
  | n + 1 => s.inByte address :: s.inBytes (address + 1) n

/-- `MemRead(IN, a, n)` (20 R81): TruncatedInput past S.inLen, with the chunk start and the offset of the read as
information words (60 R401). The sum is exact (40 R152). -/
def memRead (chunkStart address n : Nat) (s : State) : Res (List Byte) :=
  if address + n > s.inLen.toNat then raiseFault .truncatedInput chunkStart address s
  else .ok (s.inBytes address n) s

/-! ### The bit reader -/

/-- `bitZ(k)` (41 R200); a bit at or beyond the end of the stream is 0, which only PeekBits reads (41 R202). -/
def bitZ (z : List Byte) (k : Nat) : Nat :=
  if k < 8 * z.length then (byteAt z (k / 8)).toNat / 2 ^ (k % 8) % 2 else 0

/-- The value of n bits of the stream from position p, the first in bit 0 (41 R201, R202). -/
def bitsAt (z : List Byte) (p : Nat) : Nat → Nat
  | 0 => 0
  | n + 1 => bitZ z p + 2 * bitsAt z (p + 1) n

/-- `GetBits(n)` (41 R201). -/
def getBits (n : Nat) (s : State) : Res Nat :=
  if s.bitPos + n > 8 * s.z.length then raiseFault .truncatedDeflateStream s.bitPos n s
  else .ok (bitsAt s.z s.bitPos n) { s with bitPos := s.bitPos + n }

/-- `PeekBits(n)` (41 R202). -/
def State.peekBits (s : State) (n : Nat) : Nat := bitsAt s.z s.bitPos n

/-- `AlignToByte()` (41 R203). -/
def State.alignToByte (s : State) : State :=
  { s with bitPos := 8 * ((s.bitPos + 7) / 8) }

/-! ### OUT -/

/-- Append a byte to OUT; past OUT_CAP it faults before the byte is written (20 R83). -/
def appendOut (b : Byte) (s : State) : Res Unit :=
  if exceedsCap (s.out.length + 1) s.outCap then
    raiseFault .outBuffer s.out.length (s.outCap.getD 0) s
  else .ok () { s with out := s.out ++ [b] }

/-- COPY(length, distance): the byte-by-byte copy, each byte read after the one before it was written (42 R255). -/
def copyBack (distance : Nat) : Nat → State → Res Unit
  | 0, s => .ok () s
  | n + 1, s =>
    (appendOut (byteAt s.out (s.out.length - distance)) s).bind fun _ s => copyBack distance n s

/-- The bytes of a stored block: n times GetBits(8) and append (42 R243). -/
def copyStored : Nat → State → Res Unit
  | 0, s => .ok () s
  | n + 1, s =>
    (getBits 8 s).bind fun v s =>
    (appendOut (BitVec.ofNat 8 v) s).bind fun _ s => copyStored n s

end Sys2Proof.Machine
end

