-- ==== Sys2Proof/Machine/Huffman.lean ====
section
/-! DEFINITION. Canonical Huffman tables: HuffBuild (41 R205 to R209), HuffDecode (41 R210) and the two constant tables of
block type 1 (41 R212). -/

namespace Sys2Proof.Machine

/-- `rev_n(v)`: the n low bits of v in reverse order (00 R11). -/
def revBits : Nat → Nat → Nat
  | 0, _ => 0
  | n + 1, v => v % 2 * 2 ^ n + revBits n (v / 2)

/-- The longest code length, 0 for an empty array (41 R205). -/
def maxLength (lengths : List Nat) : Nat := lengths.foldl max 0

/-- The codes of one length, in increasing symbol order from `code`; `symbol` numbers the head of the array. Answers the
codes as (length, symbol, code) and the next free code (the inner loop of 41 R207). -/
def assignLength (len : Nat) : List Nat → (symbol code : Nat) → List (CodeEntry × Nat) × Nat
  | [], _, code => ([], code)
  | l :: rest, symbol, code =>
    if l = len then
      let r := assignLength len rest (symbol + 1) (code + 1)
      ((⟨len, symbol⟩, code) :: r.1, r.2)
    else assignLength len rest (symbol + 1) code

/-- The outer loop of 41 R207: `n` lengths from `len` on, the code shifted left after each. -/
def assignFrom (lengths : List Nat) : (n len code : Nat) → List (CodeEntry × Nat)
  | 0, _, _ => []
  | n + 1, len, code =>
    let r := assignLength len lengths 0 code
    r.1 ++ assignFrom lengths n (len + 1) (2 * r.2)

/-- The canonical codes of a length array, every symbol of length above 0 with its code (41 R207). -/
def assignCodes (lengths : List Nat) : List (CodeEntry × Nat) :=
  assignFrom lengths (maxLength lengths) 1 0

/-- The entry at index i: the code whose bit reversal is the low bits of i, the last one written where several are
(41 R208); empty where none is (41 R209). -/
def entryAt (codes : List (CodeEntry × Nat)) (i : Nat) : Option CodeEntry :=
  codes.foldl (fun e c => if i % 2 ^ c.1.length = revBits c.1.length c.2 then some c.1 else e) none

/-- The Kraft sum of 41 R206, scaled by 2^maxLen: each symbol of length above 0 adds 2^(maxLen - length). -/
def kraftSum (maxLen : Nat) : List Nat → Nat
  | [] => 0
  | l :: rest => (if l = 0 then 0 else 2 ^ (maxLen - l)) + kraftSum maxLen rest

/-- Whether a length array is over-subscribed (41 R206). -/
def overSubscribed (lengths : List Nat) : Bool :=
  decide (kraftSum (maxLength lengths) lengths > 2 ^ maxLength lengths)

/-- The decode table of a length array that passes the check (41 R205, R207, R208). -/
def huffTable (lengths : List Nat) : HuffTable where
  maxLen := maxLength lengths
  entries := (List.range (2 ^ maxLength lengths)).map (entryAt (assignCodes lengths))

/-- `HuffBuild(L)`: InvalidCodeLengths at the current bit position for an over-subscribed array; `tableId` is 0 for the
code-length, 1 for the literal/length, 2 for the distance table (41 R205, R206). -/
def huffBuild (tableId : Nat) (lengths : List Nat) (s : State) : Res HuffTable :=
  if overSubscribed lengths then raiseFault .invalidCodeLengths s.bitPos tableId s
  else .ok (huffTable lengths) s

/-- FIXED_LIT and FIXED_DIST (41 R212). -/
def fixedLit : HuffTable := huffTable fixedLitLengths
def fixedDist : HuffTable := huffTable fixedDistLengths

/-- The table with no codes; a table register that holds nothing decodes as it does (log 17: never reached). -/
def emptyTable : HuffTable := huffTable []

/-- The entry the next bits select: `T.entry[PeekBits(T.maxLen)]` (41 R210). -/
def State.peekEntry (s : State) (table : Option HuffTable) : Option CodeEntry :=
  let t := table.getD emptyTable
  (t.entries[s.peekBits t.maxLen]?).join

/-- `HuffDecode(T)` (41 R210). -/
def huffDecode (table : Option HuffTable) (s : State) : Res Nat :=
  match s.peekEntry table with
  | none => raiseFault .invalidHuffmanCode s.bitPos 0 s
  | some e =>
    if s.bitPos + e.length > 8 * s.z.length then raiseFault .truncatedDeflateStream s.bitPos e.length s
    else .ok e.symbol { s with bitPos := s.bitPos + e.length }

end Sys2Proof.Machine
end

