-- ==== Sys2Proof/Machine/Extract.lean ====
section
/-! DEFINITION. The EXTRACT stage and pixel access: GetPixel (44 R360 to R367), PLEN and PIXEL (44 R368 to R373) and the
host command PIXEL_READ (44 R374). -/

namespace Sys2Proof.Machine

/-- What the open parameter SampleFn looks at (44 R361). -/
def State.sampleView (s : State) : SampleView where
  bitDepth := s.bitDepth
  colorType := s.colorType.code
  width := s.width.toNat
  height := s.height.toNat
  bpp := s.bpp
  cpr := s.cpr
  pix := s.pix
  pal := s.palette

/-- The channels of a palette index (44 R364, R367). -/
def paletteChannels (pal : List Rgb) (k : Nat) : Except FaultRecord Channels :=
  match pal[k]? with
  | none => .error ⟨.paletteIndex, k, pal.length⟩
  | some e => .ok ⟨e.r, e.g, e.b, 255⟩

/-- A pixel at bit depth 8, by colour type, from byte o of PIX (44 R362 to R366). -/
def State.channelsAt (s : State) (o : Nat) : Except FaultRecord Channels :=
  let b := fun i => byteAt s.pix (o + i)
  match s.colorType with
  | .gray => .ok ⟨b 0, b 0, b 0, 255⟩
  | .rgb => .ok ⟨b 0, b 1, b 2, 255⟩
  | .palette => paletteChannels s.palette (b 0).toNat
  | .grayAlpha => .ok ⟨b 0, b 0, b 0, b 1⟩
  | .rgba => .ok ⟨b 0, b 1, b 2, b 3⟩

/-- `GetPixel(x, y)`, the checks in order (44 R360); at another depth the sample is SampleFn's, or Refused where it is
absent (44 R361). -/
def State.getPixel (s : State) (x y : Nat) : Except FaultRecord Channels :=
  if s.pixValid = false then .error ⟨.noPixels, x, y⟩
  else if s.width.toNat ≤ x ∨ s.height.toNat ≤ y then .error ⟨.pixelCoordinates, x, y⟩
  else if s.bitDepth ≠ 8 then
    if s.sampleFnPresent then .ok (Config.sampleFn s.sampleView x y) else .error ⟨.sampleFn, x, y⟩
  else s.channelsAt (y * s.cpr + x * s.bpp)

/-- GetPixel inside an engine operation: its fault is the operation's. -/
def takePixel (x y : Nat) (s : State) : Res Channels :=
  match s.getPixel x y with
  | .ok c => .ok c s
  | .error f => raiseFault f.detail f.info0 f.info1 s

/-- Completion: the payload is valid, the run is DONE (44 R373). -/
def completePayload (s : State) : State := { s with payloadValid := true, phase := .done }

/-- The end of a walk step: completion once the payload has S.plen bytes (44 R370, R373). -/
def endExtract (s : State) : State :=
  if s.payload.length = s.plen.toNat then completePayload s else s

/-- PLEN: the ceiling is checked before the length is stored and before any step of the walk (44 R368, R369). -/
def execPlen (s : State) : Host.Outcome State Fault Refusal :=
  ((takePixel 0 0 s).bind fun c s =>
    if channelsValue c > Config.payloadCeiling then
      raiseFault .lengthCeiling (channelsValue c) Config.payloadCeiling s
    else
      let s := { s with plen := BitVec.ofNat 32 (channelsValue c), px := 1, py := 0 }
      if channelsValue c = 0 then .ok () (completePayload s) else .ok () s).outcome

/-- The wrap to the next row, before the pixel is read (44 R370). -/
def State.wrapColumn (s : State) : State :=
  if s.width.toNat ≤ s.px then { s with px := 0, py := s.py + 1 } else s

/-- PIXEL: one step of the payload walk (44 R370 to R372). -/
def execPixel (s : State) : Host.Outcome State Fault Refusal :=
  let s := s.wrapColumn
  ((takePixel s.px s.py s).bind fun c s =>
    let k := min 4 (s.plen.toNat - s.payload.length)
    .ok () (endExtract { s with payload := s.payload ++ (channelsBytes c).take k, px := s.px + 1 })).outcome

/-- PIXEL_READ: ignored in a busy phase; the outcome goes to PIX_STATUS, never to the latch (44 R374). -/
def execPixelRead (s : State) : Host.Outcome State Fault Refusal :=
  if s.phase.busy then .next s
  else
    match s.getPixel s.pixX.toNat s.pixY.toNat with
    | .ok c => .next { s with pixData := BitVec.ofNat 32 (channelsValue c), pixStatus := 0 }
    | .error f => .next { s with pixStatus := BitVec.ofNat 8 f.detail.cls.code }

end Sys2Proof.Machine
end

