-- ==== Sys2Proof/Machine/HostPort.lean ====
section
/-! DEFINITION. The host's side: the START command (40 R150) and the accesses that are no row of the opcode table, register
writes and reads and the byte windows (10 R46 to R55, 20 R80, R91, R92). -/

namespace Sys2Proof.Machine

/-- START: ignored in a busy phase, the HEADER_ONLY bit of the same write with it; otherwise the partial reset and the
capacity check, then PARSE (40 R150, 10 R46, 70 R451). -/
def execStart (headerOnly : Bool) (s : State) : Host.Outcome State Fault Refusal :=
  if s.phase.busy then .next s
  else
    let s := { s.startReset with headerOnly := headerOnly }
    if exceedsCap s.inLen.toNat s.inCap then
      .next (s.raise .inBuffer s.inLen.toNat (s.inCap.getD 0))
    else .next { s with phase := .parse }

/-- Whether a REG access is a whole 32-bit one at a multiple of 4 (10 R54, 20 R91). -/
def registerAccessOk (offset width : Nat) : Bool := width == 4 && offset % 4 == 0

/-- A 32-bit write to a register that performs no command: CTRL without START, PIX_CMD without its bit, IN_LEN, PIX_X,
PIX_Y; any other offset ignores it. HEADER_ONLY and IN_LEN ignore it in a busy phase too (10 R46 to R54). -/
def State.writeRegister (s : State) (offset : Nat) (value : Word) : State :=
  if offset = 0x00 then
    if s.phase.busy then s else { s with headerOnly := value.getLsbD 1 }
  else if offset = 0x14 then
    if s.phase.busy then s else { s with inLen := value }
  else if offset = 0x34 then { s with pixX := value }
  else if offset = 0x38 then { s with pixY := value }
  else s

/-- Whether the host may write IN at an address: below IN_CAP (20 R80). IN_LEN does not bound a write, because the host
may write it after the bytes (70 R452). -/
def State.inAddressOk (s : State) (address : Nat) : Bool := !exceedsCap (address + 1) s.inCap

/-- A host write to a byte window: IN only, and only outside busy phases (20 R80, 70 R454, 60 R410). -/
def State.writeWindow (s : State) (w : Window) (address : Nat) (value : Byte) : Except Refusal State :=
  match w with
  | .input =>
    if s.phase.busy then .error .inputWriteWhileBusy
    else if s.inAddressOk address then .ok { s with input := Memory.write s.input address value }
    else .error .windowAddress
  | .output | .pixels | .payload => .error .windowReadOnly

/-- Whether the host may read IN at an address: IN's length is S.inLen, within IN_CAP (20 R80, 10 R50), so that IN_LEN = 0
makes IN unreadable (70 R450, 93 I16). -/
def State.inReadable (s : State) (address : Nat) : Bool :=
  decide (address < s.inLen.toNat) && s.inAddressOk address

/-- The byte a host read of a window returns, none outside the space (20 R80, R92; log 13). -/
def State.readWindow (s : State) (w : Window) (address : Nat) : Option Byte :=
  match w with
  | .input => if s.inReadable address then some (s.inByte address) else none
  | .output => s.out[address]?
  | .pixels => s.pix[address]?
  | .payload => s.payload[address]?

end Sys2Proof.Machine
end

