-- ==== Sys2Proof/Machine/Unfilter.lean ====
section
/-! DEFINITION. The UNFILTER stage: its entry and end (43 R320, R321, R331) and the row operations (43 R322 to R330). -/

namespace Sys2Proof.Machine

/-- The end of UNFILTER, made by the operation after which S.row has reached S.height (43 R331). -/
def endUnfilter (s : State) : State :=
  if s.row < s.height.toNat then s else { s with pixValid := true, phase := .extract }

/-- Entry to UNFILTER, made by the operation that ends INFLATE (42 R258, 43 R320, R321): interlace check, geometry; with
height 0 the stage ends at once. -/
def enterUnfilter (s : State) : Res Unit :=
  let s := { s with phase := .unfilter, row := 0 }
  if s.interlace = 1 then raiseFault .unsupportedInterlace 0 1 s
  else
    let bpp := bytesPerPixel s.colorType s.bitDepth
    .ok () (endUnfilter { s with bpp := bpp, cpr := bpp * s.width.toNat })

/-- Fetch scanline S.row: its tag and its cpr filtered bytes; a row that is not whole faults before its tag is looked at
(43 R322). -/
def fetchRow (s : State) : Res (Byte × List Byte) :=
  let base := s.row * (s.cpr + 1)
  if base + s.cpr + 1 > s.out.length then raiseFault .truncatedImageData s.row s.out.length s
  else .ok (byteAt s.out base, (s.out.drop (base + 1)).take s.cpr) s

/-- Row y - 1 of PIX, empty on the first row (43 R323). -/
def State.previousRow (s : State) : List Byte :=
  if s.row = 0 then [] else (s.pix.drop ((s.row - 1) * s.cpr)).take s.cpr

/-- The reconstruction of a row: byte i is `F[i] + pred(a, b, c)` mod 256, a, b, c the reconstructed neighbours, each
independently 0 where it does not exist (43 R323, R330). `done` holds R[0 .. i-1]. -/
def reconRow (pred : Byte → Byte → Byte → Byte) (bpp : Nat) (prev : List Byte) : List Byte → List Byte → List Byte
  | [], done => done
  | f :: rest, done =>
    let i := done.length
    let a := if bpp ≤ i then byteAt done (i - bpp) else 0
    let b := byteAt prev i
    let c := if bpp ≤ i then byteAt prev (i - bpp) else 0
    reconRow pred bpp prev rest (done ++ [f + pred a b c])

/-- ROW with a filter's predictor (43 R322): reconstruct scanline S.row, append it to PIX, go to the next row. -/
def rowOp (pred : Byte → Byte → Byte → Byte) (s : State) : Res Unit :=
  (fetchRow s).bind fun (_, filtered) s =>
  .ok () (endUnfilter
    { s with
      pix := s.pix ++ reconRow pred s.bpp s.previousRow filtered []
      row := s.row + 1 })

def predNone (_ _ _ : Byte) : Byte := 0

def predSub (a _ _ : Byte) : Byte := a

def predUp (_ b _ : Byte) : Byte := b

/-- `floor((a + b) / 2)`, the sum exact (43 R327). -/
def predAvg (a b _ : Byte) : Byte := BitVec.ofNat 8 ((a.toNat + b.toNat) / 2)

/-- The Paeth predictor: nearest of a, b, c to a + b - c, an exact integer; ties in the order a, b, c (43 R328). -/
def predPaeth (a b c : Byte) : Byte :=
  let p : Int := (a.toNat : Int) + (b.toNat : Int) - (c.toNat : Int)
  let pa := (p - (a.toNat : Int)).natAbs
  let pb := (p - (b.toNat : Int)).natAbs
  let pc := (p - (c.toNat : Int)).natAbs
  if pa ≤ pb ∧ pa ≤ pc then a else if pb ≤ pc then b else c

/-- FILT_NONE (43 R324). -/
def execFiltNone (s : State) : Host.Outcome State Fault Refusal := (rowOp predNone s).outcome

/-- FILT_SUB (43 R325). -/
def execFiltSub (s : State) : Host.Outcome State Fault Refusal := (rowOp predSub s).outcome

/-- FILT_UP (43 R326). -/
def execFiltUp (s : State) : Host.Outcome State Fault Refusal := (rowOp predUp s).outcome

/-- FILT_AVG (43 R327). -/
def execFiltAvg (s : State) : Host.Outcome State Fault Refusal := (rowOp predAvg s).outcome

/-- FILT_PAETH (43 R328). -/
def execFiltPaeth (s : State) : Host.Outcome State Fault Refusal := (rowOp predPaeth s).outcome

/-- FILT_INVALID (43 R329). -/
def execFiltInvalid (tag : Byte) (s : State) : Host.Outcome State Fault Refusal :=
  ((fetchRow s).bind fun _ s => raiseFault (α := Unit) .invalidFilterType s.row tag.toNat s).outcome

end Sys2Proof.Machine
end

