-- ==== Sys2Proof/Machine/Inflate.lean ====
section
/-! DEFINITION. The INFLATE stage: the zlib header, block headers, code-length items, literal/length and distance items
(42 R240 to R259). -/

namespace Sys2Proof.Machine

/-- `EndBlock()` (42 R240); the end of the final block ends the stage (42 R258). -/
def endBlock (s : State) : Res Unit :=
  if s.bfinal then enterUnfilter { s with ist := .idone } else .ok () { s with ist := .bhdr }

/-! ### zlib header -/

/-- The first 16 bits of Z as `CMF * 256 + FLG` (30 R116, 42 R241). -/
def readZlibHeader (s : State) : Res Nat :=
  (getBits 8 s).bind fun cmf s =>
  (getBits 8 s).bind fun flg s =>
  .ok (cmf * 256 + flg) s

/-- ZHDR: a header that passes the checks (42 R241). -/
def execZhdr (_value : BitVec 16) (s : State) : Host.Outcome State Fault Refusal :=
  ((readZlibHeader s).bind fun _ s => .ok () { s with ist := .bhdr }).outcome

/-- ZHDR_BAD: one that does not (42 R241). -/
def execZhdrBad (value : BitVec 16) (s : State) : Host.Outcome State Fault Refusal :=
  ((readZlibHeader s).bind fun _ s => raiseFault (α := Unit) .badDeflateHeader 0 value.toNat s).outcome

/-! ### Block headers -/

/-- The block header: BFINAL, then BTYPE, each stored as it is read; answers the 3-bit value (30 R117, 42 R242). -/
def readBlockHeader (s : State) : Res Nat :=
  (getBits 1 s).bind fun f s =>
  (getBits 2 { s with bfinal := f == 1 }).bind fun t s =>
  .ok (f + 2 * t) { s with btype := BitVec.ofNat 2 t }

/-- Consume a block header and hold its fields: BFINAL from the item, BTYPE from its row (42 R242). -/
def takeBlockHeader (final : Bool) (btype : BitVec 2) (s : State) : Res Unit :=
  (readBlockHeader s).bind fun _ s => .ok () { s with bfinal := final, btype := btype }

/-- The body of a stored block, within the block-header operation: up to 65535 bytes appended to OUT in one operation
(42 R243, 30 R131). 42 R259 says OUT grows by at most 258 bytes per operation, which the body of R243 exceeds; the
DESIGN CHOICE is to follow R243 (log 24). -/
def storedBody (s : State) : Res Unit :=
  let s := s.alignToByte
  let q := s.bitPos
  (getBits 16 s).bind fun len s =>
  (getBits 16 s).bind fun nlen s =>
  if nlen ≠ 65535 - len then raiseFault .storedLengthMismatch q (len * 65536 + nlen) s
  else (copyStored len s).bind fun _ s => endBlock s

/-- BLK_STORED (42 R243). -/
def execBlkStored (final : Bool) (s : State) : Host.Outcome State Fault Refusal :=
  ((takeBlockHeader final 0 s).bind fun _ s => storedBody s).outcome

/-- BLK_FIXED (42 R244). -/
def execBlkFixed (final : Bool) (s : State) : Host.Outcome State Fault Refusal :=
  ((takeBlockHeader final 1 s).bind fun _ s =>
    .ok () { s with litTab := some fixedLit, distTab := some fixedDist, ist := .codes }).outcome

/-- The code-length code lengths: one 3-bit field for each symbol of the list, in its order (30 R118, 42 R245). -/
def readClLengths : List Nat → State → Res Unit
  | [], s => .ok () s
  | symbol :: rest, s =>
    (getBits 3 s).bind fun l s =>
    readClLengths rest { s with clLen := s.clLen.set symbol (BitVec.ofNat 3 l) }

/-- The header of a dynamic block (42 R245). -/
def dynamicHeader (s : State) : Res Unit :=
  (getBits 5 s).bind fun hlit s =>
  (getBits 5 { s with hlit := hlit + 257 }).bind fun hdist s =>
  (getBits 4 { s with hdist := hdist + 1 }).bind fun hclen s =>
  (readClLengths (clOrder.take (hclen + 4))
      { s with hclen := hclen + 4, clLen := List.replicate 19 0 }).bind fun _ s =>
  (huffBuild 0 (s.clLen.map BitVec.toNat) s).bind fun t s =>
  .ok () { s with clTab := some t, lens := [], ist := .clseq }

/-- BLK_DYNAMIC (42 R245). -/
def execBlkDynamic (final : Bool) (s : State) : Host.Outcome State Fault Refusal :=
  ((takeBlockHeader final 2 s).bind fun _ s => dynamicHeader s).outcome

/-- BLK_INVALID: p is the bit position of the header (42 R242). -/
def execBlkInvalid (final : Bool) (s : State) : Host.Outcome State Fault Refusal :=
  let p := s.bitPos
  ((takeBlockHeader final 3 s).bind fun _ s => raiseFault (α := Unit) .invalidBlockType p 3 s).outcome

/-! ### Code-length items -/

/-- The end of the code-length sequence: both tables, the literal/length one built and checked first (42 R250). -/
def buildTables (s : State) : Res Unit :=
  (huffBuild 1 ((s.lens.take s.hlit).map BitVec.toNat) s).bind fun t s =>
  (huffBuild 2 (((s.lens.drop s.hlit).take s.hdist).map BitVec.toNat) { s with litTab := some t }).bind fun t s =>
  .ok () { s with distTab := some t, ist := .codes }

/-- Append code lengths; the operation that completes the sequence builds the tables (42 R246 to R250). -/
def appendLens (lengths : List (BitVec 4)) (s : State) : Res Unit :=
  let s := { s with lens := s.lens ++ lengths }
  if s.lens.length = s.hlit + s.hdist then buildTables s else .ok () s

/-- Append one length r times, unless that overruns the sequence; p is the bit position of the repeat code
(42 R247 to R249). -/
def repeatLen (p : Nat) (length : BitVec 4) (r : Nat) (s : State) : Res Unit :=
  if s.lens.length + r > s.hlit + s.hdist then raiseFault .invalidCodeLengths p 4 s
  else appendLens (List.replicate r length) s

/-- CLEN (42 R246). -/
def execClen (length : BitVec 4) (s : State) : Host.Outcome State Fault Refusal :=
  ((huffDecode s.clTab s).bind fun _ s => appendLens [length] s).outcome

/-- REPPREV: a missing previous length faults before the extra bits are read (42 R247). -/
def execRepprev (s : State) : Host.Outcome State Fault Refusal :=
  let p := s.bitPos
  ((huffDecode s.clTab s).bind fun _ s =>
    match s.lens.getLast? with
    | none => raiseFault .invalidCodeLengths p 3 s
    | some prev => (getBits 2 s).bind fun e s => repeatLen p prev (3 + e) s).outcome

/-- REPZERO (42 R248). -/
def execRepzero (s : State) : Host.Outcome State Fault Refusal :=
  let p := s.bitPos
  ((huffDecode s.clTab s).bind fun _ s =>
    (getBits 3 s).bind fun e s => repeatLen p 0 (3 + e) s).outcome

/-- REPZEROL (42 R249). -/
def execRepzerol (s : State) : Host.Outcome State Fault Refusal :=
  let p := s.bitPos
  ((huffDecode s.clTab s).bind fun _ s =>
    (getBits 7 s).bind fun e s => repeatLen p 0 (11 + e) s).outcome

/-! ### Literal/length and distance items -/

/-- LIT (42 R251). -/
def execLit (byte : Byte) (s : State) : Host.Outcome State Fault Refusal :=
  ((huffDecode s.litTab s).bind fun _ s => appendOut byte s).outcome

/-- EOB (42 R252). -/
def execEob (s : State) : Host.Outcome State Fault Refusal :=
  ((huffDecode s.litTab s).bind fun _ s => endBlock s).outcome

/-- LL_INVALID: symbol 286 or 287 (42 R256). -/
def execLlInvalid (low : BitVec 1) (s : State) : Host.Outcome State Fault Refusal :=
  let p := s.bitPos
  ((huffDecode s.litTab s).bind fun _ s =>
    raiseFault (α := Unit) .invalidSymbol p (286 + low.toNat) s).outcome

/-- What `DIST()` does once its code, which starts at p, has been decoded: the symbol check (42 R254, R257), the extra
bits, the distance check. -/
def distanceOf (p symbol : Nat) (s : State) : Res Nat :=
  if symbol > 29 then raiseFault .invalidSymbol p symbol s
  else
    (getBits (distanceRow symbol).extra s).bind fun e s =>
    let distance := (distanceRow symbol).base + e
    if distance > s.out.length then raiseFault .invalidDistance p distance s else .ok distance s

/-- The second half of a back-reference: the distance of an already decoded symbol, then the copy (42 R254, R255). -/
def finishReference (p symbol length : Nat) (s : State) : Res Unit :=
  (distanceOf p symbol s).bind fun distance s => copyBack distance length s

/-- LEN with a length code: length, distance item and copy as one operation (42 R253). -/
def lengthOp (code : Nat) (s : State) : Res Unit :=
  (huffDecode s.litTab s).bind fun _ s =>
  (getBits (lengthRow code).extra s).bind fun e s =>
  let p := s.bitPos
  (huffDecode s.distTab s).bind fun d s => finishReference p d ((lengthRow code).base + e) s

/-- A distance item on its own, the length being the one pending in the state; with none pending the distance is decoded
and checked and nothing is copied (42 R254; log 8). -/
def distanceOp (symbol : Nat) (s : State) : Res Unit :=
  let p := s.bitPos
  let length := s.pendLen.getD 0
  (huffDecode s.distTab s).bind fun _ s => finishReference p symbol length { s with pendLen := none }

/-- LEN_257 (42 R253, 30 R121). -/
def execLen257 (s : State) : Host.Outcome State Fault Refusal := (lengthOp 257 s).outcome

/-- LEN_258 (42 R253, 30 R121). -/
def execLen258 (s : State) : Host.Outcome State Fault Refusal := (lengthOp 258 s).outcome

/-- LEN_259 (42 R253, 30 R121). -/
def execLen259 (s : State) : Host.Outcome State Fault Refusal := (lengthOp 259 s).outcome

/-- LEN_260 (42 R253, 30 R121). -/
def execLen260 (s : State) : Host.Outcome State Fault Refusal := (lengthOp 260 s).outcome

/-- LEN_261 (42 R253, 30 R121). -/
def execLen261 (s : State) : Host.Outcome State Fault Refusal := (lengthOp 261 s).outcome

/-- LEN_262 (42 R253, 30 R121). -/
def execLen262 (s : State) : Host.Outcome State Fault Refusal := (lengthOp 262 s).outcome

/-- LEN_263 (42 R253, 30 R121). -/
def execLen263 (s : State) : Host.Outcome State Fault Refusal := (lengthOp 263 s).outcome

/-- LEN_264 (42 R253, 30 R121). -/
def execLen264 (s : State) : Host.Outcome State Fault Refusal := (lengthOp 264 s).outcome

/-- LEN_265 (42 R253, 30 R121). -/
def execLen265 (s : State) : Host.Outcome State Fault Refusal := (lengthOp 265 s).outcome

/-- LEN_266 (42 R253, 30 R121). -/
def execLen266 (s : State) : Host.Outcome State Fault Refusal := (lengthOp 266 s).outcome

/-- LEN_267 (42 R253, 30 R121). -/
def execLen267 (s : State) : Host.Outcome State Fault Refusal := (lengthOp 267 s).outcome

/-- LEN_268 (42 R253, 30 R121). -/
def execLen268 (s : State) : Host.Outcome State Fault Refusal := (lengthOp 268 s).outcome

/-- LEN_269 (42 R253, 30 R121). -/
def execLen269 (s : State) : Host.Outcome State Fault Refusal := (lengthOp 269 s).outcome

/-- LEN_270 (42 R253, 30 R121). -/
def execLen270 (s : State) : Host.Outcome State Fault Refusal := (lengthOp 270 s).outcome

/-- LEN_271 (42 R253, 30 R121). -/
def execLen271 (s : State) : Host.Outcome State Fault Refusal := (lengthOp 271 s).outcome

/-- LEN_272 (42 R253, 30 R121). -/
def execLen272 (s : State) : Host.Outcome State Fault Refusal := (lengthOp 272 s).outcome

/-- LEN_273 (42 R253, 30 R121). -/
def execLen273 (s : State) : Host.Outcome State Fault Refusal := (lengthOp 273 s).outcome

/-- LEN_274 (42 R253, 30 R121). -/
def execLen274 (s : State) : Host.Outcome State Fault Refusal := (lengthOp 274 s).outcome

/-- LEN_275 (42 R253, 30 R121). -/
def execLen275 (s : State) : Host.Outcome State Fault Refusal := (lengthOp 275 s).outcome

/-- LEN_276 (42 R253, 30 R121). -/
def execLen276 (s : State) : Host.Outcome State Fault Refusal := (lengthOp 276 s).outcome

/-- LEN_277 (42 R253, 30 R121). -/
def execLen277 (s : State) : Host.Outcome State Fault Refusal := (lengthOp 277 s).outcome

/-- LEN_278 (42 R253, 30 R121). -/
def execLen278 (s : State) : Host.Outcome State Fault Refusal := (lengthOp 278 s).outcome

/-- LEN_279 (42 R253, 30 R121). -/
def execLen279 (s : State) : Host.Outcome State Fault Refusal := (lengthOp 279 s).outcome

/-- LEN_280 (42 R253, 30 R121). -/
def execLen280 (s : State) : Host.Outcome State Fault Refusal := (lengthOp 280 s).outcome

/-- LEN_281 (42 R253, 30 R121). -/
def execLen281 (s : State) : Host.Outcome State Fault Refusal := (lengthOp 281 s).outcome

/-- LEN_282 (42 R253, 30 R121). -/
def execLen282 (s : State) : Host.Outcome State Fault Refusal := (lengthOp 282 s).outcome

/-- LEN_283 (42 R253, 30 R121). -/
def execLen283 (s : State) : Host.Outcome State Fault Refusal := (lengthOp 283 s).outcome

/-- LEN_284 (42 R253, 30 R121). -/
def execLen284 (s : State) : Host.Outcome State Fault Refusal := (lengthOp 284 s).outcome

/-- LEN_285 (42 R253, 30 R121). -/
def execLen285 (s : State) : Host.Outcome State Fault Refusal := (lengthOp 285 s).outcome

/-- DIST_0 (42 R254, 30 R122). -/
def execDist0 (s : State) : Host.Outcome State Fault Refusal := (distanceOp 0 s).outcome

/-- DIST_1 (42 R254, 30 R122). -/
def execDist1 (s : State) : Host.Outcome State Fault Refusal := (distanceOp 1 s).outcome

/-- DIST_2 (42 R254, 30 R122). -/
def execDist2 (s : State) : Host.Outcome State Fault Refusal := (distanceOp 2 s).outcome

/-- DIST_3 (42 R254, 30 R122). -/
def execDist3 (s : State) : Host.Outcome State Fault Refusal := (distanceOp 3 s).outcome

/-- DIST_4 (42 R254, 30 R122). -/
def execDist4 (s : State) : Host.Outcome State Fault Refusal := (distanceOp 4 s).outcome

/-- DIST_5 (42 R254, 30 R122). -/
def execDist5 (s : State) : Host.Outcome State Fault Refusal := (distanceOp 5 s).outcome

/-- DIST_6 (42 R254, 30 R122). -/
def execDist6 (s : State) : Host.Outcome State Fault Refusal := (distanceOp 6 s).outcome

/-- DIST_7 (42 R254, 30 R122). -/
def execDist7 (s : State) : Host.Outcome State Fault Refusal := (distanceOp 7 s).outcome

/-- DIST_8 (42 R254, 30 R122). -/
def execDist8 (s : State) : Host.Outcome State Fault Refusal := (distanceOp 8 s).outcome

/-- DIST_9 (42 R254, 30 R122). -/
def execDist9 (s : State) : Host.Outcome State Fault Refusal := (distanceOp 9 s).outcome

/-- DIST_10 (42 R254, 30 R122). -/
def execDist10 (s : State) : Host.Outcome State Fault Refusal := (distanceOp 10 s).outcome

/-- DIST_11 (42 R254, 30 R122). -/
def execDist11 (s : State) : Host.Outcome State Fault Refusal := (distanceOp 11 s).outcome

/-- DIST_12 (42 R254, 30 R122). -/
def execDist12 (s : State) : Host.Outcome State Fault Refusal := (distanceOp 12 s).outcome

/-- DIST_13 (42 R254, 30 R122). -/
def execDist13 (s : State) : Host.Outcome State Fault Refusal := (distanceOp 13 s).outcome

/-- DIST_14 (42 R254, 30 R122). -/
def execDist14 (s : State) : Host.Outcome State Fault Refusal := (distanceOp 14 s).outcome

/-- DIST_15 (42 R254, 30 R122). -/
def execDist15 (s : State) : Host.Outcome State Fault Refusal := (distanceOp 15 s).outcome

/-- DIST_16 (42 R254, 30 R122). -/
def execDist16 (s : State) : Host.Outcome State Fault Refusal := (distanceOp 16 s).outcome

/-- DIST_17 (42 R254, 30 R122). -/
def execDist17 (s : State) : Host.Outcome State Fault Refusal := (distanceOp 17 s).outcome

/-- DIST_18 (42 R254, 30 R122). -/
def execDist18 (s : State) : Host.Outcome State Fault Refusal := (distanceOp 18 s).outcome

/-- DIST_19 (42 R254, 30 R122). -/
def execDist19 (s : State) : Host.Outcome State Fault Refusal := (distanceOp 19 s).outcome

/-- DIST_20 (42 R254, 30 R122). -/
def execDist20 (s : State) : Host.Outcome State Fault Refusal := (distanceOp 20 s).outcome

/-- DIST_21 (42 R254, 30 R122). -/
def execDist21 (s : State) : Host.Outcome State Fault Refusal := (distanceOp 21 s).outcome

/-- DIST_22 (42 R254, 30 R122). -/
def execDist22 (s : State) : Host.Outcome State Fault Refusal := (distanceOp 22 s).outcome

/-- DIST_23 (42 R254, 30 R122). -/
def execDist23 (s : State) : Host.Outcome State Fault Refusal := (distanceOp 23 s).outcome

/-- DIST_24 (42 R254, 30 R122). -/
def execDist24 (s : State) : Host.Outcome State Fault Refusal := (distanceOp 24 s).outcome

/-- DIST_25 (42 R254, 30 R122). -/
def execDist25 (s : State) : Host.Outcome State Fault Refusal := (distanceOp 25 s).outcome

/-- DIST_26 (42 R254, 30 R122). -/
def execDist26 (s : State) : Host.Outcome State Fault Refusal := (distanceOp 26 s).outcome

/-- DIST_27 (42 R254, 30 R122). -/
def execDist27 (s : State) : Host.Outcome State Fault Refusal := (distanceOp 27 s).outcome

/-- DIST_28 (42 R254, 30 R122). -/
def execDist28 (s : State) : Host.Outcome State Fault Refusal := (distanceOp 28 s).outcome

/-- DIST_29 (42 R254, 30 R122). -/
def execDist29 (s : State) : Host.Outcome State Fault Refusal := (distanceOp 29 s).outcome

/-- DIST_INVALID: symbol 30 or 31 (42 R257). -/
def execDistInvalid (low : BitVec 1) (s : State) : Host.Outcome State Fault Refusal :=
  (distanceOp (30 + low.toNat) s).outcome

end Sys2Proof.Machine
end

