-- ==== Sys2Proof/Machine/Parse.lean ====
section
/-! DEFINITION. The PARSE stage: SIG and the chunk operations (40 R151 to R168). -/

namespace Sys2Proof.Machine

/-- A chunk's frame: its start offset, LENGTH, TYPE and DATA (30 R112). -/
structure Chunk where
  start : Nat
  length : Nat
  type : BitVec 32
  data : List Byte
  deriving DecidableEq, Repr

/-- The first 8 bytes of a chunk: LENGTH and TYPE (40 R152). -/
def chunkHead (s : State) : Res (Nat × BitVec 32) :=
  (memRead s.pos s.pos 8 s).bind fun head s =>
  .ok (be (head.take 4), BitVec.ofNat 32 (be (head.drop 4))) s

/-- CHUNK: read the whole frame and move S.pos past it; the CRC is consumed, never checked (40 R152, R167). -/
def chunkFrame (s : State) : Res Chunk :=
  let a := s.pos
  (chunkHead s).bind fun (length, type) s =>
  (memRead a (a + 8) length s).bind fun data s =>
  (memRead a (a + 8 + length) 4 s).bind fun _ s =>
  .ok ⟨a, length, type, data⟩ { s with pos := a + 12 + length }

/-- The frame of a chunk other than IHDR, with the check that IHDR came first (40 R153). -/
def chunkAfterHeader (s : State) : Res Chunk :=
  (chunkFrame s).bind fun c s =>
  if s.hdrValid then .ok c s else raiseFault .chunkOrder c.start 0 s

/-- SIG (40 R151). -/
def execSig (s : State) : Host.Outcome State Fault Refusal :=
  ((memRead 0 0 8 s).bind fun bytes s =>
    if be bytes = signatureValue then .ok () { s with pos := 8 }
    else raiseFault .badSignature 0 0 s).outcome

/-! ### The setters of IHDR; k is the field index of InvalidField (40 R155 to R161) -/

def setBitDepth (a : Nat) (bd : Byte) (s : State) : Res Unit :=
  if bitDepthLegal bd then .ok () { s with bitDepth := bd } else raiseFault .invalidField a 2 s

/-- The colour type and its combination with the bit depth, already set (40 R158). -/
def setColorType (a : Nat) (ct : Byte) (s : State) : Res Unit :=
  match colorTypeOf ct with
  | none => raiseFault .invalidField a 3 s
  | some c =>
    if depthAllowed c s.bitDepth then .ok () { s with colorType := c } else raiseFault .invalidField a 3 s

def setCompression (a : Nat) (cm : Byte) (s : State) : Res Unit :=
  if cm = 0 then .ok () { s with compression := cm } else raiseFault .invalidField a 4 s

def setFilter (a : Nat) (fm : Byte) (s : State) : Res Unit :=
  if fm = 0 then .ok () { s with filter := fm } else raiseFault .invalidField a 5 s

def setInterlace (a : Nat) (im : Byte) (s : State) : Res Unit :=
  if im = 0 ∨ im = 1 then .ok () { s with interlace := im } else raiseFault .invalidField a 6 s

/-- The seven setters in order, width and height first, which accept every u32 (40 R154 to R161, 30 R114). -/
def setDescriptor (a : Nat) (data : List Byte) (s : State) : Res Unit :=
  (setBitDepth a (byteAt data 8)
      { s with
        width := BitVec.ofNat 32 (be (data.take 4))
        height := BitVec.ofNat 32 (be ((data.drop 4).take 4)) }).bind fun _ s =>
  (setColorType a (byteAt data 9) s).bind fun _ s =>
  (setCompression a (byteAt data 10) s).bind fun _ s =>
  (setFilter a (byteAt data 11) s).bind fun _ s =>
  setInterlace a (byteAt data 12) s

/-- IHDR; in header-only mode the run ends here (40 R154, R162). -/
def execIhdr (s : State) : Host.Outcome State Fault Refusal :=
  ((chunkFrame s).bind fun c s =>
    if s.hdrValid then raiseFault .chunkOrder c.start 0 s
    else if c.length ≠ 13 then raiseFault .invalidField c.start 7 s
    else
      (setDescriptor c.start c.data s).bind fun _ s =>
      .ok () { s with hdrValid := true, phase := if s.headerOnly then .doneHeader else s.phase }).outcome

/-- PLTE (40 R163). -/
def execPlte (s : State) : Host.Outcome State Fault Refusal :=
  ((chunkAfterHeader s).bind fun c s =>
    if s.plteSeen then raiseFault .chunkOrder c.start 0 s
    else if s.colorType ≠ .palette then raiseFault .invalidPalette c.start 0 s
    else if c.length % 3 ≠ 0 then raiseFault .invalidPalette c.start 1 s
    else if c.length > 2 ^ s.bitDepth.toNat * 3 then raiseFault .invalidPalette c.start 2 s
    else .ok () { s with pal := some (paletteEntries c.data) }).outcome

/-- IDAT (40 R164). -/
def execIdat (s : State) : Host.Outcome State Fault Refusal :=
  ((chunkAfterHeader s).bind fun c s => .ok () { s with z := s.z ++ c.data }).outcome

/-- IEND (40 R165). -/
def execIend (s : State) : Host.Outcome State Fault Refusal :=
  ((chunkAfterHeader s).bind fun c s =>
    if s.colorType = .palette ∧ s.plteSeen = false then raiseFault .invalidPalette c.start 3 s
    else .ok () { s with phase := .inflate, ist := .zhdr, bitPos := 0 }).outcome

/-- SKIP: the frame alone; the type is not looked at (40 R166). -/
def execSkip (_type : BitVec 32) (s : State) : Host.Outcome State Fault Refusal :=
  ((chunkAfterHeader s).bind fun _ s => .ok () s).outcome

end Sys2Proof.Machine
end

