-- ==== Sys2Proof/Machine/Dispatch.lean ====
section
/-! DEFINITION. The dispatch: one arm per row of the opcode table, each one call of its meaning. -/

namespace Sys2Proof.Machine

def exec (i : Instr) (s : State) : Host.Outcome State Fault Refusal :=
  match i with
  | .start headerOnly => Sys2Proof.Machine.execStart headerOnly s
  | .pixelRead => Sys2Proof.Machine.execPixelRead s
  | .sig => Sys2Proof.Machine.execSig s
  | .ihdr => Sys2Proof.Machine.execIhdr s
  | .plte => Sys2Proof.Machine.execPlte s
  | .idat => Sys2Proof.Machine.execIdat s
  | .iend => Sys2Proof.Machine.execIend s
  | .skip type => Sys2Proof.Machine.execSkip type s
  | .zhdr value => Sys2Proof.Machine.execZhdr value s
  | .zhdrBad value => Sys2Proof.Machine.execZhdrBad value s
  | .blkStored final => Sys2Proof.Machine.execBlkStored final s
  | .blkFixed final => Sys2Proof.Machine.execBlkFixed final s
  | .blkDynamic final => Sys2Proof.Machine.execBlkDynamic final s
  | .blkInvalid final => Sys2Proof.Machine.execBlkInvalid final s
  | .clen length => Sys2Proof.Machine.execClen length s
  | .repprev => Sys2Proof.Machine.execRepprev s
  | .repzero => Sys2Proof.Machine.execRepzero s
  | .repzerol => Sys2Proof.Machine.execRepzerol s
  | .lit byte => Sys2Proof.Machine.execLit byte s
  | .eob => Sys2Proof.Machine.execEob s
  | .len257 => Sys2Proof.Machine.execLen257 s
  | .len258 => Sys2Proof.Machine.execLen258 s
  | .len259 => Sys2Proof.Machine.execLen259 s
  | .len260 => Sys2Proof.Machine.execLen260 s
  | .len261 => Sys2Proof.Machine.execLen261 s
  | .len262 => Sys2Proof.Machine.execLen262 s
  | .len263 => Sys2Proof.Machine.execLen263 s
  | .len264 => Sys2Proof.Machine.execLen264 s
  | .len265 => Sys2Proof.Machine.execLen265 s
  | .len266 => Sys2Proof.Machine.execLen266 s
  | .len267 => Sys2Proof.Machine.execLen267 s
  | .len268 => Sys2Proof.Machine.execLen268 s
  | .len269 => Sys2Proof.Machine.execLen269 s
  | .len270 => Sys2Proof.Machine.execLen270 s
  | .len271 => Sys2Proof.Machine.execLen271 s
  | .len272 => Sys2Proof.Machine.execLen272 s
  | .len273 => Sys2Proof.Machine.execLen273 s
  | .len274 => Sys2Proof.Machine.execLen274 s
  | .len275 => Sys2Proof.Machine.execLen275 s
  | .len276 => Sys2Proof.Machine.execLen276 s
  | .len277 => Sys2Proof.Machine.execLen277 s
  | .len278 => Sys2Proof.Machine.execLen278 s
  | .len279 => Sys2Proof.Machine.execLen279 s
  | .len280 => Sys2Proof.Machine.execLen280 s
  | .len281 => Sys2Proof.Machine.execLen281 s
  | .len282 => Sys2Proof.Machine.execLen282 s
  | .len283 => Sys2Proof.Machine.execLen283 s
  | .len284 => Sys2Proof.Machine.execLen284 s
  | .len285 => Sys2Proof.Machine.execLen285 s
  | .llInvalid low => Sys2Proof.Machine.execLlInvalid low s
  | .dist0 => Sys2Proof.Machine.execDist0 s
  | .dist1 => Sys2Proof.Machine.execDist1 s
  | .dist2 => Sys2Proof.Machine.execDist2 s
  | .dist3 => Sys2Proof.Machine.execDist3 s
  | .dist4 => Sys2Proof.Machine.execDist4 s
  | .dist5 => Sys2Proof.Machine.execDist5 s
  | .dist6 => Sys2Proof.Machine.execDist6 s
  | .dist7 => Sys2Proof.Machine.execDist7 s
  | .dist8 => Sys2Proof.Machine.execDist8 s
  | .dist9 => Sys2Proof.Machine.execDist9 s
  | .dist10 => Sys2Proof.Machine.execDist10 s
  | .dist11 => Sys2Proof.Machine.execDist11 s
  | .dist12 => Sys2Proof.Machine.execDist12 s
  | .dist13 => Sys2Proof.Machine.execDist13 s
  | .dist14 => Sys2Proof.Machine.execDist14 s
  | .dist15 => Sys2Proof.Machine.execDist15 s
  | .dist16 => Sys2Proof.Machine.execDist16 s
  | .dist17 => Sys2Proof.Machine.execDist17 s
  | .dist18 => Sys2Proof.Machine.execDist18 s
  | .dist19 => Sys2Proof.Machine.execDist19 s
  | .dist20 => Sys2Proof.Machine.execDist20 s
  | .dist21 => Sys2Proof.Machine.execDist21 s
  | .dist22 => Sys2Proof.Machine.execDist22 s
  | .dist23 => Sys2Proof.Machine.execDist23 s
  | .dist24 => Sys2Proof.Machine.execDist24 s
  | .dist25 => Sys2Proof.Machine.execDist25 s
  | .dist26 => Sys2Proof.Machine.execDist26 s
  | .dist27 => Sys2Proof.Machine.execDist27 s
  | .dist28 => Sys2Proof.Machine.execDist28 s
  | .dist29 => Sys2Proof.Machine.execDist29 s
  | .distInvalid low => Sys2Proof.Machine.execDistInvalid low s
  | .filtNone => Sys2Proof.Machine.execFiltNone s
  | .filtSub => Sys2Proof.Machine.execFiltSub s
  | .filtUp => Sys2Proof.Machine.execFiltUp s
  | .filtAvg => Sys2Proof.Machine.execFiltAvg s
  | .filtPaeth => Sys2Proof.Machine.execFiltPaeth s
  | .filtInvalid tag => Sys2Proof.Machine.execFiltInvalid tag s
  | .plen => Sys2Proof.Machine.execPlen s
  | .pixel => Sys2Proof.Machine.execPixel s

end Sys2Proof.Machine
end

