-- ==== Sys2Proof/Machine/Fetch.lean ====
section
/-! DEFINITION. What the next step does: the host's turn if one is due (log 1), else the next item of the decoding context
(30 R131). And the placing of an item so that the next step fetches it (log 16). -/

namespace Sys2Proof.Machine

/-- What the fetch finds: an item to run on a state, a transition that is no item (a register access, a fault of reading
the item, a state with nothing to do), or a stop. -/
inductive Fetched where
  | item (i : Instr) (s : State)
  | done (s : State)
  | fault (r : Fault)
  | refused (r : Refusal)
  deriving DecidableEq, Repr

/-- Decode a value that was read ahead in an alphabet; the item runs on the state before the reading, a fault of the
reading stays (41 R201, R210, 40 R152, 43 R322). -/
def fetchValue (a : Alphabet) (s : State) : Res Nat → Fetched
  | .raised s' => .done s'
  | .ok v _ =>
    match decode a v with
    | .ok i => .item i s
    | .error _ => .fault (.symbolOutsideAlphabet a v)

/-- The alphabet of the next INFLATE item and the reading of its value (30 R131, 42 R240). -/
def fetchInflate (s : State) : Fetched :=
  match s.ist with
  | .zhdr => fetchValue .zlib s (readZlibHeader s)
  | .bhdr => fetchValue .bhdr s (readBlockHeader s)
  | .clseq => fetchValue .cl s (huffDecode s.clTab s)
  | .codes =>
    match s.pendLen with
    | none => fetchValue .ll s (huffDecode s.litTab s)
    | some _ => fetchValue .dist s (huffDecode s.distTab s)
  | .idone =>
    match enterUnfilter s with
    | .ok _ s' => .done s'
    | .raised s' => .done s'

/-- The TYPE of the chunk at S.pos (40 R152). -/
def readChunkType (s : State) : Res Nat :=
  (chunkHead s).bind fun (_, type) s => .ok type.toNat s

/-- The tag of scanline S.row (43 R322). -/
def readTag (s : State) : Res Nat :=
  (fetchRow s).bind fun (tag, _) s => .ok tag.toNat s

/-- The engine's turn: the next item of the phase (30 R131); in IDLE and the terminal phases nothing happens. EXTRACT
starts with PLEN, after which S.px is never 0 between operations (log 9, DEDUCED). -/
def engineTurn (s : State) : Fetched :=
  match s.phase with
  | .parse => if s.pos = 0 then .item .sig s else fetchValue .chunk s (readChunkType s)
  | .inflate => fetchInflate s
  | .unfilter =>
    if s.row < s.height.toNat then fetchValue .filter s (readTag s) else .done (endUnfilter s)
  | .extract => if s.px = 0 then .item .plen s else .item .pixel s
  | .idle | .done | .doneHeader | .error => .done s

/-- The alphabet of the commands a REG offset takes, none for the other registers (30 R134). -/
def commandAlphabet (offset : Nat) : Option Alphabet :=
  if offset = 0x00 then some .ctrl else if offset = 0x3C then some .pixCmd else none

/-- A register write of the host: a command row (10 R46, R53), or a plain write. -/
def fetchRegisterWrite (offset width : Nat) (value : Word) (s : State) : Fetched :=
  if registerAccessOk offset width = false then .refused .registerAccess
  else
    match commandAlphabet offset with
    | none => .done (s.writeRegister offset value)
    | some a =>
      match decode a value.toNat with
      | .ok i => .item i s
      | .error _ => .done (s.writeRegister offset value)

/-- One host event; the state is the one in which the event has been taken off the schedule. -/
def hostTurn (e : HostEvent) (s : State) : Fetched :=
  match e with
  | .pass => engineTurn s
  | .writeReg offset width value => fetchRegisterWrite offset width value s
  | .readReg offset width =>
    if registerAccessOk offset width then .done { s with busData := s.readRegister offset }
    else .refused .registerAccess
  | .writeWindow w address value =>
    match s.writeWindow w address value with
    | .ok s' => .done s'
    | .error r => .refused r
  | .readWindow w address =>
    match s.readWindow w address with
    | some b => .done { s with busData := b.setWidth 32 }
    | none => .refused .windowAddress
  | .powerOn => .done s.powerOnReset

/-- The fetch of a step. -/
def fetch (s : State) : Fetched :=
  match s.host with
  | [] => engineTurn s
  | e :: rest => hostTurn e { s with host := rest }

/-! ### Placing an item (log 16) -/

/-- The table in which one symbol has a code, the single bit 0 (what HuffBuild makes of one length 1, 41 R209). -/
def singleCodeTable (symbol : Nat) : HuffTable := ⟨1, [some ⟨1, symbol⟩, none]⟩

/-- Bytes as cells of IN from an address. -/
def cellsAt : Nat → List Byte → Memory
  | _, [] => []
  | a, b :: rest => (a, b) :: cellsAt (a + 1) rest

/-- The bytes of a value, `n` of them, first byte most significant. -/
def beBytes : Nat → Nat → List Byte
  | 0, _ => []
  | n + 1, v => BitVec.ofNat 8 (v / 256 ^ n) :: beBytes n v

/-- The state in which the next step fetches a value of an alphabet: the phase and sub-state that read it, the value in
its space, every operand that follows it zero. -/
def placeValue (a : Alphabet) (v : Nat) (s : State) : State :=
  let s := { s with host := [] }
  let zeros : List Byte := List.replicate 10 0
  match a with
  | .ctrl => { s with host := [.writeReg 0x00 4 (BitVec.ofNat 32 v)] }
  | .pixCmd => { s with host := [.writeReg 0x3C 4 (BitVec.ofNat 32 v)] }
  | .sig => { s with phase := .parse, pos := 0, input := cellsAt 0 (beBytes 8 v), inLen := 8 }
  | .chunk =>
    { s with
      phase := .parse, pos := 8, inLen := 20, hdrValid := decide (v ≠ chunkTypeIhdr.toNat)
      input := cellsAt 8 (beBytes 4 0 ++ beBytes 4 v ++ beBytes 4 0) }
  | .zlib => { s with phase := .inflate, ist := .zhdr, bitPos := 0, z := beBytes 2 v ++ zeros }
  | .bhdr => { s with phase := .inflate, ist := .bhdr, bitPos := 0, z := BitVec.ofNat 8 v :: zeros }
  | .cl =>
    { s with
      phase := .inflate, ist := .clseq, bitPos := 0, z := zeros, clTab := some (singleCodeTable v)
      hlit := 257, hdist := 1 }
  | .ll =>
    { s with
      phase := .inflate, ist := .codes, bitPos := 0, z := zeros, pendLen := none
      litTab := some (singleCodeTable v), distTab := some (singleCodeTable 0) }
  | .dist =>
    { s with
      phase := .inflate, ist := .codes, bitPos := 0, z := zeros, pendLen := some 3
      distTab := some (singleCodeTable v) }
  | .filter =>
    { s with phase := .unfilter, row := 0, height := 1, cpr := 0, out := [BitVec.ofNat 8 v] }
  | .seq => { s with phase := .extract, px := v }

/-- The state in which the next step fetches the item a bare word of the opcode table stands for. -/
def placeTableWord (nbits w : Nat) (s : State) : State := placeValue (tableAlphabet nbits w) w s

end Sys2Proof.Machine
end

