-- ==== Sys2Proof/Machine/Step.lean ====
section
/-! DEFINITION. One step: the fetch, then the meaning of the item fetched; and the placing of a bare opcode-table word. -/

namespace Sys2Proof.Machine

/-- One operation of the engine or one access of the host (92 D1). -/
def step (s : State) : Host.Outcome State Fault Refusal :=
  match fetch s with
  | .item i s' => exec i s'
  | .done s' => .next s'
  | .fault r => .fault r
  | .refused r => .refused r

/-- The state in which the next step fetches and runs the instruction a bare opcode-table word stands for (log 16). -/
def State.withFetchWord (s : State) (nbits w : Nat) : State := Sys2Proof.Machine.placeTableWord nbits w s

end Sys2Proof.Machine
end

