-- ==== Sys2Proof/WellFormed.lean ====
section
/-! DEFINITION. When an item is well formed: its operand is one the opcode table gives its row (30 R113, R116, R126). -/

namespace Sys2Proof

/-- An item whose operand its row admits: SKIP holds no recognised type, ZHDR passes the header checks, ZHDR_BAD fails
one, FILT_INVALID holds a tag of 5 or more. The operands of the other rows admit every value of their type. -/
def Instr.wf : Instr → Bool
  | .skip t => t != chunkTypeIhdr && t != chunkTypePlte && t != chunkTypeIdat && t != chunkTypeIend
  | .zhdr h => zlibHeaderOk h
  | .zhdrBad h => !zlibHeaderOk h
  | .filtInvalid tag => 5 ≤ tag.toNat
  | .start _ | .pixelRead | .sig | .ihdr | .plte | .idat | .iend => true
  | .blkStored _ | .blkFixed _ | .blkDynamic _ | .blkInvalid _ => true
  | .clen _ | .repprev | .repzero | .repzerol => true
  | .lit _ | .eob | .llInvalid _ => true
  | .len257 | .len258 | .len259 | .len260 | .len261 | .len262 | .len263 | .len264 | .len265 | .len266 => true
  | .len267 | .len268 | .len269 | .len270 | .len271 | .len272 | .len273 | .len274 | .len275 | .len276 => true
  | .len277 | .len278 | .len279 | .len280 | .len281 | .len282 | .len283 | .len284 | .len285 => true
  | .dist0 | .dist1 | .dist2 | .dist3 | .dist4 | .dist5 | .dist6 | .dist7 | .dist8 | .dist9 => true
  | .dist10 | .dist11 | .dist12 | .dist13 | .dist14 | .dist15 | .dist16 | .dist17 | .dist18 | .dist19 => true
  | .dist20 | .dist21 | .dist22 | .dist23 | .dist24 | .dist25 | .dist26 | .dist27 | .dist28 | .dist29 => true
  | .distInvalid _ => true
  | .filtNone | .filtSub | .filtUp | .filtAvg | .filtPaeth => true
  | .plen | .pixel => true

end Sys2Proof
end

