-- ==== Sys2Proof/Safety.lean ====
section
/-! DEFINITION. What counts as a safe state, in the terms claims use: the invariant every step keeps, written from the
rules that bound each piece of state; and the relations the statements share, written from the rules and not from the
meanings. -/

namespace Sys2Proof

open Sys2Proof.Machine

/-! ### The invariant -/

/-- The bit cursor never passes the end of Z (10 R33), and the byte cursor never passes IN_LEN in PARSE (20 R81). -/
structure CursorInv (s : State) : Prop where
  bitPos_le : s.bitPos ≤ 8 * s.z.length
  pos_le : s.phase = .parse → s.pos ≤ s.inLen.toNat

/-- A fault is latched exactly in ERROR (10 R45, 60 R403). -/
structure LatchInv (s : State) : Prop where
  latched : s.phase = .error ↔ s.err.isSome = true

/-- The payload is valid exactly in DONE, has S.plen bytes there and at most that many before, is under the ceiling, and
is empty outside EXTRACT and DONE, after a fault too (44 R368 to R373, 60 R403). -/
structure PayloadInv (s : State) : Prop where
  valid_iff : s.payloadValid = true ↔ s.phase = .done
  done_length : s.phase = .done → s.payload.length = s.plen.toNat
  empty : s.phase ≠ .extract → s.phase ≠ .done → s.payload = []
  ceiling : s.plen.toNat ≤ Config.payloadCeiling
  before_plen : s.phase = .extract → s.px = 0 → s.payload = []
  after_plen : s.phase = .extract → s.px ≠ 0 → s.payload.length < s.plen.toNat
  px_zero : s.phase ≠ .extract → s.phase ≠ .done → s.phase ≠ .error → s.px = 0

/-- bpp and cpr are those of 43 R321. -/
def GeometryOk (s : State) : Prop :=
  s.bpp = bytesPerPixel s.colorType s.bitDepth ∧ s.cpr = s.bpp * s.width.toNat

/-- PIX is empty before UNFILTER, holds the rows done so far in it, and the whole image once pixValid is set, which it is
from EXTRACT on (20 R84, 43 R322, R331, 60 R404). -/
structure PixelsInv (s : State) : Prop where
  empty : s.phase = .idle ∨ s.phase = .parse ∨ s.phase = .inflate ∨ s.phase = .doneHeader →
    s.pix = [] ∧ s.pixValid = false
  rows : s.phase = .unfilter →
    s.pixValid = false ∧ s.row < s.height.toNat ∧ s.pix.length = s.row * s.cpr ∧ GeometryOk s
  valid : s.phase = .extract ∨ s.phase = .done → s.pixValid = true
  whole : s.pixValid = true → s.pix.length = s.height.toNat * s.cpr ∧ GeometryOk s

/-- The shape HuffBuild gives a table over an alphabet of n symbols (41 R205, R208). -/
structure TableOk (n : Nat) (t : HuffTable) : Prop where
  maxLen_le : t.maxLen ≤ 15
  size : t.entries.length = 2 ^ t.maxLen
  entry : ∀ c, some c ∈ t.entries → 1 ≤ c.length ∧ c.length ≤ t.maxLen ∧ c.symbol < n

/-- The tables are over their alphabets and present when the sub-state decodes with them; the dynamic header's registers
keep their ranges (10 R40 to R42). -/
structure TablesInv (s : State) : Prop where
  cl : ∀ t, s.clTab = some t → TableOk 19 t
  lit : ∀ t, s.litTab = some t → TableOk 288 t
  dist : ∀ t, s.distTab = some t → TableOk 32 t
  clseq : s.phase = .inflate → s.ist = .clseq → s.clTab.isSome = true ∧ s.lens.length < s.hlit + s.hdist
  codes : s.phase = .inflate → s.ist = .codes → s.litTab.isSome = true ∧ s.distTab.isSome = true
  not_idone : s.phase = .inflate → s.ist ≠ .idone
  hlit_le : s.hlit ≤ 288
  hdist_le : s.hdist ≤ 32
  clLen_size : s.clLen.length = 19
  no_pending : s.pendLen = none

/-- Once the header is valid its fields are legal; it is valid from INFLATE on and in DONE_HEADER; a palette belongs to a
colour-type-3 image and has at most 2^bitDepth entries (10 R36, R38, R39). -/
structure DescriptorInv (s : State) : Prop where
  methods : s.compression = 0 ∧ s.filter = 0 ∧ (s.interlace = 0 ∨ s.interlace = 1)
  depth : s.hdrValid = true → bitDepthLegal s.bitDepth = true ∧ depthAllowed s.colorType s.bitDepth = true
  valid : s.phase = .inflate ∨ s.phase = .unfilter ∨ s.phase = .extract ∨ s.phase = .done ∨ s.phase = .doneHeader →
    s.hdrValid = true
  palette : ∀ p, s.pal = some p →
    s.hdrValid = true ∧ s.colorType = .palette ∧ p.length ≤ 2 ^ s.bitDepth.toNat

/-- IN keeps its canonical form and OUT its capacity; in a busy phase IN_LEN is within IN_CAP (20 R80, R83, 40 R150). -/
structure SpacesInv (s : State) : Prop where
  input_wf : Memory.wf s.input = true
  out_le : exceedsCap s.out.length s.outCap = false
  in_le : s.phase.busy = true → exceedsCap s.inLen.toNat s.inCap = false

/-- The invariant of the machine. -/
structure Inv (s : State) : Prop where
  cursor : CursorInv s
  latch : LatchInv s
  payload : PayloadInv s
  pixels : PixelsInv s
  tables : TablesInv s
  descriptor : DescriptorInv s
  spaces : SpacesInv s

/-- A run that has ended with a result: the premise of a claim about a payload (60 R415). -/
def Succeeded (s : State) : Prop := s.phase = .done ∧ s.err = none

/-! ### Relations the statements share -/

/-- A state with a fault just latched: the payload emptied and invalid, phase ERROR, nothing else changed (60 R403). -/
def faulted (s : State) (detail : FaultDetail) (info0 info1 : Nat) : State :=
  { s with err := some ⟨detail, info0, info1⟩, payloadValid := false, payload := [], phase := .error }

/-- GetBits(n) at bit p finds fewer than n bits: the fault with both, the cursor at p (41 R201). -/
def cutAt (s : State) (p n : Nat) : State := faulted { s with bitPos := p } .truncatedDeflateStream p n

/-- Engine items: every row but the two host commands. -/
def Instr.isEngine : Instr → Bool
  | .start _ | .pixelRead => false
  | _ => true

/-- A whole chunk stands at S.pos: its LENGTH, TYPE and DATA, all of it with the CRC within IN_LEN (40 R152). -/
structure ChunkAt (s : State) (length : Nat) (type : BitVec 32) (data : List Byte) : Prop where
  whole : s.pos + 12 + length ≤ s.inLen.toNat
  length_eq : be (s.inBytes s.pos 4) = length
  type_eq : be (s.inBytes (s.pos + 4) 4) = type.toNat
  data_eq : s.inBytes (s.pos + 8) length = data

/-- The next bits select a code of the table, of the given length and symbol, and it fits in Z (41 R210). -/
structure CodeAt (s : State) (table : Option HuffTable) (length symbol : Nat) : Prop where
  selected : s.peekEntry table = some ⟨length, symbol⟩
  fits : s.bitPos + length ≤ 8 * s.z.length

/-- n more bytes of OUT stay within OUT_CAP (20 R83). -/
def RoomFor (s : State) (n : Nat) : Prop := exceedsCap (s.out.length + n) s.outCap = false

/-- The state UNFILTER is entered with when no interlace fault is raised: phase, first row, geometry (43 R320, R321). -/
def unfilterEntered (s : State) : State :=
  { s with
    phase := .unfilter
    row := 0
    bpp := bytesPerPixel s.colorType s.bitDepth
    cpr := bytesPerPixel s.colorType s.bitDepth * s.width.toNat }

/-- What the end of a block leaves: the next block header after a block that is not final; after the final one the
entry to UNFILTER, with the interlace fault or, at height 0, its end at once (42 R240, R258, 43 R320, R321, R331). -/
def BlockEnded (s t : State) : Prop :=
  if s.bfinal = false then t = { s with ist := .bhdr }
  else if s.interlace = 1 then
    t = faulted { s with ist := .idone, row := 0 } .unsupportedInterlace 0 1
  else if s.height = 0 then
    t = { unfilterEntered s with ist := .idone, pixValid := true, phase := .extract }
  else t = { unfilterEntered s with ist := .idone }

/-- What appending code lengths leaves: the longer sequence, and when it is full the two tables, checked in order
(42 R246, R250, 41 R206). -/
def LengthsAppended (s : State) (lengths : List (BitVec 4)) (t : State) : Prop :=
  let lens := s.lens ++ lengths
  let lit := (lens.take s.hlit).map BitVec.toNat
  let dist := ((lens.drop s.hlit).take s.hdist).map BitVec.toNat
  if lens.length ≠ s.hlit + s.hdist then t = { s with lens := lens }
  else if overSubscribed lit = true then
    t = faulted { s with lens := lens } .invalidCodeLengths s.bitPos 1
  else if overSubscribed dist = true then
    t = faulted { s with lens := lens, litTab := some (huffTable lit) } .invalidCodeLengths s.bitPos 2
  else
    t = { s with
          lens := lens, litTab := some (huffTable lit), distTab := some (huffTable dist), ist := .codes }

/-- OUT after a back-reference: length more bytes, each equal to the one `distance` before it (42 R255). -/
structure Copied (out out' : List Byte) (length distance : Nat) : Prop where
  size : out'.length = out.length + length
  kept : out'.take out.length = out
  repeated : ∀ k, k < length → out'[out.length + k]? = out'[out.length + k - distance]?

/-- The predictor of a filter item: what is added to the filtered byte (43 R324 to R328). -/
def Instr.predictor : Instr → Option (Byte → Byte → Byte → Byte)
  | .filtNone => some fun _ _ _ => 0
  | .filtSub => some fun a _ _ => a
  | .filtUp => some fun _ b _ => b
  | .filtAvg => some fun a b _ => BitVec.ofNat 8 ((a.toNat + b.toNat) / 2)
  | .filtPaeth => some predPaeth
  | _ => none

/-- Scanline S.row is whole in OUT: its tag and its cpr bytes (43 R322). -/
def RowWhole (s : State) : Prop := s.row * (s.cpr + 1) + s.cpr + 1 ≤ s.out.length

/-- The filtered bytes of scanline S.row (30 R125). -/
def filteredRow (s : State) : List Byte := (s.out.drop (s.row * (s.cpr + 1) + 1)).take s.cpr

/-- The reconstructed bytes of the row above, none on row 0 (43 R323). -/
def rowAbove (s : State) : List Byte :=
  if s.row = 0 then [] else (s.pix.drop ((s.row - 1) * s.cpr)).take s.cpr

/-- A reconstructed row: every byte is the filtered byte plus the predictor of its three reconstructed neighbours, each 0
where it does not exist (43 R323, R330). -/
structure RowRecon (pred : Byte → Byte → Byte → Byte) (bpp : Nat) (prev filtered row : List Byte) : Prop where
  size : row.length = filtered.length
  byte : ∀ i, i < filtered.length →
    byteAt row i = byteAt filtered i +
      pred (if bpp ≤ i then byteAt row (i - bpp) else 0) (byteAt prev i)
        (if bpp ≤ i then byteAt prev (i - bpp) else 0)

/-- What a finished row leaves: PIX one row longer, the next row, and after the last row the end of UNFILTER
(43 R322, R331). -/
def RowAppended (s : State) (row : List Byte) (t : State) : Prop :=
  if s.row + 1 < s.height.toNat then t = { s with pix := s.pix ++ row, row := s.row + 1 }
  else t = { s with pix := s.pix ++ row, row := s.row + 1, pixValid := true, phase := .extract }

end Sys2Proof
end

