-- ==== Sys2Proof/Certificates/Slice0/Obligations.lean ====
section
/-! DEFINITION. The statements for the provers, one `def Obligations.<Name> : Prop` each, from the spec's numbered rules.
OBLIGATIONS.json gives each its rules. The relations they share (ChunkAt, CodeAt, BlockEnded, ...) are in Safety.lean. -/

open Sys2Proof Sys2Proof.Machine

/-! ### Encoding -/

/-- Decoding the value of a well-formed item in its alphabet gives the item back (30 R134). -/
def Obligations.DecodeEncodeRoundTrip : Prop :=
  ∀ (i : Instr) (v : Nat), i.wf = true → encode i = some v → decode i.alphabet v = .ok i

/-- Whatever the decoder accepts is a well-formed item of that alphabet, and, but for the two command words, whose upper
bits are ignored, its encoding is the value read: no two values give one item (30 R128, R134). -/
def Obligations.DecodedItemsReencode : Prop :=
  ∀ (a : Alphabet) (v : Nat) (i : Instr), decode a v = .ok i →
    i.wf = true ∧ i.alphabet = a ∧ (a ≠ .ctrl → a ≠ .pixCmd → encode i = some v)

/-- Words written out from the spec's encodings, one or more of each family (30 R111 to R126). -/
def Obligations.SampleWordsDecode : Prop :=
  decode .ctrl 0b11 = .ok (.start true) ∧ decode .pixCmd 0b1 = .ok .pixelRead ∧
  decode .sig 0x89504E470D0A1A0A = .ok .sig ∧ decode .chunk 0x504C5445 = .ok .plte ∧
  decode .zlib 0x7801 = .ok (.zhdr 0x7801#16) ∧ decode .bhdr 0b101 = .ok (.blkDynamic true) ∧
  decode .cl 17 = .ok .repzero ∧ decode .ll 265 = .ok .len265 ∧ decode .dist 29 = .ok .dist29 ∧
  decode .filter 4 = .ok .filtPaeth

/-! ### The step and reset -/

/-- When the value at the cursor of the decoding context decodes to an item, the engine's step is exec of that item on the
same state, nothing around it; a host write of a command word runs the command on the state less that write (30 R131).
The model's choices in it: the schedule State.host (log 1), the distance context entered by a pending length (log 8), and
S.px telling PLEN from PIXEL (log 9). -/
def Obligations.StepRunsDecodedItem : Prop :=
  (∀ (s s' : State) (v : Nat) (i : Instr), s.host = [] → s.phase = .parse → s.pos ≠ 0 →
    readChunkType s = .ok v s' → decode .chunk v = .ok i → step s = exec i s) ∧
  (∀ (s s' : State) (v : Nat) (i : Instr), s.host = [] → s.phase = .inflate → s.ist = .zhdr →
    readZlibHeader s = .ok v s' → decode .zlib v = .ok i → step s = exec i s) ∧
  (∀ (s s' : State) (v : Nat) (i : Instr), s.host = [] → s.phase = .inflate → s.ist = .bhdr →
    readBlockHeader s = .ok v s' → decode .bhdr v = .ok i → step s = exec i s) ∧
  (∀ (s s' : State) (v : Nat) (i : Instr), s.host = [] → s.phase = .inflate → s.ist = .clseq →
    huffDecode s.clTab s = .ok v s' → decode .cl v = .ok i → step s = exec i s) ∧
  (∀ (s s' : State) (v : Nat) (i : Instr), s.host = [] → s.phase = .inflate → s.ist = .codes → s.pendLen = none →
    huffDecode s.litTab s = .ok v s' → decode .ll v = .ok i → step s = exec i s) ∧
  (∀ (s s' : State) (v n : Nat) (i : Instr), s.host = [] → s.phase = .inflate → s.ist = .codes → s.pendLen = some n →
    huffDecode s.distTab s = .ok v s' → decode .dist v = .ok i → step s = exec i s) ∧
  (∀ (s s' : State) (v : Nat) (i : Instr), s.host = [] → s.phase = .unfilter → s.row < s.height.toNat →
    readTag s = .ok v s' → decode .filter v = .ok i → step s = exec i s) ∧
  (∀ s : State, s.host = [] → s.phase = .parse → s.pos = 0 → step s = exec .sig s) ∧
  (∀ s : State, s.host = [] → s.phase = .extract → s.px = 0 → step s = exec .plen s) ∧
  (∀ s : State, s.host = [] → s.phase = .extract → s.px ≠ 0 → step s = exec .pixel s) ∧
  (∀ (s : State) (w : Word) (rest : List HostEvent) (i : Instr), s.host = .writeReg 0x00 4 w :: rest →
    decode .ctrl w.toNat = .ok i → step s = exec i { s with host := rest }) ∧
  (∀ (s : State) (w : Word) (rest : List HostEvent) (i : Instr), s.host = .writeReg 0x3C 4 w :: rest →
    decode .pixCmd w.toNat = .ok i → step s = exec i { s with host := rest })

/-- After power-on reset: IDLE, no fault, every flag 0, every register 0, every space empty (10 R57, 70 R450). A power-on
reset in any phase leaves that state, the contents of IN unspecified again; what it keeps, the open parameters and the
host's schedule, is the model's choice (log 1, 3, 21); that FORMAT2, whose colors field the formula of 10 R37 makes 1 for
colour type 0, reads 0 before the header is valid is deduced from its reset value (log 11). -/
def Obligations.ResetLeavesIdleAndZero : Prop :=
  State.reset.phase = .idle ∧ State.reset.err = none ∧ State.reset.ist = .zhdr ∧
  (State.reset.hdrValid = false ∧ State.reset.plteSeen = false ∧ State.reset.pixValid = false ∧
    State.reset.payloadValid = false ∧ State.reset.bfinal = false ∧ State.reset.headerOnly = false) ∧
  (State.reset.pos = 0 ∧ State.reset.bitPos = 0 ∧ State.reset.inLen = 0 ∧ State.reset.btype = 0 ∧ State.reset.hlit = 0 ∧
    State.reset.hdist = 0 ∧ State.reset.hclen = 0 ∧ State.reset.row = 0 ∧ State.reset.bpp = 0 ∧
    State.reset.cpr = 0 ∧ State.reset.px = 0 ∧ State.reset.py = 0 ∧ State.reset.plen = 0) ∧
  (State.reset.pal = none ∧ State.reset.litTab = none ∧ State.reset.distTab = none ∧ State.reset.clTab = none ∧
    State.reset.lens = [] ∧ State.reset.clLen = List.replicate 19 0) ∧
  (State.reset.z = [] ∧ State.reset.out = [] ∧ State.reset.pix = [] ∧ State.reset.payload = []) ∧
  (∀ offset, State.reset.readRegister offset = 0) ∧
  ∀ (s : State) (rest : List HostEvent), s.host = .powerOn :: rest →
    step s = .next { State.reset with
      host := rest, boots := s.boots + 1, inCap := s.inCap, outCap := s.outCap, sampleFnPresent := s.sampleFnPresent }

/-- In IDLE and in a terminal phase the engine does nothing until the host acts (70 R450, 60 R407, R408). -/
def Obligations.EngineWaitsForStart : Prop :=
  ∀ s : State, s.host = [] → s.phase.busy = false → step s = .next s

/-! ### Host commands -/

/-- START: nothing in a busy phase; otherwise every field marked `reset by START` at its reset value, the host-written IN,
IN_LEN and HEADER_ONLY kept (the latter as written with START), and phase PARSE, or at once the capacity fault with both
numbers (40 R150, 10 R57, 70 R451). -/
def Obligations.StartBeginsRun : Prop :=
  ∀ (h : Bool) (s : State),
    (s.phase.busy = true → exec (.start h) s = .next s) ∧
    (s.phase.busy = false →
      let fresh := { State.reset with
        headerOnly := h, inLen := s.inLen, input := s.input
        host := s.host, busData := s.busData, boots := s.boots
        inCap := s.inCap, outCap := s.outCap, sampleFnPresent := s.sampleFnPresent }
      (exceedsCap s.inLen.toNat s.inCap = false → exec (.start h) s = .next { fresh with phase := .parse }) ∧
      (∀ cap, s.inCap = some cap → cap < s.inLen.toNat →
        exec (.start h) s = .next (faulted fresh .inBuffer s.inLen.toNat cap)))

/-- PIXEL_READ: nothing in a busy phase; otherwise the pixel big-endian in PIX_DATA and status 0, or the class code of the
fault in PIX_STATUS and PIX_DATA unchanged; nothing else changes, the latch and the phase included (44 R374). -/
def Obligations.PixelReadReports : Prop :=
  ∀ s : State,
    (s.phase.busy = true → exec .pixelRead s = .next s) ∧
    (∀ c : Channels, s.phase.busy = false → s.getPixel s.pixX.toNat s.pixY.toNat = .ok c →
      exec .pixelRead s = .next { s with
        pixData := BitVec.ofNat 32
          (c.c0.toNat * 2 ^ 24 + c.c1.toNat * 2 ^ 16 + c.c2.toNat * 2 ^ 8 + c.c3.toNat)
        pixStatus := 0 }) ∧
    (∀ f : FaultRecord, s.phase.busy = false → s.getPixel s.pixX.toNat s.pixY.toNat = .error f →
      exec .pixelRead s = .next { s with pixStatus := BitVec.ofNat 8 f.detail.cls.code })

/-! ### Host port -/

/-- A REG access that is not 32 bits wide at a multiple of 4 is refused, read or write; a whole aligned read returns the
register's view, 0 at a reserved offset, and changes nothing else (10 R54, 20 R91, R93, 60 R410). -/
def Obligations.RegisterAccesses : Prop :=
  ∀ (s : State) (offset width : Nat) (w : Word) (rest : List HostEvent),
    (width ≠ 4 ∨ offset % 4 ≠ 0 →
      (s.host = .writeReg offset width w :: rest → step s = .refused .registerAccess) ∧
      (s.host = .readReg offset width :: rest → step s = .refused .registerAccess)) ∧
    (s.host = .readReg offset 4 :: rest → offset % 4 = 0 →
      step s = .next { s with host := rest, busData := s.readRegister offset } ∧
      (0x48 ≤ offset → s.readRegister offset = 0))

/-- The registers the host reads, field by field: CTRL with HEADER_ONLY in bit 1 and all else 0; STATUS with the phase
code, the flags and BUSY exactly in the four busy phases; ERR with class and detail, 0 when no fault is latched; the
information words mod 2^32; the descriptor, palette and length views; the pixel port (10 R46 to R53, 60 R400, R401).
FORMAT2 before the header is valid is left out (log 11). -/
def Obligations.RegisterViews : Prop :=
  ∀ s : State,
    (s.readRegister 0x00).toNat = 2 * s.headerOnly.toNat ∧
    (s.readRegister 0x04).toNat =
      s.phase.code + 16 * s.hdrValid.toNat + 32 * s.pixValid.toNat + 64 * s.payloadValid.toNat
        + 128 * (decide (1 ≤ s.phase.code ∧ s.phase.code ≤ 4)).toNat + 256 * s.plteSeen.toNat ∧
    s.phase.code ≤ 7 ∧
    (s.err = none → s.readRegister 0x08 = 0 ∧ s.readRegister 0x0C = 0 ∧ s.readRegister 0x10 = 0) ∧
    (∀ f, s.err = some f →
      (s.readRegister 0x08).toNat = f.detail.cls.code + 256 * f.detail.code ∧
      (s.readRegister 0x0C).toNat = f.info0 % 2 ^ 32 ∧ (s.readRegister 0x10).toNat = f.info1 % 2 ^ 32) ∧
    s.readRegister 0x14 = s.inLen ∧ s.readRegister 0x18 = s.width ∧ s.readRegister 0x1C = s.height ∧
    s.readRegister 0x20 = s.filter ++ s.compression ++ s.colorType.code ++ s.bitDepth ∧
    (s.hdrValid = true → (s.readRegister 0x24).toNat =
      s.interlace.toNat + 256 * s.colorType.colors + 2048 * s.colorType.hasAlpha.toNat) ∧
    (∀ p, s.pal = some p → p.length ≤ 256 → (s.readRegister 0x28).toNat = p.length + 2 ^ 31) ∧
    (s.pal = none → s.readRegister 0x28 = 0) ∧
    (s.readRegister 0x2C).toNat = s.out.length % 2 ^ 32 ∧ s.readRegister 0x30 = s.plen ∧
    s.readRegister 0x34 = s.pixX ∧ s.readRegister 0x38 = s.pixY ∧ s.readRegister 0x3C = 0 ∧
    s.readRegister 0x40 = s.pixData ∧ (s.readRegister 0x44).toNat = s.pixStatus.toNat

/-- IN_LEN and HEADER_ONLY take a host write outside the busy phases and ignore it in them; PIX_X and PIX_Y take a write
outside the busy phases (in them, log 20); PIX_CMD ignores a write with bit 0 clear, and read-only and reserved registers
ignore every write (10 R46, R50, R53, R54). -/
def Obligations.RegisterWrites : Prop :=
  ∀ (s : State) (w : Word) (rest : List HostEvent),
    (s.host = .writeReg 0x14 4 w :: rest → s.phase.busy = false →
      step s = .next { s with host := rest, inLen := w }) ∧
    (s.host = .writeReg 0x14 4 w :: rest → s.phase.busy = true → step s = .next { s with host := rest }) ∧
    (s.host = .writeReg 0x00 4 w :: rest → w.getLsbD 0 = false → s.phase.busy = false →
      step s = .next { s with host := rest, headerOnly := w.getLsbD 1 }) ∧
    (s.host = .writeReg 0x00 4 w :: rest → w.getLsbD 0 = false → s.phase.busy = true →
      step s = .next { s with host := rest }) ∧
    (s.host = .writeReg 0x34 4 w :: rest → s.phase.busy = false → step s = .next { s with host := rest, pixX := w }) ∧
    (s.host = .writeReg 0x38 4 w :: rest → s.phase.busy = false → step s = .next { s with host := rest, pixY := w }) ∧
    (s.host = .writeReg 0x3C 4 w :: rest → w.getLsbD 0 = false → step s = .next { s with host := rest }) ∧
    (∀ offset, s.host = .writeReg offset 4 w :: rest → offset % 4 = 0 →
      (0x04 ≤ offset ∧ offset ≤ 0x10) ∨ (0x18 ≤ offset ∧ offset ≤ 0x30) ∨ 0x40 ≤ offset →
      step s = .next { s with host := rest })

/-- IN: outside the busy phases a host write is read back at its address and leaves every other byte; in a busy phase it
is refused (20 R80, 70 R454, 60 R410). -/
def Obligations.InputWindowWrites : Prop :=
  ∀ (s : State) (a : Nat) (b : Byte) (rest : List HostEvent), s.host = .writeWindow .input a b :: rest →
    (s.phase.busy = true → step s = .refused .inputWriteWhileBusy) ∧
    (s.phase.busy = false → exceedsCap (a + 1) s.inCap = false →
      ∃ t, step s = .next t ∧ t.inByte a = b ∧ (∀ k, k ≠ a → t.inByte k = s.inByte k) ∧
        t = { s with host := rest, input := t.input })

/-- Outside the busy phases a host read of a byte window returns the byte of its space at an address inside its length
(S.inLen for IN, within IN_CAP) and changes nothing else; past the length there is no byte and it is refused, so IN_LEN = 0
makes IN unreadable (20 R80, R93, 70 R450, R453). That such a read is refused is log 13. -/
def Obligations.WindowReadsReturnBytes : Prop :=
  ∀ (s : State) (w : Window) (a : Nat) (rest : List HostEvent), s.phase.busy = false →
    s.host = .readWindow w a :: rest →
    let returned := fun b : Byte => Host.Outcome.next { s with host := rest, busData := b.setWidth 32 }
    let length := match w with
      | .input => s.inLen.toNat
      | .output => s.out.length
      | .pixels => s.pix.length
      | .payload => s.payload.length
    (a < length → w = .input → exceedsCap (a + 1) s.inCap = false → step s = returned (s.inByte a)) ∧
    (a < length → w = .output → step s = returned (byteAt s.out a)) ∧
    (a < length → w = .pixels → step s = returned (byteAt s.pix a)) ∧
    (a < length → w = .payload → step s = returned (byteAt s.payload a)) ∧
    (length ≤ a → step s = .refused .windowAddress) ∧
    (w = .input → exceedsCap (a + 1) s.inCap = true → step s = .refused .windowAddress)

/-! ### PARSE -/

/-- SIG: 8 matching bytes move the cursor past them; too few, or others, fault, too few first (40 R151). -/
def Obligations.SignatureChecked : Prop :=
  ∀ s : State,
    (8 ≤ s.inLen.toNat → s.inBytes 0 8 = [0x89, 0x50, 0x4E, 0x47, 0x0D, 0x0A, 0x1A, 0x0A] →
      exec .sig s = .next { s with pos := 8 }) ∧
    (s.inLen.toNat < 8 → exec .sig s = .next (faulted s .truncatedInput 0 0)) ∧
    (8 ≤ s.inLen.toNat → s.inBytes 0 8 ≠ [0x89, 0x50, 0x4E, 0x47, 0x0D, 0x0A, 0x1A, 0x0A] →
      exec .sig s = .next (faulted s .badSignature 0 0))

/-- IHDR with legal fields: the seven descriptor fields, hdrValid, the cursor; in header-only mode the run ends here
(40 R154 to R162, 30 R114). -/
def Obligations.IhdrAcceptsHeader : Prop :=
  ∀ (s : State) (data : List Byte) (ct : ColorType), ChunkAt s 13 chunkTypeIhdr data → s.hdrValid = false →
    bitDepthLegal (byteAt data 8) = true → colorTypeOf (byteAt data 9) = some ct →
    depthAllowed ct (byteAt data 8) = true → byteAt data 10 = 0 → byteAt data 11 = 0 →
    byteAt data 12 = 0 ∨ byteAt data 12 = 1 →
    exec .ihdr s = .next { s with
      pos := s.pos + 25
      width := BitVec.ofNat 32 (be [byteAt data 0, byteAt data 1, byteAt data 2, byteAt data 3])
      height := BitVec.ofNat 32 (be [byteAt data 4, byteAt data 5, byteAt data 6, byteAt data 7])
      bitDepth := byteAt data 8, colorType := ct, compression := 0, filter := 0, interlace := byteAt data 12
      hdrValid := true, phase := if s.headerOnly then .doneHeader else s.phase }

/-- IHDR refused: a second one, a LENGTH other than 13, then the first field outside its domain, each with the chunk start
and its index, hdrValid staying 0 in the last two cases (40 R154, R157 to R161). -/
def Obligations.IhdrRejectsFields : Prop :=
  ∀ (s : State) (n : Nat) (data : List Byte), ChunkAt s n chunkTypeIhdr data →
    let legal := bitDepthLegal (byteAt data 8) = true
    let combined := ∃ ct, colorTypeOf (byteAt data 9) = some ct ∧ depthAllowed ct (byteAt data 8) = true
    let faultsAt := fun k : Nat => ∃ t, exec .ihdr s = .next t ∧ t.phase = .error ∧
      t.err = some ⟨.invalidField, s.pos, k⟩ ∧ t.hdrValid = false ∧ t.pos = s.pos + 12 + n
    (s.hdrValid = true → exec .ihdr s = .next (faulted { s with pos := s.pos + 12 + n } .chunkOrder s.pos 0)) ∧
    (s.hdrValid = false → n ≠ 13 →
      exec .ihdr s = .next (faulted { s with pos := s.pos + 12 + n } .invalidField s.pos 7)) ∧
    (s.hdrValid = false → n = 13 → ¬ legal → faultsAt 2) ∧
    (s.hdrValid = false → n = 13 → legal → ¬ combined → faultsAt 3) ∧
    (s.hdrValid = false → n = 13 → combined → byteAt data 10 ≠ 0 → faultsAt 4) ∧
    (s.hdrValid = false → n = 13 → combined → byteAt data 10 = 0 → byteAt data 11 ≠ 0 → faultsAt 5) ∧
    (s.hdrValid = false → n = 13 → combined → byteAt data 10 = 0 → byteAt data 11 = 0 →
      byteAt data 12 ≠ 0 → byteAt data 12 ≠ 1 → faultsAt 6)

/-- PLTE: entry k is bytes 3k, 3k+1, 3k+2; a second palette, another colour type, a length that is no multiple of 3, one
over 2^bitDepth entries fault in that order (40 R163, 30 R115). -/
def Obligations.PlteAcceptsPalette : Prop :=
  ∀ (s : State) (n : Nat) (data : List Byte), ChunkAt s n chunkTypePlte data → s.hdrValid = true →
    let moved := { s with pos := s.pos + 12 + n }
    (s.pal ≠ none → exec .plte s = .next (faulted moved .chunkOrder s.pos 0)) ∧
    (s.pal = none → s.colorType ≠ .palette → exec .plte s = .next (faulted moved .invalidPalette s.pos 0)) ∧
    (s.pal = none → s.colorType = .palette → n % 3 ≠ 0 →
      exec .plte s = .next (faulted moved .invalidPalette s.pos 1)) ∧
    (s.pal = none → s.colorType = .palette → n % 3 = 0 → n > 2 ^ s.bitDepth.toNat * 3 →
      exec .plte s = .next (faulted moved .invalidPalette s.pos 2)) ∧
    (s.pal = none → s.colorType = .palette → n % 3 = 0 → n ≤ 2 ^ s.bitDepth.toNat * 3 →
      ∃ p, exec .plte s = .next { moved with pal := some p } ∧ p.length = n / 3 ∧
        ∀ k, k < n / 3 → p[k]? = some ⟨byteAt data (3 * k), byteAt data (3 * k + 1), byteAt data (3 * k + 2)⟩)

/-- IDAT appends its data to Z and moves the cursor, nothing else (40 R164, 20 R82). -/
def Obligations.IdatAppendsData : Prop :=
  ∀ (s : State) (n : Nat) (data : List Byte), ChunkAt s n chunkTypeIdat data → s.hdrValid = true →
    exec .idat s = .next { s with pos := s.pos + 12 + n, z := s.z ++ data }

/-- IEND starts INFLATE at bit 0, or faults when a colour-type-3 image has no palette (40 R165). -/
def Obligations.IendEndsParse : Prop :=
  ∀ (s : State) (n : Nat) (data : List Byte), ChunkAt s n chunkTypeIend data → s.hdrValid = true →
    let moved := { s with pos := s.pos + 12 + n }
    (s.colorType ≠ .palette ∨ s.pal ≠ none →
      exec .iend s = .next { moved with phase := .inflate, ist := .zhdr, bitPos := 0 }) ∧
    (s.colorType = .palette → s.pal = none → exec .iend s = .next (faulted moved .invalidPalette s.pos 3))

/-- A chunk of any other type only moves the cursor (40 R166). -/
def Obligations.SkipMovesCursorOnly : Prop :=
  ∀ (s : State) (n : Nat) (type : BitVec 32) (data : List Byte), (Instr.skip type).wf = true →
    ChunkAt s n type data → s.hdrValid = true → exec (.skip type) s = .next { s with pos := s.pos + 12 + n }

/-- Before IHDR every other chunk faults ChunkOrder, once its whole frame has been read (40 R153). -/
def Obligations.ChunkBeforeIhdrFaults : Prop :=
  ∀ (s : State) (n : Nat) (type : BitVec 32) (data : List Byte) (i : Instr), ChunkAt s n type data →
    s.hdrValid = false → type ≠ chunkTypeIhdr → decode .chunk type.toNat = .ok i →
    exec i s = .next (faulted { s with pos := s.pos + 12 + n } .chunkOrder s.pos 0)

/-- A chunk whose head, data or CRC is not whole faults TruncatedInput with the offset of the read that failed, whatever
its contents; the sums do not wrap (40 R152, 60 R405). -/
def Obligations.TruncatedChunkFaults : Prop :=
  ∀ (s : State) (i : Instr), s.host = [] → s.phase = .parse → s.pos ≠ 0 →
    let n := be (s.inBytes s.pos 4)
    (s.pos + 8 > s.inLen.toNat → step s = .next (faulted s .truncatedInput s.pos s.pos)) ∧
    (i.alphabet = .chunk → s.pos + 8 ≤ s.inLen.toNat → s.pos + 8 + n > s.inLen.toNat →
      exec i s = .next (faulted s .truncatedInput s.pos (s.pos + 8))) ∧
    (i.alphabet = .chunk → s.pos + 8 + n ≤ s.inLen.toNat → s.pos + 12 + n > s.inLen.toNat →
      exec i s = .next (faulted s .truncatedInput s.pos (s.pos + 8 + n)))

/-- The CRC is not looked at: two inputs that differ only in the four CRC bytes give the same outcome of a chunk that is
whole, up to those bytes (40 R167). -/
def Obligations.CrcBytesAreIgnored : Prop :=
  ∀ (s : State) (m : Memory) (i : Instr) (n : Nat) (type : BitVec 32) (data : List Byte), i.alphabet = .chunk →
    ChunkAt s n type data →
    (∀ a, a < s.pos + 8 + n ∨ s.pos + 12 + n ≤ a → ({ s with input := m } : State).inByte a = s.inByte a) →
    ∃ t, exec i s = .next t ∧ exec i { s with input := m } = .next { t with input := m }

/-! ### The bit reader and the tables -/

/-- GetBits(n): bit i of the value is the i-th bit consumed; past the end it faults and the cursor stays; GetBits(0) never
faults while the cursor is within Z (41 R201). -/
def Obligations.GetBitsReadsInOrder : Prop :=
  ∀ (n : Nat) (s : State),
    (s.bitPos + n ≤ 8 * s.z.length →
      ∃ v, getBits n s = .ok v { s with bitPos := s.bitPos + n } ∧ v < 2 ^ n ∧
        ∀ i, i < n → v / 2 ^ i % 2 = (byteAt s.z ((s.bitPos + i) / 8)).toNat / 2 ^ ((s.bitPos + i) % 8) % 2) ∧
    (s.bitPos + n > 8 * s.z.length →
      getBits n s = .raised (faulted s .truncatedDeflateStream s.bitPos n)) ∧
    (s.bitPos ≤ 8 * s.z.length → getBits 0 s = .ok 0 s)

/-- PeekBits(n): the next n bits, bits past the end read as 0 (41 R202). -/
def Obligations.PeekBitsPadsWithZeros : Prop :=
  ∀ (n : Nat) (s : State), s.peekBits n < 2 ^ n ∧
    ∀ i, i < n → s.peekBits n / 2 ^ i % 2 =
      if s.bitPos + i < 8 * s.z.length then
        (byteAt s.z ((s.bitPos + i) / 8)).toNat / 2 ^ ((s.bitPos + i) % 8) % 2
      else 0

/-- AlignToByte moves the cursor to the next multiple of 8, by 0 to 7 bits, never past the end of Z (41 R203). -/
def Obligations.AlignSkipsToByte : Prop :=
  ∀ s : State, s.bitPos ≤ 8 * s.z.length →
    ∃ p, s.alignToByte = { s with bitPos := p } ∧ p % 8 = 0 ∧ s.bitPos ≤ p ∧ p < s.bitPos + 8 ∧ p ≤ 8 * s.z.length

/-- Every table entry is a code of its symbol's length whose bit reversal is the low bits of the index, and the table has
2^maxLen entries (41 R205, R207 to R209). -/
def Obligations.TableEntriesAreCodes : Prop :=
  ∀ lengths : List Nat,
    (huffTable lengths).entries.length = 2 ^ (huffTable lengths).maxLen ∧
    ∀ (i : Nat) (e : CodeEntry), (huffTable lengths).entries[i]? = some (some e) →
      lengths[e.symbol]? = some e.length ∧ 1 ≤ e.length ∧ e.length ≤ (huffTable lengths).maxLen ∧
      ∃ code, (e, code) ∈ assignCodes lengths ∧ i % 2 ^ e.length = revBits e.length code

/-- When the array is not over-subscribed, the code of every symbol with a length is found at every index whose low bits
are its reversal: codes fit their lengths and no code is a prefix of another (41 R206 to R208, 30 R130). -/
def Obligations.CanonicalCodesDecode : Prop :=
  ∀ lengths : List Nat, overSubscribed lengths = false →
    ∀ (s l : Nat), lengths[s]? = some l → 1 ≤ l →
      ∃ code, (⟨l, s⟩, code) ∈ assignCodes lengths ∧ code < 2 ^ l ∧
        ∀ i, i < 2 ^ (huffTable lengths).maxLen → i % 2 ^ l = revBits l code →
          (huffTable lengths).entries[i]? = some (some ⟨l, s⟩)

/-- The fixed tables: their code lengths; 512 and 32 entries, none empty; the entries the spec gives (41 R212). -/
def Obligations.FixedTableEntries : Prop :=
  (∃ lf : List Nat, fixedLit = huffTable lf ∧ lf.length = 288 ∧
    ∀ s, s < 288 → lf[s]? = some (if s ≤ 143 then 8 else if s ≤ 255 then 9 else if s ≤ 279 then 7 else 8)) ∧
  fixedDist = huffTable (List.replicate 32 5) ∧
  fixedLit.maxLen = 9 ∧ fixedLit.entries.length = 512 ∧ (∀ e ∈ fixedLit.entries, e ≠ none) ∧
  fixedDist.maxLen = 5 ∧ fixedDist.entries.length = 32 ∧ (∀ e ∈ fixedDist.entries, e ≠ none) ∧
  (∀ i, i < 32 → fixedDist.entries[i]? = some (some ⟨5, revBits 5 i⟩)) ∧
  fixedLit.entries[0x089]? = some (some ⟨8, 97⟩) ∧ fixedLit.entries[0x189]? = some (some ⟨8, 97⟩) ∧
  (∀ k, k < 4 → fixedLit.entries[128 * k]? = some (some ⟨7, 256⟩)) ∧
  fixedLit.entries[511]? = some (some ⟨9, 255⟩)

/-- Bits that select no code fault InvalidHuffmanCode, and a code that runs past the end of Z faults
TruncatedDeflateStream with its length: at the code of an item, in a code-length sequence and in a block's codes alike,
and at the distance code of a length item, whose length code and extra bits have then been consumed (41 R210, 42 R253,
R254). A distance code at the start of a step is the model's context of log 8. -/
def Obligations.HuffmanDecodeFaults : Prop :=
  (∀ (s : State) (table : Option HuffTable), s.host = [] → s.phase = .inflate →
    (s.ist = .clseq ∧ table = s.clTab) ∨ (s.ist = .codes ∧ s.pendLen = none ∧ table = s.litTab) ∨
      (s.ist = .codes ∧ s.pendLen ≠ none ∧ table = s.distTab) →
    (s.peekEntry table = none → step s = .next (faulted s .invalidHuffmanCode s.bitPos 0)) ∧
    (∀ l sym, s.peekEntry table = some ⟨l, sym⟩ → s.bitPos + l > 8 * s.z.length →
      step s = .next (cutAt s s.bitPos l))) ∧
  (∀ (s : State) (i : Instr) (code l p : Nat), i.lengthCode = some code → CodeAt s s.litTab l code →
    p = s.bitPos + l + (lengthRow code).extra → p ≤ 8 * s.z.length →
    (({ s with bitPos := p } : State).peekEntry s.distTab = none →
      exec i s = .next (faulted { s with bitPos := p } .invalidHuffmanCode p 0)) ∧
    (∀ dl d, ({ s with bitPos := p } : State).peekEntry s.distTab = some ⟨dl, d⟩ → p + dl > 8 * s.z.length →
      exec i s = .next (cutAt s p dl)))

/-! ### INFLATE -/

/-- A zlib header that passes the three checks leads to the first block header; one that fails any of them faults with its
value; with fewer than two bytes either item faults, at the first byte that is missing (42 R241, 30 R116). -/
def Obligations.ZlibHeaderChecked : Prop :=
  ∀ (s : State) (v : BitVec 16),
    (s.bitPos + 16 ≤ 8 * s.z.length → v.toNat = bitsAt s.z s.bitPos 8 * 256 + bitsAt s.z (s.bitPos + 8) 8 →
      let good := v.toNat / 256 % 16 = 8 ∧ v.toNat % 31 = 0 ∧ v.toNat / 32 % 2 = 0
      (good → decode .zlib v.toNat = .ok (.zhdr v) ∧
        exec (.zhdr v) s = .next { s with bitPos := s.bitPos + 16, ist := .bhdr }) ∧
      (¬ good → decode .zlib v.toNat = .ok (.zhdrBad v) ∧
        exec (.zhdrBad v) s = .next (faulted { s with bitPos := s.bitPos + 16 } .badDeflateHeader 0 v.toNat))) ∧
    (∀ i, i = .zhdr v ∨ i = .zhdrBad v →
      (s.bitPos + 8 > 8 * s.z.length → exec i s = .next (faulted s .truncatedDeflateStream s.bitPos 8)) ∧
      (s.bitPos + 8 ≤ 8 * s.z.length → s.bitPos + 16 > 8 * s.z.length →
        exec i s = .next (faulted { s with bitPos := s.bitPos + 8 } .truncatedDeflateStream (s.bitPos + 8) 8)))

/-- A stored block: from the next byte boundary LEN, its complement NLEN and LEN bytes appended to OUT, then the end of
the block (42 R243, 30 R118). That the whole body is one operation, against the 258 bytes per operation of 42 R259, is the
model's choice (log 24); that a final block enters UNFILTER, with its interlace check and its end at height 0, within this
operation is deduced (log 10; 42 R258, 43 R320, R321, R331). -/
def Obligations.StoredBlockCopies : Prop :=
  ∀ (s : State) (f : Bool) (q len : Nat), bitsAt s.z s.bitPos 3 = f.toNat → q = 8 * ((s.bitPos + 3 + 7) / 8) →
    q + 32 ≤ 8 * s.z.length → len = bitsAt s.z q 16 → bitsAt s.z (q + 16) 16 = 65535 - len →
    q + 32 + 8 * len ≤ 8 * s.z.length → RoomFor s len →
    ∃ t, exec (.blkStored f) s = .next t ∧
      BlockEnded { s with
        bitPos := q + 32 + 8 * len, bfinal := f, btype := 0
        out := s.out ++ (s.z.drop (q / 8 + 4)).take len } t

/-- A stored block whose NLEN is not the complement of LEN faults with both; one whose bytes run out keeps the bytes it
had and faults at the end of Z; one whose bytes would pass OUT_CAP keeps the k bytes that fit and faults at the next,
already read (42 R243, 20 R83, 60 R404). That the whole body is one operation, against the 258 bytes per operation of
42 R259, is the model's choice (log 24). -/
def Obligations.StoredBlockFaults : Prop :=
  ∀ (s : State) (f : Bool) (q len nlen : Nat), bitsAt s.z s.bitPos 3 = f.toNat → q = 8 * ((s.bitPos + 3 + 7) / 8) →
    q + 32 ≤ 8 * s.z.length → len = bitsAt s.z q 16 → nlen = bitsAt s.z (q + 16) 16 →
    let read := { s with bitPos := q + 32, bfinal := f, btype := 0 }
    (nlen ≠ 65535 - len →
      exec (.blkStored f) s = .next (faulted read .storedLengthMismatch q (len * 65536 + nlen))) ∧
    (nlen = 65535 - len → q + 32 + 8 * len > 8 * s.z.length → RoomFor s (s.z.length - (q / 8 + 4)) →
      exec (.blkStored f) s = .next (faulted
        { read with bitPos := 8 * s.z.length, out := s.out ++ s.z.drop (q / 8 + 4) }
        .truncatedDeflateStream (8 * s.z.length) 8)) ∧
    (∀ cap k, nlen = 65535 - len → s.outCap = some cap → s.out.length + k = cap → k < len →
      q + 32 + 8 * (k + 1) ≤ 8 * s.z.length →
      exec (.blkStored f) s = .next (faulted
        { read with bitPos := q + 32 + 8 * (k + 1), out := s.out ++ (s.z.drop (q / 8 + 4)).take k }
        .outBuffer cap cap))

/-- A fixed block selects the constant tables; a block of type 3 faults at its header (42 R244, R242). -/
def Obligations.FixedAndInvalidBlocks : Prop :=
  ∀ (s : State) (f : Bool), s.bitPos + 3 ≤ 8 * s.z.length →
    (bitsAt s.z s.bitPos 3 = 2 + f.toNat →
      exec (.blkFixed f) s = .next { s with
        bitPos := s.bitPos + 3, bfinal := f, btype := 1
        litTab := some fixedLit, distTab := some fixedDist, ist := .codes }) ∧
    (bitsAt s.z s.bitPos 3 = 6 + f.toNat →
      exec (.blkInvalid f) s = .next (faulted { s with bitPos := s.bitPos + 3, bfinal := f, btype := 3 }
        .invalidBlockType s.bitPos 3))

/-- A dynamic block's header: HLIT, HDIST, HCLEN, the code-length code lengths in CL_ORDER with 0 for those not given, and
their table, or InvalidCodeLengths with table 0 when they are over-subscribed (42 R245, 30 R118). -/
def Obligations.DynamicHeaderBuilds : Prop :=
  ∀ (s : State) (f : Bool) (p n : Nat) (cl : List (BitVec 3)), bitsAt s.z s.bitPos 3 = 4 + f.toNat →
    p = s.bitPos + 3 → n = bitsAt s.z (p + 10) 4 + 4 → p + 14 + 3 * n ≤ 8 * s.z.length →
    cl.length = 19 →
    (∀ j, j < 19 → cl[clOrder.getD j 0]? =
      some (if j < n then BitVec.ofNat 3 (bitsAt s.z (p + 14 + 3 * j) 3) else 0)) →
    let read := { s with
      bitPos := p + 14 + 3 * n, bfinal := f, btype := 2
      hlit := bitsAt s.z p 5 + 257, hdist := bitsAt s.z (p + 5) 5 + 1, hclen := n, clLen := cl }
    (overSubscribed (cl.map BitVec.toNat) = false →
      exec (.blkDynamic f) s = .next { read with
        clTab := some (huffTable (cl.map BitVec.toNat)), lens := [], ist := .clseq }) ∧
    (overSubscribed (cl.map BitVec.toNat) = true →
      exec (.blkDynamic f) s = .next (faulted read .invalidCodeLengths (p + 14 + 3 * n) 0))

/-- A code-length item appends its length, 3 to 6 copies of the previous length, or 3 to 10 or 11 to 138 zeros; the tables
are built, and checked, literal/length first, when the sequence is full (42 R246 to R250, 30 R119). -/
def Obligations.CodeLengthItemsAppend : Prop :=
  ∀ (s : State) (l : Nat),
    (∀ n : BitVec 4, CodeAt s s.clTab l n.toNat →
      ∃ t, exec (.clen n) s = .next t ∧ LengthsAppended { s with bitPos := s.bitPos + l } [n] t) ∧
    (∀ prev e, CodeAt s s.clTab l 16 → s.lens.getLast? = some prev → s.bitPos + l + 2 ≤ 8 * s.z.length →
      e = bitsAt s.z (s.bitPos + l) 2 → s.lens.length + (3 + e) ≤ s.hlit + s.hdist →
      ∃ t, exec .repprev s = .next t ∧
        LengthsAppended { s with bitPos := s.bitPos + l + 2 } (List.replicate (3 + e) prev) t) ∧
    (∀ e, CodeAt s s.clTab l 17 → s.bitPos + l + 3 ≤ 8 * s.z.length →
      e = bitsAt s.z (s.bitPos + l) 3 → s.lens.length + (3 + e) ≤ s.hlit + s.hdist →
      ∃ t, exec .repzero s = .next t ∧
        LengthsAppended { s with bitPos := s.bitPos + l + 3 } (List.replicate (3 + e) 0) t) ∧
    (∀ e, CodeAt s s.clTab l 18 → s.bitPos + l + 7 ≤ 8 * s.z.length →
      e = bitsAt s.z (s.bitPos + l) 7 → s.lens.length + (11 + e) ≤ s.hlit + s.hdist →
      ∃ t, exec .repzerol s = .next t ∧
        LengthsAppended { s with bitPos := s.bitPos + l + 7 } (List.replicate (11 + e) 0) t)

/-- Code 16 with no previous length faults before its extra bits are read; a repeat past HLIT + HDIST faults after them;
both name the position of the repeat code (42 R247 to R249). -/
def Obligations.RepeatCodesFault : Prop :=
  ∀ (s : State) (l : Nat),
    (CodeAt s s.clTab l 16 → s.lens = [] →
      exec .repprev s = .next (faulted { s with bitPos := s.bitPos + l } .invalidCodeLengths s.bitPos 3)) ∧
    (CodeAt s s.clTab l 16 → s.lens ≠ [] → s.bitPos + l + 2 ≤ 8 * s.z.length →
      s.lens.length + (3 + bitsAt s.z (s.bitPos + l) 2) > s.hlit + s.hdist →
      exec .repprev s = .next (faulted { s with bitPos := s.bitPos + l + 2 } .invalidCodeLengths s.bitPos 4)) ∧
    (CodeAt s s.clTab l 17 → s.bitPos + l + 3 ≤ 8 * s.z.length →
      s.lens.length + (3 + bitsAt s.z (s.bitPos + l) 3) > s.hlit + s.hdist →
      exec .repzero s = .next (faulted { s with bitPos := s.bitPos + l + 3 } .invalidCodeLengths s.bitPos 4)) ∧
    (CodeAt s s.clTab l 18 → s.bitPos + l + 7 ≤ 8 * s.z.length →
      s.lens.length + (11 + bitsAt s.z (s.bitPos + l) 7) > s.hlit + s.hdist →
      exec .repzerol s = .next (faulted { s with bitPos := s.bitPos + l + 7 } .invalidCodeLengths s.bitPos 4))

/-- LIT appends its byte, nothing else but the cursor; at OUT_CAP it faults before the byte is written
(42 R251, 20 R83). -/
def Obligations.LitAppendsByte : Prop :=
  ∀ (s : State) (b : Byte) (l : Nat), CodeAt s s.litTab l b.toNat →
    (RoomFor s 1 → exec (.lit b) s = .next { s with bitPos := s.bitPos + l, out := s.out ++ [b] }) ∧
    (∀ cap, s.outCap = some cap → cap < s.out.length + 1 →
      exec (.lit b) s = .next (faulted { s with bitPos := s.bitPos + l } .outBuffer s.out.length cap))

/-- EOB ends the block: the next block header, or after the final block the entry to UNFILTER with its interlace check and
geometry (42 R252, R240, R258, 43 R320, R321). That this entry belongs to the operation of EOB is deduced (log 10). -/
def Obligations.EobEndsBlock : Prop :=
  ∀ (s : State) (l : Nat), CodeAt s s.litTab l 256 →
    ∃ t, exec .eob s = .next t ∧ BlockEnded { s with bitPos := s.bitPos + l } t

/-- A length code with its distance item: LBASE plus the extra bits, DBASE plus the extra bits, and the byte-by-byte copy,
as one operation; a copy that would pass OUT_CAP keeps the k bytes that fit and faults at the next (42 R253 to R255,
30 R121, R122, 20 R83, 60 R404). -/
def Obligations.BackReferenceCopies : Prop :=
  ∀ (s : State) (i : Instr) (code l dl d : Nat), i.lengthCode = some code → CodeAt s s.litTab l code →
    let p1 := s.bitPos + l + (lengthRow code).extra
    let length := (lengthRow code).base + bitsAt s.z (s.bitPos + l) (lengthRow code).extra
    let distance := (distanceRow d).base + bitsAt s.z (p1 + dl) (distanceRow d).extra
    CodeAt { s with bitPos := p1 } s.distTab dl d → d ≤ 29 →
    p1 + dl + (distanceRow d).extra ≤ 8 * s.z.length → distance ≤ s.out.length →
    let read := { s with bitPos := p1 + dl + (distanceRow d).extra }
    (RoomFor s length →
      ∃ out', exec i s = .next { read with out := out' } ∧ Copied s.out out' length distance) ∧
    (∀ cap k, s.outCap = some cap → s.out.length + k = cap → k < length →
      ∃ out', exec i s = .next (faulted { read with out := out' } .outBuffer cap cap) ∧ Copied s.out out' k distance)

/-- A distance item on its own: its distance, and the copy of the pending length, up to OUT_CAP as in a back-reference
(42 R254, R255, 20 R83; the pending length is the model's, log 8). -/
def Obligations.DistanceItemCopies : Prop :=
  ∀ (s : State) (i : Instr) (d dl : Nat), i.distanceCode = some d → CodeAt s s.distTab dl d →
    let length := s.pendLen.getD 0
    let distance := (distanceRow d).base + bitsAt s.z (s.bitPos + dl) (distanceRow d).extra
    s.bitPos + dl + (distanceRow d).extra ≤ 8 * s.z.length → distance ≤ s.out.length →
    let read := { s with bitPos := s.bitPos + dl + (distanceRow d).extra, pendLen := none }
    (RoomFor s length →
      ∃ out', exec i s = .next { read with out := out' } ∧ Copied s.out out' length distance) ∧
    (∀ cap k, s.outCap = some cap → s.out.length + k = cap → k < length →
      ∃ out', exec i s = .next (faulted { read with out := out' } .outBuffer cap cap) ∧ Copied s.out out' k distance)

/-- What has no meaning faults with the position of its code: the literal/length symbols 286 and 287, the distance symbols
30 and 31, and, after the extra bits and before any byte of the copy, a distance past the start of OUT (42 R254, R256,
R257, 60 R405). The spec runs a distance item within a back-reference; the clauses on a distance item alone, DIST_INVALID
and DIST_x, with the pending length cleared, are the model's choice (log 8). -/
def Obligations.InvalidReferencesFault : Prop :=
  (∀ (s : State) (low : BitVec 1) (l : Nat),
    (CodeAt s s.litTab l (286 + low.toNat) →
      exec (.llInvalid low) s =
        .next (faulted { s with bitPos := s.bitPos + l } .invalidSymbol s.bitPos (286 + low.toNat))) ∧
    (CodeAt s s.distTab l (30 + low.toNat) →
      exec (.distInvalid low) s =
        .next (faulted { s with bitPos := s.bitPos + l, pendLen := none } .invalidSymbol s.bitPos (30 + low.toNat)))) ∧
  (∀ (s : State) (i : Instr) (code l dl d : Nat), i.lengthCode = some code → CodeAt s s.litTab l code →
    let p1 := s.bitPos + l + (lengthRow code).extra
    let distance := (distanceRow d).base + bitsAt s.z (p1 + dl) (distanceRow d).extra
    CodeAt { s with bitPos := p1 } s.distTab dl d →
    (d > 29 → exec i s = .next (faulted { s with bitPos := p1 + dl } .invalidSymbol p1 d)) ∧
    (d ≤ 29 → p1 + dl + (distanceRow d).extra ≤ 8 * s.z.length → distance > s.out.length →
      exec i s = .next (faulted { s with bitPos := p1 + dl + (distanceRow d).extra } .invalidDistance p1 distance))) ∧
  (∀ (s : State) (i : Instr) (d dl : Nat), i.distanceCode = some d → CodeAt s s.distTab dl d →
    let distance := (distanceRow d).base + bitsAt s.z (s.bitPos + dl) (distanceRow d).extra
    s.bitPos + dl + (distanceRow d).extra ≤ 8 * s.z.length → distance > s.out.length →
    exec i s = .next (faulted { s with bitPos := s.bitPos + dl + (distanceRow d).extra, pendLen := none }
      .invalidDistance s.bitPos distance))

/-- Fields cut off by the end of Z: each is a GetBits that faults TruncatedDeflateStream with its position and width, and
what was read before it stays: a block header's BFINAL and BTYPE, a stored block's LEN and NLEN, a dynamic header's
counts and code-length code lengths, the extra bits of a repeat code, of a length and of a distance (41 R201, 42 R242,
R243, R245, R247 to R249, R253, R254). The last clause, a distance item alone, is the model's (log 8). -/
def Obligations.TruncatedStreamFaults : Prop :=
  (∀ (s : State) (i : Instr), i.alphabet = .bhdr →
    (s.bitPos + 1 > 8 * s.z.length → exec i s = .next (cutAt s s.bitPos 1)) ∧
    (s.bitPos + 1 ≤ 8 * s.z.length → s.bitPos + 3 > 8 * s.z.length →
      exec i s = .next (cutAt { s with bfinal := decide (bitsAt s.z s.bitPos 1 = 1) } (s.bitPos + 1) 2))) ∧
  (∀ (s : State) (f : Bool) (q : Nat), s.bitPos + 3 ≤ 8 * s.z.length → bitsAt s.z s.bitPos 3 = f.toNat →
    q = 8 * ((s.bitPos + 3 + 7) / 8) →
    let read := { s with bfinal := f, btype := 0 }
    (q + 16 > 8 * s.z.length → exec (.blkStored f) s = .next (cutAt read q 16)) ∧
    (q + 16 ≤ 8 * s.z.length → q + 32 > 8 * s.z.length → exec (.blkStored f) s = .next (cutAt read (q + 16) 16))) ∧
  (∀ (s : State) (f : Bool) (p : Nat), p = s.bitPos + 3 → p ≤ 8 * s.z.length → bitsAt s.z s.bitPos 3 = 4 + f.toNat →
    let read := { s with bfinal := f, btype := 2 }
    let read1 := { read with hlit := bitsAt s.z p 5 + 257 }
    let read2 := { read1 with hdist := bitsAt s.z (p + 5) 5 + 1 }
    let n := bitsAt s.z (p + 10) 4 + 4
    (p + 5 > 8 * s.z.length → exec (.blkDynamic f) s = .next (cutAt read p 5)) ∧
    (p + 5 ≤ 8 * s.z.length → p + 10 > 8 * s.z.length → exec (.blkDynamic f) s = .next (cutAt read1 (p + 5) 5)) ∧
    (p + 10 ≤ 8 * s.z.length → p + 14 > 8 * s.z.length → exec (.blkDynamic f) s = .next (cutAt read2 (p + 10) 4)) ∧
    (∀ j, j < n → p + 14 + 3 * j ≤ 8 * s.z.length → p + 14 + 3 * j + 3 > 8 * s.z.length →
      ∃ cl : List (BitVec 3), cl.length = 19 ∧
        (∀ k, k < 19 → cl[clOrder.getD k 0]? =
          some (if k < j then BitVec.ofNat 3 (bitsAt s.z (p + 14 + 3 * k) 3) else 0)) ∧
        exec (.blkDynamic f) s = .next (cutAt { read2 with hclen := n, clLen := cl } (p + 14 + 3 * j) 3))) ∧
  (∀ (s : State) (i : Instr) (symbol n l : Nat),
    (i, symbol, n) ∈ [(Instr.repprev, 16, 2), (.repzero, 17, 3), (.repzerol, 18, 7)] →
    CodeAt s s.clTab l symbol → (i = .repprev → s.lens ≠ []) → s.bitPos + l + n > 8 * s.z.length →
    exec i s = .next (cutAt s (s.bitPos + l) n)) ∧
  (∀ (s : State) (i : Instr) (code l p : Nat), i.lengthCode = some code → CodeAt s s.litTab l code →
    p = s.bitPos + l + (lengthRow code).extra →
    (p > 8 * s.z.length → exec i s = .next (cutAt s (s.bitPos + l) (lengthRow code).extra)) ∧
    (∀ dl d, CodeAt { s with bitPos := p } s.distTab dl d → d ≤ 29 →
      p + dl + (distanceRow d).extra > 8 * s.z.length →
      exec i s = .next (cutAt s (p + dl) (distanceRow d).extra))) ∧
  (∀ (s : State) (i : Instr) (d dl : Nat), i.distanceCode = some d → CodeAt s s.distTab dl d →
    s.bitPos + dl + (distanceRow d).extra > 8 * s.z.length →
    exec i s = .next (cutAt { s with pendLen := none } (s.bitPos + dl) (distanceRow d).extra))

/-- The length and distance codes row by row: the extra bits of each code, and ranges that follow one another in code order
from 3 and from 1 (code 285 alone begins again at 258, the last length of 284); so they are gapless: every length 3 to 258
and every distance 1 to 32768 is a base plus an extra value that fits its bits, and nothing else is (30 R121, R122). -/
def Obligations.LengthAndDistanceRanges : Prop :=
  (∀ n, (3 ≤ n ∧ n ≤ 258) ↔
    ∃ c e, 257 ≤ c ∧ c ≤ 285 ∧ e < 2 ^ (lengthRow c).extra ∧ n = (lengthRow c).base + e) ∧
  (∀ n, (1 ≤ n ∧ n ≤ 32768) ↔
    ∃ d e, d ≤ 29 ∧ e < 2 ^ (distanceRow d).extra ∧ n = (distanceRow d).base + e) ∧
  (∀ c, 257 ≤ c → c ≤ 284 → (lengthRow c).extra = if c < 265 then 0 else (c - 261) / 4) ∧
  (lengthRow 257).base = 3 ∧
  (∀ c, 257 ≤ c → c < 284 → (lengthRow (c + 1)).base = (lengthRow c).base + 2 ^ (lengthRow c).extra) ∧
  lengthRow 285 = ⟨258, 0⟩ ∧
  (∀ d, d ≤ 29 → (distanceRow d).extra = if d < 2 then 0 else d / 2 - 1) ∧
  (distanceRow 0).base = 1 ∧
  (∀ d, d < 29 → (distanceRow (d + 1)).base = (distanceRow d).base + 2 ^ (distanceRow d).extra)

/-! ### UNFILTER -/

/-- Each filter reconstructs its row from the filtered bytes and the reconstructed neighbours, mod 256, appends it to PIX
and goes to the next row, or to EXTRACT after the last one (43 R322 to R328, R330, R331). The item runs whatever tag stands
in OUT, which is the model's choice (log 7); that UNFILTER ends within the last row's operation is deduced (log 10). -/
def Obligations.FilterReconstructsRow : Prop :=
  ∀ (s : State) (i : Instr) (pred : Byte → Byte → Byte → Byte), i.predictor = some pred → 1 ≤ s.bpp → RowWhole s →
    ∃ row t, exec i s = .next t ∧ RowRecon pred s.bpp (rowAbove s) (filteredRow s) row ∧ RowAppended s row t

/-- A row that is not whole faults TruncatedImageData whatever its tag; a whole row with a tag above 4 faults
InvalidFilterType; both leave PIX as it was (43 R322, R329). The item is not tied to the tag that stands in OUT, which is
the model's choice (log 7). -/
def Obligations.BadRowsFault : Prop :=
  ∀ (s : State) (i : Instr) (tag : Byte), i.alphabet = .filter →
    (¬ RowWhole s → exec i s = .next (faulted s .truncatedImageData s.row s.out.length)) ∧
    (RowWhole s → exec (.filtInvalid tag) s = .next (faulted s .invalidFilterType s.row tag.toNat))

/-- The Paeth predictor is one of a, b, c, none of the three is nearer to a + b - c, and ties go to a, then b; with
b = c = 0 it is a and with a = c = 0 it is b, so on row 0 Paeth is Sub and before the first pixel Up (43 R328). -/
def Obligations.PaethPredictsNearest : Prop :=
  ∀ a b c : Byte,
    let d := fun x : Byte => ((a.toNat : Int) + b.toNat - c.toNat - x.toNat).natAbs
    (d a ≤ d b → d a ≤ d c → predPaeth a b c = a) ∧
    ((d b < d a ∨ d c < d a) → d b ≤ d c → predPaeth a b c = b) ∧
    ((d b < d a ∨ d c < d a) → d c < d b → predPaeth a b c = c) ∧
    predPaeth a 0 0 = a ∧ predPaeth 0 b 0 = b

/-! ### EXTRACT -/

/-- GetPixel at depth 8, by colour type, from the pixel's first byte in PIX; a palette index past the entries faults with
both numbers (44 R362 to R367). -/
def Obligations.PixelByColourType : Prop :=
  ∀ (s : State) (x y : Nat), s.pixValid = true → x < s.width.toNat → y < s.height.toNat → s.bitDepth = 8 →
    let o := y * s.cpr + x * s.bpp
    let b := fun k => byteAt s.pix (o + k)
    (s.colorType = .gray → s.getPixel x y = .ok ⟨b 0, b 0, b 0, 255⟩) ∧
    (s.colorType = .rgb → s.getPixel x y = .ok ⟨b 0, b 1, b 2, 255⟩) ∧
    (∀ e, s.colorType = .palette → (s.pal.getD [])[(b 0).toNat]? = some e →
      s.getPixel x y = .ok ⟨e.r, e.g, e.b, 255⟩) ∧
    (s.colorType = .palette → (s.pal.getD []).length ≤ (b 0).toNat →
      s.getPixel x y = .error ⟨.paletteIndex, (b 0).toNat, (s.pal.getD []).length⟩) ∧
    (s.colorType = .grayAlpha → s.getPixel x y = .ok ⟨b 0, b 0, b 0, b 1⟩) ∧
    (s.colorType = .rgba → s.getPixel x y = .ok ⟨b 0, b 1, b 2, b 3⟩)

/-- GetPixel's checks in order: no pixels yet, coordinates, then at another depth SampleFn, refused where it is absent and
whatever value it has where it is supplied (44 R360, R361). -/
def Obligations.PixelChecksInOrder : Prop :=
  ∀ (s : State) (x y : Nat),
    (s.pixValid = false → s.getPixel x y = .error ⟨.noPixels, x, y⟩) ∧
    (s.pixValid = true → s.width.toNat ≤ x ∨ s.height.toNat ≤ y → s.getPixel x y = .error ⟨.pixelCoordinates, x, y⟩) ∧
    (s.pixValid = true → x < s.width.toNat → y < s.height.toNat → s.bitDepth ≠ 8 → s.sampleFnPresent = false →
      s.getPixel x y = .error ⟨.sampleFn, x, y⟩) ∧
    (s.pixValid = true → x < s.width.toNat → y < s.height.toNat → s.bitDepth ≠ 8 → s.sampleFnPresent = true →
      ∃ c, s.getPixel x y = .ok c)

/-- PLEN: the length from pixel (0, 0), big-endian; over the ceiling it faults with nothing stored; 0 completes the payload
at once; a fault of the pixel is latched (44 R368, R369, R373). -/
def Obligations.PlenReadsLength : Prop :=
  (∀ (s : State) (c : Channels) (n : Nat), s.getPixel 0 0 = .ok c →
    n = c.c0.toNat * 2 ^ 24 + c.c1.toNat * 2 ^ 16 + c.c2.toNat * 2 ^ 8 + c.c3.toNat →
    (n > 4194304 → exec .plen s = .next (faulted s .lengthCeiling n 4194304)) ∧
    (n = 0 → exec .plen s = .next
      { s with plen := 0, px := 1, py := 0, payloadValid := true, phase := .done }) ∧
    (0 < n → n ≤ 4194304 → exec .plen s = .next { s with plen := BitVec.ofNat 32 n, px := 1, py := 0 })) ∧
  (∀ (s : State) (f : FaultRecord), s.getPixel 0 0 = .error f →
    exec .plen s = .next (faulted s f.detail f.info0 f.info1))

/-- PIXEL: at the end of a row the walk goes to column 0 of the next; the pixel's bytes, at most as many as are missing,
are appended in channel order; a full payload is DONE; a fault of the pixel, past the last row for one, is latched
(44 R370 to R373). -/
def Obligations.PixelAppendsChannels : Prop :=
  ∀ (s : State) (x y : Nat),
    (x, y) = (if s.px < s.width.toNat then (s.px, s.py) else (0, s.py + 1)) →
    (∀ c : Channels, s.getPixel x y = .ok c →
      let payload := s.payload ++ [c.c0, c.c1, c.c2, c.c3].take (min 4 (s.plen.toNat - s.payload.length))
      (payload.length = s.plen.toNat → exec .pixel s = .next
        { s with px := x + 1, py := y, payload := payload, payloadValid := true, phase := .done }) ∧
      (payload.length ≠ s.plen.toNat → exec .pixel s = .next { s with px := x + 1, py := y, payload := payload })) ∧
    (∀ f : FaultRecord, s.getPixel x y = .error f →
      exec .pixel s = .next (faulted { s with px := x, py := y } f.detail f.info0 f.info1))

/-! ### Frames and whole-machine rules -/

/-- No engine item changes what belongs to the host: IN, byte for byte, IN_LEN, HEADER_ONLY, the pixel port, the open
parameters, the schedule (20 R81, R98, 70 R454). -/
def Obligations.EngineLeavesHostSide : Prop :=
  ∀ (i : Instr) (s t : State), i.isEngine = true → exec i s = .next t →
    (∀ a, t.inByte a = s.inByte a) ∧ t.input = s.input ∧ t.inLen = s.inLen ∧ t.headerOnly = s.headerOnly ∧
    t.pixX = s.pixX ∧ t.pixY = s.pixY ∧ t.pixData = s.pixData ∧ t.pixStatus = s.pixStatus ∧
    t.inCap = s.inCap ∧ t.outCap = s.outCap ∧ t.sampleFnPresent = s.sampleFnPresent ∧
    t.host = s.host ∧ t.busData = s.busData ∧ t.boots = s.boots

/-- Who writes what, over all engine items and, with EngineLeavesHostSide, all fields: the descriptor only IHDR, the palette
only PLTE, Z only IDAT, S.pos only SIG and the chunks; the bit cursor, the sub-state, BFINAL and BTYPE, the tables, the
dynamic header's registers and OUT only the INFLATE items named; the geometry only the end of a block, the row and
pixValid only it and a filter row, PIX only a filter row; the length and the walk only an EXTRACT step. PAYLOAD is extended
by an EXTRACT step, kept by every other item, and emptied by a fault; the latch changes and an unnamed item leaves its
phase only by a fault. OUT and PIX only grow, so that every byte they held reads as before (10 R31 to R45, 20 R82 to R85,
60 R403). That the end of a block writes the geometry, and at height 0 pixValid, is log 10; pendLen is log 8. -/
def Obligations.EngineWritesByFamily : Prop :=
  ∀ (i : Instr) (s t : State), i.isEngine = true → exec i s = .next t →
    (i ≠ .ihdr → t.width = s.width ∧ t.height = s.height ∧ t.bitDepth = s.bitDepth ∧ t.colorType = s.colorType ∧
      t.compression = s.compression ∧ t.filter = s.filter ∧ t.interlace = s.interlace ∧ t.hdrValid = s.hdrValid) ∧
    (i ≠ .plte → t.pal = s.pal) ∧
    (i ≠ .idat → t.z = s.z) ∧
    (i.alphabet ≠ .sig → i.alphabet ≠ .chunk → t.pos = s.pos) ∧
    (i ≠ .iend → i.alphabet ∉ [.zlib, .bhdr, .cl, .ll, .dist] → t.bitPos = s.bitPos) ∧
    (i ≠ .iend → i ≠ .eob → i.alphabet ∉ [.zlib, .bhdr, .cl] → t.ist = s.ist) ∧
    (i.alphabet ≠ .bhdr → t.bfinal = s.bfinal ∧ t.btype = s.btype) ∧
    ((∀ f, i ≠ .blkFixed f) → i.alphabet ≠ .cl → t.litTab = s.litTab ∧ t.distTab = s.distTab) ∧
    ((∀ f, i ≠ .blkDynamic f) →
      t.clTab = s.clTab ∧ t.hlit = s.hlit ∧ t.hdist = s.hdist ∧ t.hclen = s.hclen ∧ t.clLen = s.clLen) ∧
    ((∀ f, i ≠ .blkDynamic f) → i.alphabet ≠ .cl → t.lens = s.lens) ∧
    (i.alphabet ≠ .dist → t.pendLen = s.pendLen) ∧
    (i.alphabet ≠ .ll → i.alphabet ≠ .dist → (∀ f, i ≠ .blkStored f) → t.out = s.out) ∧
    (i ≠ .eob → (∀ f, i ≠ .blkStored f) →
      t.bpp = s.bpp ∧ t.cpr = s.cpr ∧ (i.alphabet ≠ .filter → t.row = s.row ∧ t.pixValid = s.pixValid)) ∧
    (i.alphabet ≠ .filter → t.pix = s.pix) ∧
    (i.alphabet ≠ .seq → t.plen = s.plen ∧ t.px = s.px ∧ t.py = s.py) ∧
    (t.phase = .error ∧ t.payload = [] ∧ t.payloadValid = false ∨
      s.payload <+: t.payload ∧ t.err = s.err ∧
        (i.alphabet ≠ .seq → t.payload = s.payload ∧ t.payloadValid = s.payloadValid)) ∧
    (i ≠ .ihdr → i ≠ .iend → i ≠ .eob → (∀ f, i ≠ .blkStored f) → i.alphabet ∉ [.filter, .seq] →
      t.phase = s.phase ∨ t.phase = .error) ∧
    (∀ k, k < s.out.length → byteAt t.out k = byteAt s.out k) ∧
    (∀ k, k < s.pix.length → byteAt t.pix k = byteAt s.pix k)

/-- What a fault leaves: whenever an engine item takes the machine to ERROR, a fault is latched, the payload is empty and
invalid, pixValid and the host's fields are as before (60 R403, R404). -/
def Obligations.FaultLeavesNoPayload : Prop :=
  ∀ (i : Instr) (s t : State), i.isEngine = true → s.phase ≠ .error → exec i s = .next t → t.phase = .error →
    t.err.isSome = true ∧ t.payload = [] ∧ t.payloadValid = false ∧ t.pixValid = s.pixValid

/-- The only ways out of ERROR are START and power-on reset; until one of them the fault stays as it was latched
(60 R407, R408). -/
def Obligations.ErrorLeftOnlyByStart : Prop :=
  ∀ s t : State, s.phase = .error → step s = .next t →
    (t.phase = .error ∧ t.err = s.err) ∨
    (∃ w rest, s.host = .writeReg 0x00 4 w :: rest ∧ w.getLsbD 0 = true) ∨ (∃ rest, s.host = .powerOn :: rest)

/-- The stages follow one another in order: the engine's step leaves a phase only for the next stage, the two successful
ends, or ERROR (20 R95, 40 R168, 42 R258, 43 R331, 44 R373). From INFLATE to EXTRACT in one step is the deduced reading of
log 10: at height 0 UNFILTER ends within the operation that entered it. -/
def Obligations.StagesRunInOrder : Prop :=
  ∀ s t : State, s.host = [] → step s = .next t →
    (s.phase = .parse → t.phase = .parse ∨ t.phase = .inflate ∨ t.phase = .doneHeader ∨ t.phase = .error) ∧
    (s.phase = .inflate → t.phase = .inflate ∨ t.phase = .unfilter ∨ t.phase = .extract ∨ t.phase = .error) ∧
    (s.phase = .unfilter → t.phase = .unfilter ∨ t.phase = .extract ∨ t.phase = .error) ∧
    (s.phase = .extract → t.phase = .extract ∨ t.phase = .done ∨ t.phase = .error)

/-- The invariant holds after power-on reset. -/
def Obligations.InvariantAtReset : Prop := Inv State.reset

/-- Every step, of the engine or of the host, keeps the invariant: the cursor stays within Z, a fault is latched exactly in
ERROR, no partial payload survives, PIX holds the rows done, tables are over their alphabets, the descriptor is legal, the
spaces keep their form and capacities. -/
def Obligations.StepKeepsInvariant : Prop :=
  ∀ s t : State, Inv s → step s = .next t → Inv t

/-- Every INFLATE operation that stays in INFLATE consumes at least one bit of Z, and the cursor never goes back
(42 R259, 10 R33). -/
def Obligations.InflateConsumesBits : Prop :=
  ∀ s t : State, Inv s → s.host = [] → s.phase = .inflate → step s = .next t → t.phase = .inflate →
    s.bitPos < t.bitPos ∧ t.bitPos ≤ 8 * t.z.length ∧ t.z = s.z

/-- Every run ends: from a busy phase, with no host access to come, finitely many steps reach a terminal phase
(60 R415). -/
def Obligations.EveryRunEnds : Prop :=
  ∀ s : State, Inv s → s.host = [] → s.phase.busy = true →
    ∃ n t, Sys2Proof.core.run n s = .next t ∧ t.phase.terminal = true
end

