-- ==== Sys2Proof/Laws/State.lean ====
section
/-! SUPPORT. One lemma per field for each named update of the state: the reset state, fault entry, the two resets, the alignment of the bit
cursor, the completion of the payload. -/

namespace Sys2Proof.Machine

/-! ### The reset state (10 R57) -/

@[simp] theorem State.reset_host : State.reset.host = [] := rfl
@[simp] theorem State.reset_busData : State.reset.busData = 0 := rfl
@[simp] theorem State.reset_boots : State.reset.boots = 0 := rfl
@[simp] theorem State.reset_inCap : State.reset.inCap = none := rfl
@[simp] theorem State.reset_outCap : State.reset.outCap = none := rfl
@[simp] theorem State.reset_sampleFnPresent : State.reset.sampleFnPresent = false := rfl
@[simp] theorem State.reset_phase : State.reset.phase = .idle := rfl
@[simp] theorem State.reset_err : State.reset.err = none := rfl
@[simp] theorem State.reset_headerOnly : State.reset.headerOnly = false := rfl
@[simp] theorem State.reset_inLen : State.reset.inLen = 0 := rfl
@[simp] theorem State.reset_input : State.reset.input = [] := rfl
@[simp] theorem State.reset_pos : State.reset.pos = 0 := rfl
@[simp] theorem State.reset_hdrValid : State.reset.hdrValid = false := rfl
@[simp] theorem State.reset_width : State.reset.width = 0 := rfl
@[simp] theorem State.reset_height : State.reset.height = 0 := rfl
@[simp] theorem State.reset_bitDepth : State.reset.bitDepth = 0 := rfl
@[simp] theorem State.reset_colorType : State.reset.colorType = .gray := rfl
@[simp] theorem State.reset_compression : State.reset.compression = 0 := rfl
@[simp] theorem State.reset_filter : State.reset.filter = 0 := rfl
@[simp] theorem State.reset_interlace : State.reset.interlace = 0 := rfl
@[simp] theorem State.reset_pal : State.reset.pal = none := rfl
@[simp] theorem State.reset_z : State.reset.z = [] := rfl
@[simp] theorem State.reset_bitPos : State.reset.bitPos = 0 := rfl
@[simp] theorem State.reset_ist : State.reset.ist = .zhdr := rfl
@[simp] theorem State.reset_bfinal : State.reset.bfinal = false := rfl
@[simp] theorem State.reset_btype : State.reset.btype = 0 := rfl
@[simp] theorem State.reset_litTab : State.reset.litTab = none := rfl
@[simp] theorem State.reset_distTab : State.reset.distTab = none := rfl
@[simp] theorem State.reset_clTab : State.reset.clTab = none := rfl
@[simp] theorem State.reset_hlit : State.reset.hlit = 0 := rfl
@[simp] theorem State.reset_hdist : State.reset.hdist = 0 := rfl
@[simp] theorem State.reset_hclen : State.reset.hclen = 0 := rfl
@[simp] theorem State.reset_clLen : State.reset.clLen = List.replicate 19 0 := rfl
@[simp] theorem State.reset_lens : State.reset.lens = [] := rfl
@[simp] theorem State.reset_pendLen : State.reset.pendLen = none := rfl
@[simp] theorem State.reset_out : State.reset.out = [] := rfl
@[simp] theorem State.reset_row : State.reset.row = 0 := rfl
@[simp] theorem State.reset_bpp : State.reset.bpp = 0 := rfl
@[simp] theorem State.reset_cpr : State.reset.cpr = 0 := rfl
@[simp] theorem State.reset_pix : State.reset.pix = [] := rfl
@[simp] theorem State.reset_pixValid : State.reset.pixValid = false := rfl
@[simp] theorem State.reset_plen : State.reset.plen = 0 := rfl
@[simp] theorem State.reset_px : State.reset.px = 0 := rfl
@[simp] theorem State.reset_py : State.reset.py = 0 := rfl
@[simp] theorem State.reset_payload : State.reset.payload = [] := rfl
@[simp] theorem State.reset_payloadValid : State.reset.payloadValid = false := rfl
@[simp] theorem State.reset_pixX : State.reset.pixX = 0 := rfl
@[simp] theorem State.reset_pixY : State.reset.pixY = 0 := rfl
@[simp] theorem State.reset_pixData : State.reset.pixData = 0 := rfl
@[simp] theorem State.reset_pixStatus : State.reset.pixStatus = 0 := rfl

/-! ### Fault entry (60 R403) -/

@[simp] theorem State.raise_host (s : State) (d : FaultDetail) (i j : Nat) : (s.raise d i j).host = s.host := rfl
@[simp] theorem State.raise_busData (s : State) (d : FaultDetail) (i j : Nat) : (s.raise d i j).busData = s.busData := rfl
@[simp] theorem State.raise_boots (s : State) (d : FaultDetail) (i j : Nat) : (s.raise d i j).boots = s.boots := rfl
@[simp] theorem State.raise_inCap (s : State) (d : FaultDetail) (i j : Nat) : (s.raise d i j).inCap = s.inCap := rfl
@[simp] theorem State.raise_outCap (s : State) (d : FaultDetail) (i j : Nat) : (s.raise d i j).outCap = s.outCap := rfl
@[simp] theorem State.raise_sampleFnPresent (s : State) (d : FaultDetail) (i j : Nat) : (s.raise d i j).sampleFnPresent = s.sampleFnPresent := rfl
@[simp] theorem State.raise_phase (s : State) (d : FaultDetail) (i j : Nat) : (s.raise d i j).phase = .error := rfl
@[simp] theorem State.raise_err (s : State) (d : FaultDetail) (i j : Nat) : (s.raise d i j).err = some ⟨d, i, j⟩ := rfl
@[simp] theorem State.raise_headerOnly (s : State) (d : FaultDetail) (i j : Nat) : (s.raise d i j).headerOnly = s.headerOnly := rfl
@[simp] theorem State.raise_inLen (s : State) (d : FaultDetail) (i j : Nat) : (s.raise d i j).inLen = s.inLen := rfl
@[simp] theorem State.raise_input (s : State) (d : FaultDetail) (i j : Nat) : (s.raise d i j).input = s.input := rfl
@[simp] theorem State.raise_pos (s : State) (d : FaultDetail) (i j : Nat) : (s.raise d i j).pos = s.pos := rfl
@[simp] theorem State.raise_hdrValid (s : State) (d : FaultDetail) (i j : Nat) : (s.raise d i j).hdrValid = s.hdrValid := rfl
@[simp] theorem State.raise_width (s : State) (d : FaultDetail) (i j : Nat) : (s.raise d i j).width = s.width := rfl
@[simp] theorem State.raise_height (s : State) (d : FaultDetail) (i j : Nat) : (s.raise d i j).height = s.height := rfl
@[simp] theorem State.raise_bitDepth (s : State) (d : FaultDetail) (i j : Nat) : (s.raise d i j).bitDepth = s.bitDepth := rfl
@[simp] theorem State.raise_colorType (s : State) (d : FaultDetail) (i j : Nat) : (s.raise d i j).colorType = s.colorType := rfl
@[simp] theorem State.raise_compression (s : State) (d : FaultDetail) (i j : Nat) : (s.raise d i j).compression = s.compression := rfl
@[simp] theorem State.raise_filter (s : State) (d : FaultDetail) (i j : Nat) : (s.raise d i j).filter = s.filter := rfl
@[simp] theorem State.raise_interlace (s : State) (d : FaultDetail) (i j : Nat) : (s.raise d i j).interlace = s.interlace := rfl
@[simp] theorem State.raise_pal (s : State) (d : FaultDetail) (i j : Nat) : (s.raise d i j).pal = s.pal := rfl
@[simp] theorem State.raise_z (s : State) (d : FaultDetail) (i j : Nat) : (s.raise d i j).z = s.z := rfl
@[simp] theorem State.raise_bitPos (s : State) (d : FaultDetail) (i j : Nat) : (s.raise d i j).bitPos = s.bitPos := rfl
@[simp] theorem State.raise_ist (s : State) (d : FaultDetail) (i j : Nat) : (s.raise d i j).ist = s.ist := rfl
@[simp] theorem State.raise_bfinal (s : State) (d : FaultDetail) (i j : Nat) : (s.raise d i j).bfinal = s.bfinal := rfl
@[simp] theorem State.raise_btype (s : State) (d : FaultDetail) (i j : Nat) : (s.raise d i j).btype = s.btype := rfl
@[simp] theorem State.raise_litTab (s : State) (d : FaultDetail) (i j : Nat) : (s.raise d i j).litTab = s.litTab := rfl
@[simp] theorem State.raise_distTab (s : State) (d : FaultDetail) (i j : Nat) : (s.raise d i j).distTab = s.distTab := rfl
@[simp] theorem State.raise_clTab (s : State) (d : FaultDetail) (i j : Nat) : (s.raise d i j).clTab = s.clTab := rfl
@[simp] theorem State.raise_hlit (s : State) (d : FaultDetail) (i j : Nat) : (s.raise d i j).hlit = s.hlit := rfl
@[simp] theorem State.raise_hdist (s : State) (d : FaultDetail) (i j : Nat) : (s.raise d i j).hdist = s.hdist := rfl
@[simp] theorem State.raise_hclen (s : State) (d : FaultDetail) (i j : Nat) : (s.raise d i j).hclen = s.hclen := rfl
@[simp] theorem State.raise_clLen (s : State) (d : FaultDetail) (i j : Nat) : (s.raise d i j).clLen = s.clLen := rfl
@[simp] theorem State.raise_lens (s : State) (d : FaultDetail) (i j : Nat) : (s.raise d i j).lens = s.lens := rfl
@[simp] theorem State.raise_pendLen (s : State) (d : FaultDetail) (i j : Nat) : (s.raise d i j).pendLen = s.pendLen := rfl
@[simp] theorem State.raise_out (s : State) (d : FaultDetail) (i j : Nat) : (s.raise d i j).out = s.out := rfl
@[simp] theorem State.raise_row (s : State) (d : FaultDetail) (i j : Nat) : (s.raise d i j).row = s.row := rfl
@[simp] theorem State.raise_bpp (s : State) (d : FaultDetail) (i j : Nat) : (s.raise d i j).bpp = s.bpp := rfl
@[simp] theorem State.raise_cpr (s : State) (d : FaultDetail) (i j : Nat) : (s.raise d i j).cpr = s.cpr := rfl
@[simp] theorem State.raise_pix (s : State) (d : FaultDetail) (i j : Nat) : (s.raise d i j).pix = s.pix := rfl
@[simp] theorem State.raise_pixValid (s : State) (d : FaultDetail) (i j : Nat) : (s.raise d i j).pixValid = s.pixValid := rfl
@[simp] theorem State.raise_plen (s : State) (d : FaultDetail) (i j : Nat) : (s.raise d i j).plen = s.plen := rfl
@[simp] theorem State.raise_px (s : State) (d : FaultDetail) (i j : Nat) : (s.raise d i j).px = s.px := rfl
@[simp] theorem State.raise_py (s : State) (d : FaultDetail) (i j : Nat) : (s.raise d i j).py = s.py := rfl
@[simp] theorem State.raise_payload (s : State) (d : FaultDetail) (i j : Nat) : (s.raise d i j).payload = [] := rfl
@[simp] theorem State.raise_payloadValid (s : State) (d : FaultDetail) (i j : Nat) : (s.raise d i j).payloadValid = false := rfl
@[simp] theorem State.raise_pixX (s : State) (d : FaultDetail) (i j : Nat) : (s.raise d i j).pixX = s.pixX := rfl
@[simp] theorem State.raise_pixY (s : State) (d : FaultDetail) (i j : Nat) : (s.raise d i j).pixY = s.pixY := rfl
@[simp] theorem State.raise_pixData (s : State) (d : FaultDetail) (i j : Nat) : (s.raise d i j).pixData = s.pixData := rfl
@[simp] theorem State.raise_pixStatus (s : State) (d : FaultDetail) (i j : Nat) : (s.raise d i j).pixStatus = s.pixStatus := rfl

/-! ### The reset part of START (70 R451) -/

@[simp] theorem State.startReset_host (s : State) : (s.startReset).host = s.host := rfl
@[simp] theorem State.startReset_busData (s : State) : (s.startReset).busData = s.busData := rfl
@[simp] theorem State.startReset_boots (s : State) : (s.startReset).boots = s.boots := rfl
@[simp] theorem State.startReset_inCap (s : State) : (s.startReset).inCap = s.inCap := rfl
@[simp] theorem State.startReset_outCap (s : State) : (s.startReset).outCap = s.outCap := rfl
@[simp] theorem State.startReset_sampleFnPresent (s : State) : (s.startReset).sampleFnPresent = s.sampleFnPresent := rfl
@[simp] theorem State.startReset_phase (s : State) : (s.startReset).phase = State.reset.phase := rfl
@[simp] theorem State.startReset_err (s : State) : (s.startReset).err = State.reset.err := rfl
@[simp] theorem State.startReset_headerOnly (s : State) : (s.startReset).headerOnly = s.headerOnly := rfl
@[simp] theorem State.startReset_inLen (s : State) : (s.startReset).inLen = s.inLen := rfl
@[simp] theorem State.startReset_input (s : State) : (s.startReset).input = s.input := rfl
@[simp] theorem State.startReset_pos (s : State) : (s.startReset).pos = State.reset.pos := rfl
@[simp] theorem State.startReset_hdrValid (s : State) : (s.startReset).hdrValid = State.reset.hdrValid := rfl
@[simp] theorem State.startReset_width (s : State) : (s.startReset).width = State.reset.width := rfl
@[simp] theorem State.startReset_height (s : State) : (s.startReset).height = State.reset.height := rfl
@[simp] theorem State.startReset_bitDepth (s : State) : (s.startReset).bitDepth = State.reset.bitDepth := rfl
@[simp] theorem State.startReset_colorType (s : State) : (s.startReset).colorType = State.reset.colorType := rfl
@[simp] theorem State.startReset_compression (s : State) : (s.startReset).compression = State.reset.compression := rfl
@[simp] theorem State.startReset_filter (s : State) : (s.startReset).filter = State.reset.filter := rfl
@[simp] theorem State.startReset_interlace (s : State) : (s.startReset).interlace = State.reset.interlace := rfl
@[simp] theorem State.startReset_pal (s : State) : (s.startReset).pal = State.reset.pal := rfl
@[simp] theorem State.startReset_z (s : State) : (s.startReset).z = State.reset.z := rfl
@[simp] theorem State.startReset_bitPos (s : State) : (s.startReset).bitPos = State.reset.bitPos := rfl
@[simp] theorem State.startReset_ist (s : State) : (s.startReset).ist = State.reset.ist := rfl
@[simp] theorem State.startReset_bfinal (s : State) : (s.startReset).bfinal = State.reset.bfinal := rfl
@[simp] theorem State.startReset_btype (s : State) : (s.startReset).btype = State.reset.btype := rfl
@[simp] theorem State.startReset_litTab (s : State) : (s.startReset).litTab = State.reset.litTab := rfl
@[simp] theorem State.startReset_distTab (s : State) : (s.startReset).distTab = State.reset.distTab := rfl
@[simp] theorem State.startReset_clTab (s : State) : (s.startReset).clTab = State.reset.clTab := rfl
@[simp] theorem State.startReset_hlit (s : State) : (s.startReset).hlit = State.reset.hlit := rfl
@[simp] theorem State.startReset_hdist (s : State) : (s.startReset).hdist = State.reset.hdist := rfl
@[simp] theorem State.startReset_hclen (s : State) : (s.startReset).hclen = State.reset.hclen := rfl
@[simp] theorem State.startReset_clLen (s : State) : (s.startReset).clLen = State.reset.clLen := rfl
@[simp] theorem State.startReset_lens (s : State) : (s.startReset).lens = State.reset.lens := rfl
@[simp] theorem State.startReset_pendLen (s : State) : (s.startReset).pendLen = State.reset.pendLen := rfl
@[simp] theorem State.startReset_out (s : State) : (s.startReset).out = State.reset.out := rfl
@[simp] theorem State.startReset_row (s : State) : (s.startReset).row = State.reset.row := rfl
@[simp] theorem State.startReset_bpp (s : State) : (s.startReset).bpp = State.reset.bpp := rfl
@[simp] theorem State.startReset_cpr (s : State) : (s.startReset).cpr = State.reset.cpr := rfl
@[simp] theorem State.startReset_pix (s : State) : (s.startReset).pix = State.reset.pix := rfl
@[simp] theorem State.startReset_pixValid (s : State) : (s.startReset).pixValid = State.reset.pixValid := rfl
@[simp] theorem State.startReset_plen (s : State) : (s.startReset).plen = State.reset.plen := rfl
@[simp] theorem State.startReset_px (s : State) : (s.startReset).px = State.reset.px := rfl
@[simp] theorem State.startReset_py (s : State) : (s.startReset).py = State.reset.py := rfl
@[simp] theorem State.startReset_payload (s : State) : (s.startReset).payload = State.reset.payload := rfl
@[simp] theorem State.startReset_payloadValid (s : State) : (s.startReset).payloadValid = State.reset.payloadValid := rfl
@[simp] theorem State.startReset_pixX (s : State) : (s.startReset).pixX = State.reset.pixX := rfl
@[simp] theorem State.startReset_pixY (s : State) : (s.startReset).pixY = State.reset.pixY := rfl
@[simp] theorem State.startReset_pixData (s : State) : (s.startReset).pixData = State.reset.pixData := rfl
@[simp] theorem State.startReset_pixStatus (s : State) : (s.startReset).pixStatus = State.reset.pixStatus := rfl

/-! ### Power-on reset (70 R450) -/

@[simp] theorem State.powerOnReset_host (s : State) : (s.powerOnReset).host = s.host := rfl
@[simp] theorem State.powerOnReset_busData (s : State) : (s.powerOnReset).busData = State.reset.busData := rfl
@[simp] theorem State.powerOnReset_boots (s : State) : (s.powerOnReset).boots = s.boots + 1 := rfl
@[simp] theorem State.powerOnReset_inCap (s : State) : (s.powerOnReset).inCap = s.inCap := rfl
@[simp] theorem State.powerOnReset_outCap (s : State) : (s.powerOnReset).outCap = s.outCap := rfl
@[simp] theorem State.powerOnReset_sampleFnPresent (s : State) : (s.powerOnReset).sampleFnPresent = s.sampleFnPresent := rfl
@[simp] theorem State.powerOnReset_phase (s : State) : (s.powerOnReset).phase = State.reset.phase := rfl
@[simp] theorem State.powerOnReset_err (s : State) : (s.powerOnReset).err = State.reset.err := rfl
@[simp] theorem State.powerOnReset_headerOnly (s : State) : (s.powerOnReset).headerOnly = State.reset.headerOnly := rfl
@[simp] theorem State.powerOnReset_inLen (s : State) : (s.powerOnReset).inLen = State.reset.inLen := rfl
@[simp] theorem State.powerOnReset_input (s : State) : (s.powerOnReset).input = State.reset.input := rfl
@[simp] theorem State.powerOnReset_pos (s : State) : (s.powerOnReset).pos = State.reset.pos := rfl
@[simp] theorem State.powerOnReset_hdrValid (s : State) : (s.powerOnReset).hdrValid = State.reset.hdrValid := rfl
@[simp] theorem State.powerOnReset_width (s : State) : (s.powerOnReset).width = State.reset.width := rfl
@[simp] theorem State.powerOnReset_height (s : State) : (s.powerOnReset).height = State.reset.height := rfl
@[simp] theorem State.powerOnReset_bitDepth (s : State) : (s.powerOnReset).bitDepth = State.reset.bitDepth := rfl
@[simp] theorem State.powerOnReset_colorType (s : State) : (s.powerOnReset).colorType = State.reset.colorType := rfl
@[simp] theorem State.powerOnReset_compression (s : State) : (s.powerOnReset).compression = State.reset.compression := rfl
@[simp] theorem State.powerOnReset_filter (s : State) : (s.powerOnReset).filter = State.reset.filter := rfl
@[simp] theorem State.powerOnReset_interlace (s : State) : (s.powerOnReset).interlace = State.reset.interlace := rfl
@[simp] theorem State.powerOnReset_pal (s : State) : (s.powerOnReset).pal = State.reset.pal := rfl
@[simp] theorem State.powerOnReset_z (s : State) : (s.powerOnReset).z = State.reset.z := rfl
@[simp] theorem State.powerOnReset_bitPos (s : State) : (s.powerOnReset).bitPos = State.reset.bitPos := rfl
@[simp] theorem State.powerOnReset_ist (s : State) : (s.powerOnReset).ist = State.reset.ist := rfl
@[simp] theorem State.powerOnReset_bfinal (s : State) : (s.powerOnReset).bfinal = State.reset.bfinal := rfl
@[simp] theorem State.powerOnReset_btype (s : State) : (s.powerOnReset).btype = State.reset.btype := rfl
@[simp] theorem State.powerOnReset_litTab (s : State) : (s.powerOnReset).litTab = State.reset.litTab := rfl
@[simp] theorem State.powerOnReset_distTab (s : State) : (s.powerOnReset).distTab = State.reset.distTab := rfl
@[simp] theorem State.powerOnReset_clTab (s : State) : (s.powerOnReset).clTab = State.reset.clTab := rfl
@[simp] theorem State.powerOnReset_hlit (s : State) : (s.powerOnReset).hlit = State.reset.hlit := rfl
@[simp] theorem State.powerOnReset_hdist (s : State) : (s.powerOnReset).hdist = State.reset.hdist := rfl
@[simp] theorem State.powerOnReset_hclen (s : State) : (s.powerOnReset).hclen = State.reset.hclen := rfl
@[simp] theorem State.powerOnReset_clLen (s : State) : (s.powerOnReset).clLen = State.reset.clLen := rfl
@[simp] theorem State.powerOnReset_lens (s : State) : (s.powerOnReset).lens = State.reset.lens := rfl
@[simp] theorem State.powerOnReset_pendLen (s : State) : (s.powerOnReset).pendLen = State.reset.pendLen := rfl
@[simp] theorem State.powerOnReset_out (s : State) : (s.powerOnReset).out = State.reset.out := rfl
@[simp] theorem State.powerOnReset_row (s : State) : (s.powerOnReset).row = State.reset.row := rfl
@[simp] theorem State.powerOnReset_bpp (s : State) : (s.powerOnReset).bpp = State.reset.bpp := rfl
@[simp] theorem State.powerOnReset_cpr (s : State) : (s.powerOnReset).cpr = State.reset.cpr := rfl
@[simp] theorem State.powerOnReset_pix (s : State) : (s.powerOnReset).pix = State.reset.pix := rfl
@[simp] theorem State.powerOnReset_pixValid (s : State) : (s.powerOnReset).pixValid = State.reset.pixValid := rfl
@[simp] theorem State.powerOnReset_plen (s : State) : (s.powerOnReset).plen = State.reset.plen := rfl
@[simp] theorem State.powerOnReset_px (s : State) : (s.powerOnReset).px = State.reset.px := rfl
@[simp] theorem State.powerOnReset_py (s : State) : (s.powerOnReset).py = State.reset.py := rfl
@[simp] theorem State.powerOnReset_payload (s : State) : (s.powerOnReset).payload = State.reset.payload := rfl
@[simp] theorem State.powerOnReset_payloadValid (s : State) : (s.powerOnReset).payloadValid = State.reset.payloadValid := rfl
@[simp] theorem State.powerOnReset_pixX (s : State) : (s.powerOnReset).pixX = State.reset.pixX := rfl
@[simp] theorem State.powerOnReset_pixY (s : State) : (s.powerOnReset).pixY = State.reset.pixY := rfl
@[simp] theorem State.powerOnReset_pixData (s : State) : (s.powerOnReset).pixData = State.reset.pixData := rfl
@[simp] theorem State.powerOnReset_pixStatus (s : State) : (s.powerOnReset).pixStatus = State.reset.pixStatus := rfl

/-! ### Alignment (41 R203) -/

@[simp] theorem State.alignToByte_host (s : State) : (s.alignToByte).host = s.host := rfl
@[simp] theorem State.alignToByte_busData (s : State) : (s.alignToByte).busData = s.busData := rfl
@[simp] theorem State.alignToByte_boots (s : State) : (s.alignToByte).boots = s.boots := rfl
@[simp] theorem State.alignToByte_inCap (s : State) : (s.alignToByte).inCap = s.inCap := rfl
@[simp] theorem State.alignToByte_outCap (s : State) : (s.alignToByte).outCap = s.outCap := rfl
@[simp] theorem State.alignToByte_sampleFnPresent (s : State) : (s.alignToByte).sampleFnPresent = s.sampleFnPresent := rfl
@[simp] theorem State.alignToByte_phase (s : State) : (s.alignToByte).phase = s.phase := rfl
@[simp] theorem State.alignToByte_err (s : State) : (s.alignToByte).err = s.err := rfl
@[simp] theorem State.alignToByte_headerOnly (s : State) : (s.alignToByte).headerOnly = s.headerOnly := rfl
@[simp] theorem State.alignToByte_inLen (s : State) : (s.alignToByte).inLen = s.inLen := rfl
@[simp] theorem State.alignToByte_input (s : State) : (s.alignToByte).input = s.input := rfl
@[simp] theorem State.alignToByte_pos (s : State) : (s.alignToByte).pos = s.pos := rfl
@[simp] theorem State.alignToByte_hdrValid (s : State) : (s.alignToByte).hdrValid = s.hdrValid := rfl
@[simp] theorem State.alignToByte_width (s : State) : (s.alignToByte).width = s.width := rfl
@[simp] theorem State.alignToByte_height (s : State) : (s.alignToByte).height = s.height := rfl
@[simp] theorem State.alignToByte_bitDepth (s : State) : (s.alignToByte).bitDepth = s.bitDepth := rfl
@[simp] theorem State.alignToByte_colorType (s : State) : (s.alignToByte).colorType = s.colorType := rfl
@[simp] theorem State.alignToByte_compression (s : State) : (s.alignToByte).compression = s.compression := rfl
@[simp] theorem State.alignToByte_filter (s : State) : (s.alignToByte).filter = s.filter := rfl
@[simp] theorem State.alignToByte_interlace (s : State) : (s.alignToByte).interlace = s.interlace := rfl
@[simp] theorem State.alignToByte_pal (s : State) : (s.alignToByte).pal = s.pal := rfl
@[simp] theorem State.alignToByte_z (s : State) : (s.alignToByte).z = s.z := rfl
@[simp] theorem State.alignToByte_bitPos (s : State) : (s.alignToByte).bitPos = 8 * ((s.bitPos + 7) / 8) := rfl
@[simp] theorem State.alignToByte_ist (s : State) : (s.alignToByte).ist = s.ist := rfl
@[simp] theorem State.alignToByte_bfinal (s : State) : (s.alignToByte).bfinal = s.bfinal := rfl
@[simp] theorem State.alignToByte_btype (s : State) : (s.alignToByte).btype = s.btype := rfl
@[simp] theorem State.alignToByte_litTab (s : State) : (s.alignToByte).litTab = s.litTab := rfl
@[simp] theorem State.alignToByte_distTab (s : State) : (s.alignToByte).distTab = s.distTab := rfl
@[simp] theorem State.alignToByte_clTab (s : State) : (s.alignToByte).clTab = s.clTab := rfl
@[simp] theorem State.alignToByte_hlit (s : State) : (s.alignToByte).hlit = s.hlit := rfl
@[simp] theorem State.alignToByte_hdist (s : State) : (s.alignToByte).hdist = s.hdist := rfl
@[simp] theorem State.alignToByte_hclen (s : State) : (s.alignToByte).hclen = s.hclen := rfl
@[simp] theorem State.alignToByte_clLen (s : State) : (s.alignToByte).clLen = s.clLen := rfl
@[simp] theorem State.alignToByte_lens (s : State) : (s.alignToByte).lens = s.lens := rfl
@[simp] theorem State.alignToByte_pendLen (s : State) : (s.alignToByte).pendLen = s.pendLen := rfl
@[simp] theorem State.alignToByte_out (s : State) : (s.alignToByte).out = s.out := rfl
@[simp] theorem State.alignToByte_row (s : State) : (s.alignToByte).row = s.row := rfl
@[simp] theorem State.alignToByte_bpp (s : State) : (s.alignToByte).bpp = s.bpp := rfl
@[simp] theorem State.alignToByte_cpr (s : State) : (s.alignToByte).cpr = s.cpr := rfl
@[simp] theorem State.alignToByte_pix (s : State) : (s.alignToByte).pix = s.pix := rfl
@[simp] theorem State.alignToByte_pixValid (s : State) : (s.alignToByte).pixValid = s.pixValid := rfl
@[simp] theorem State.alignToByte_plen (s : State) : (s.alignToByte).plen = s.plen := rfl
@[simp] theorem State.alignToByte_px (s : State) : (s.alignToByte).px = s.px := rfl
@[simp] theorem State.alignToByte_py (s : State) : (s.alignToByte).py = s.py := rfl
@[simp] theorem State.alignToByte_payload (s : State) : (s.alignToByte).payload = s.payload := rfl
@[simp] theorem State.alignToByte_payloadValid (s : State) : (s.alignToByte).payloadValid = s.payloadValid := rfl
@[simp] theorem State.alignToByte_pixX (s : State) : (s.alignToByte).pixX = s.pixX := rfl
@[simp] theorem State.alignToByte_pixY (s : State) : (s.alignToByte).pixY = s.pixY := rfl
@[simp] theorem State.alignToByte_pixData (s : State) : (s.alignToByte).pixData = s.pixData := rfl
@[simp] theorem State.alignToByte_pixStatus (s : State) : (s.alignToByte).pixStatus = s.pixStatus := rfl

/-! ### Completion (44 R373) -/

@[simp] theorem completePayload_host (s : State) : (completePayload s).host = s.host := rfl
@[simp] theorem completePayload_busData (s : State) : (completePayload s).busData = s.busData := rfl
@[simp] theorem completePayload_boots (s : State) : (completePayload s).boots = s.boots := rfl
@[simp] theorem completePayload_inCap (s : State) : (completePayload s).inCap = s.inCap := rfl
@[simp] theorem completePayload_outCap (s : State) : (completePayload s).outCap = s.outCap := rfl
@[simp] theorem completePayload_sampleFnPresent (s : State) : (completePayload s).sampleFnPresent = s.sampleFnPresent := rfl
@[simp] theorem completePayload_phase (s : State) : (completePayload s).phase = .done := rfl
@[simp] theorem completePayload_err (s : State) : (completePayload s).err = s.err := rfl
@[simp] theorem completePayload_headerOnly (s : State) : (completePayload s).headerOnly = s.headerOnly := rfl
@[simp] theorem completePayload_inLen (s : State) : (completePayload s).inLen = s.inLen := rfl
@[simp] theorem completePayload_input (s : State) : (completePayload s).input = s.input := rfl
@[simp] theorem completePayload_pos (s : State) : (completePayload s).pos = s.pos := rfl
@[simp] theorem completePayload_hdrValid (s : State) : (completePayload s).hdrValid = s.hdrValid := rfl
@[simp] theorem completePayload_width (s : State) : (completePayload s).width = s.width := rfl
@[simp] theorem completePayload_height (s : State) : (completePayload s).height = s.height := rfl
@[simp] theorem completePayload_bitDepth (s : State) : (completePayload s).bitDepth = s.bitDepth := rfl
@[simp] theorem completePayload_colorType (s : State) : (completePayload s).colorType = s.colorType := rfl
@[simp] theorem completePayload_compression (s : State) : (completePayload s).compression = s.compression := rfl
@[simp] theorem completePayload_filter (s : State) : (completePayload s).filter = s.filter := rfl
@[simp] theorem completePayload_interlace (s : State) : (completePayload s).interlace = s.interlace := rfl
@[simp] theorem completePayload_pal (s : State) : (completePayload s).pal = s.pal := rfl
@[simp] theorem completePayload_z (s : State) : (completePayload s).z = s.z := rfl
@[simp] theorem completePayload_bitPos (s : State) : (completePayload s).bitPos = s.bitPos := rfl
@[simp] theorem completePayload_ist (s : State) : (completePayload s).ist = s.ist := rfl
@[simp] theorem completePayload_bfinal (s : State) : (completePayload s).bfinal = s.bfinal := rfl
@[simp] theorem completePayload_btype (s : State) : (completePayload s).btype = s.btype := rfl
@[simp] theorem completePayload_litTab (s : State) : (completePayload s).litTab = s.litTab := rfl
@[simp] theorem completePayload_distTab (s : State) : (completePayload s).distTab = s.distTab := rfl
@[simp] theorem completePayload_clTab (s : State) : (completePayload s).clTab = s.clTab := rfl
@[simp] theorem completePayload_hlit (s : State) : (completePayload s).hlit = s.hlit := rfl
@[simp] theorem completePayload_hdist (s : State) : (completePayload s).hdist = s.hdist := rfl
@[simp] theorem completePayload_hclen (s : State) : (completePayload s).hclen = s.hclen := rfl
@[simp] theorem completePayload_clLen (s : State) : (completePayload s).clLen = s.clLen := rfl
@[simp] theorem completePayload_lens (s : State) : (completePayload s).lens = s.lens := rfl
@[simp] theorem completePayload_pendLen (s : State) : (completePayload s).pendLen = s.pendLen := rfl
@[simp] theorem completePayload_out (s : State) : (completePayload s).out = s.out := rfl
@[simp] theorem completePayload_row (s : State) : (completePayload s).row = s.row := rfl
@[simp] theorem completePayload_bpp (s : State) : (completePayload s).bpp = s.bpp := rfl
@[simp] theorem completePayload_cpr (s : State) : (completePayload s).cpr = s.cpr := rfl
@[simp] theorem completePayload_pix (s : State) : (completePayload s).pix = s.pix := rfl
@[simp] theorem completePayload_pixValid (s : State) : (completePayload s).pixValid = s.pixValid := rfl
@[simp] theorem completePayload_plen (s : State) : (completePayload s).plen = s.plen := rfl
@[simp] theorem completePayload_px (s : State) : (completePayload s).px = s.px := rfl
@[simp] theorem completePayload_py (s : State) : (completePayload s).py = s.py := rfl
@[simp] theorem completePayload_payload (s : State) : (completePayload s).payload = s.payload := rfl
@[simp] theorem completePayload_payloadValid (s : State) : (completePayload s).payloadValid = true := rfl
@[simp] theorem completePayload_pixX (s : State) : (completePayload s).pixX = s.pixX := rfl
@[simp] theorem completePayload_pixY (s : State) : (completePayload s).pixY = s.pixY := rfl
@[simp] theorem completePayload_pixData (s : State) : (completePayload s).pixData = s.pixData := rfl
@[simp] theorem completePayload_pixStatus (s : State) : (completePayload s).pixStatus = s.pixStatus := rfl

end Sys2Proof.Machine
end

