-- ==== Sys2Proof/Laws/Ops.lean ====
section
/-! SUPPORT. Spec lemmas of the shared operations: for each, when it goes on, when it faults, and what it leaves. They are
cited instead of unfolding the operation. -/

namespace Sys2Proof.Machine

open Sys2Proof

/-! ### Sequencing -/

@[simp] theorem Res.bind_ok {α β : Type} (v : α) (s : State) (f : α → State → Res β) : (Res.ok v s).bind f = f v s := rfl

@[simp] theorem Res.bind_raised {α β : Type} (s : State) (f : α → State → Res β) :
    (Res.raised s : Res α).bind f = .raised s := rfl

@[simp] theorem Res.outcome_ok (s : State) : (Res.ok () s).outcome = .next s := rfl

@[simp] theorem Res.outcome_raised (s : State) : (Res.raised s).outcome = .next s := rfl

/-- A finished operation always answers a next state. -/
theorem Res.outcome_eq_next (r : Res Unit) : ∃ t, r.outcome = .next t := by
  cases r <;> exact ⟨_, rfl⟩

/-- Both ways an operation can end keep P. -/
def Res.All {α : Type} (P : State → Prop) : Res α → Prop
  | .ok _ s => P s
  | .raised s => P s

@[simp] theorem Res.all_ok {α : Type} (P : State → Prop) (v : α) (s : State) : (Res.ok v s).All P = P s := rfl

@[simp] theorem Res.all_raised {α : Type} (P : State → Prop) (s : State) : (Res.raised s : Res α).All P = P s := rfl

/-- Sequencing keeps what both parts keep. -/
theorem Res.All.bind {α β : Type} {P : State → Prop} {r : Res α} {f : α → State → Res β} (h : r.All P)
    (hf : ∀ v s, P s → (f v s).All P) : (r.bind f).All P := by
  cases r with
  | ok v s => exact hf v s h
  | raised s => exact h

/-- An operation that goes on leaves P, one that has raised a fault leaves Q. -/
def Res.Ends {α : Type} (P Q : State → Prop) : Res α → Prop
  | .ok _ s => P s
  | .raised s => Q s

@[simp] theorem Res.ends_ok {α : Type} (P Q : State → Prop) (v : α) (s : State) : (Res.ok v s).Ends P Q = P s := rfl

@[simp] theorem Res.ends_raised {α : Type} (P Q : State → Prop) (s : State) : (Res.raised s : Res α).Ends P Q = Q s := rfl

theorem Res.Ends.bind {α β : Type} {P P' Q : State → Prop} {r : Res α} {f : α → State → Res β} (h : r.Ends P Q)
    (hf : ∀ v s, P s → (f v s).Ends P' Q) : (r.bind f).Ends P' Q := by
  cases r with
  | ok v s => exact hf v s h
  | raised s => exact h

theorem Res.Ends.of_outcome {P Q : State → Prop} {r : Res Unit} {t : State} (h : r.Ends P Q) (e : r.outcome = .next t) :
    P t ∨ Q t := by
  cases r <;> cases e
  · exact .inl h
  · exact .inr h

/-- What a finished operation answers keeps what both its ends keep. -/
theorem Res.All.of_outcome {P : State → Prop} {r : Res Unit} {t : State} (h : r.All P) (e : r.outcome = .next t) :
    P t := by
  cases r <;> cases e <;> exact h

theorem raise_eq_faulted (s : State) (d : FaultDetail) (i j : Nat) : s.raise d i j = faulted s d i j := rfl

@[simp] theorem raiseFault_eq {α : Type} (s : State) (d : FaultDetail) (i j : Nat) :
    (raiseFault d i j s : Res α) = .raised (faulted s d i j) := rfl

/-! ### IN -/

@[simp] theorem inBytes_length (s : State) (a n : Nat) : (s.inBytes a n).length = n := by
  induction n generalizing a with
  | zero => rfl
  | succ n ih => simp [State.inBytes, ih]

/-- Byte k of a read of IN is the byte at the address k further on. -/
theorem inBytes_getElem? (s : State) (a n k : Nat) (h : k < n) : (s.inBytes a n)[k]? = some (s.inByte (a + k)) := by
  induction n generalizing a k with
  | zero => omega
  | succ n ih =>
    cases k with
    | zero => simp [State.inBytes]
    | succ k => simp only [State.inBytes, List.getElem?_cons_succ]; rw [ih _ _ (by omega)]; congr 2; omega

/-- A read of IN splits at any point. -/
theorem inBytes_add (s : State) (a m n : Nat) : s.inBytes a (m + n) = s.inBytes a m ++ s.inBytes (a + m) n := by
  induction m generalizing a with
  | zero => simp [State.inBytes]
  | succ m ih =>
    rw [Nat.succ_add_eq_add_succ, show m + n.succ = (m + n) + 1 from rfl]
    simp only [State.inBytes, ih, List.cons_append, List.cons.injEq, true_and]
    congr 2; omega

/-- IN read through two states is the same when every byte read is. -/
theorem inBytes_congr (s t : State) (a n : Nat) (h : ∀ k, a ≤ k → k < a + n → t.inByte k = s.inByte k) :
    t.inBytes a n = s.inBytes a n := by
  induction n generalizing a with
  | zero => rfl
  | succ n ih =>
    simp only [State.inBytes]
    rw [h a (by omega) (by omega), ih (a + 1) (fun k h1 h2 => h k (by omega) (by omega))]

theorem memRead_ok (c a n : Nat) (s : State) (h : a + n ≤ s.inLen.toNat) : memRead c a n s = .ok (s.inBytes a n) s := by
  simp [memRead, Nat.not_lt.mpr h]

theorem memRead_fault (c a n : Nat) (s : State) (h : a + n > s.inLen.toNat) :
    memRead c a n s = .raised (faulted s .truncatedInput c a) := by
  simp [memRead, h]

/-- Everything a read of IN can do. -/
theorem memRead_cases (c a n : Nat) (s : State) :
    (a + n ≤ s.inLen.toNat ∧ memRead c a n s = .ok (s.inBytes a n) s) ∨
    (a + n > s.inLen.toNat ∧ memRead c a n s = .raised (faulted s .truncatedInput c a)) := by
  by_cases h : a + n > s.inLen.toNat
  · exact .inr ⟨h, memRead_fault c a n s h⟩
  · exact .inl ⟨by omega, memRead_ok c a n s (by omega)⟩

/-! ### The bit reader -/

theorem getBits_ok (n : Nat) (s : State) (h : s.bitPos + n ≤ 8 * s.z.length) :
    getBits n s = .ok (bitsAt s.z s.bitPos n) { s with bitPos := s.bitPos + n } := by
  simp [getBits, Nat.not_lt.mpr h]

theorem getBits_fault (n : Nat) (s : State) (h : s.bitPos + n > 8 * s.z.length) :
    getBits n s = .raised (faulted s .truncatedDeflateStream s.bitPos n) := by
  simp [getBits, h]

/-- Everything GetBits can do. -/
theorem getBits_cases (n : Nat) (s : State) :
    (s.bitPos + n ≤ 8 * s.z.length ∧
      getBits n s = .ok (bitsAt s.z s.bitPos n) { s with bitPos := s.bitPos + n }) ∨
    (s.bitPos + n > 8 * s.z.length ∧
      getBits n s = .raised (faulted s .truncatedDeflateStream s.bitPos n)) := by
  by_cases h : s.bitPos + n > 8 * s.z.length
  · exact .inr ⟨h, getBits_fault n s h⟩
  · exact .inl ⟨by omega, getBits_ok n s (by omega)⟩

theorem bitZ_le_one (z : List Byte) (k : Nat) : bitZ z k ≤ 1 := by
  unfold bitZ; split <;> omega

/-- n bits are a value below 2^n. -/
theorem bitsAt_lt (z : List Byte) (p n : Nat) : bitsAt z p n < 2 ^ n := by
  induction n generalizing p with
  | zero => simp [bitsAt]
  | succ n ih =>
    have := bitZ_le_one z p
    have := ih (p + 1)
    simp only [bitsAt, Nat.pow_succ]; omega

/-- Bit i of n bits is the i-th bit of the stream from the position. -/
theorem bitsAt_bit (z : List Byte) (p n i : Nat) (h : i < n) : bitsAt z p n / 2 ^ i % 2 = bitZ z (p + i) := by
  induction n generalizing p i with
  | zero => omega
  | succ n ih =>
    have h1 := bitZ_le_one z p
    cases i with
    | zero => simp only [bitsAt, Nat.pow_zero, Nat.div_one, Nat.add_zero]; omega
    | succ i =>
      simp only [bitsAt]
      rw [Nat.pow_succ', ← Nat.div_div_eq_div_mul,
        show (bitZ z p + 2 * bitsAt z (p + 1) n) / 2 = bitsAt z (p + 1) n by omega, ih _ _ (by omega)]
      congr 1; omega

/-- n bits split at any point. -/
theorem bitsAt_add (z : List Byte) (p m n : Nat) : bitsAt z p (m + n) = bitsAt z p m + 2 ^ m * bitsAt z (p + m) n := by
  induction m generalizing p with
  | zero => simp [bitsAt]
  | succ m ih =>
    rw [Nat.succ_add_eq_add_succ, show m + n.succ = (m + n) + 1 from rfl]
    simp only [bitsAt, ih, Nat.pow_succ]
    rw [show p + 1 + m = p + (m + 1) by omega]; ring

/-- Bits that are those of a value are that value. -/
theorem bitsAt_eq_mod (z : List Byte) (p n v : Nat) (h : ∀ j, j < n → bitZ z (p + j) = v / 2 ^ j % 2) :
    bitsAt z p n = v % 2 ^ n := by
  induction n generalizing p v with
  | zero => simp [bitsAt, Nat.mod_one]
  | succ n ih =>
    have h0 := h 0 (by omega)
    have := ih (p + 1) (v / 2) (fun j hj => by
      rw [Nat.div_div_eq_div_mul, ← Nat.pow_succ', ← h (j + 1) (by omega)]; congr 1; omega)
    simp only [Nat.add_zero, Nat.pow_zero, Nat.div_one] at h0
    rw [bitsAt, h0, this, Nat.pow_succ', Nat.mod_mul]

/-- The 8 bits at a byte boundary are the byte. -/
theorem bitsAt_byte (z : List Byte) (k : Nat) (h : k < z.length) : bitsAt z (8 * k) 8 = (byteAt z k).toNat := by
  rw [bitsAt_eq_mod z (8 * k) 8 (byteAt z k).toNat, Nat.mod_eq_of_lt (byteAt z k).isLt]
  intro j hj
  rw [bitZ, if_pos (by omega), show (8 * k + j) / 8 = k by omega, show (8 * k + j) % 8 = j by omega]

/-! ### OUT -/

@[simp] theorem exceedsCap_none (n : Nat) : exceedsCap n none = false := rfl

/-- A capacity that is not exceeded is not exceeded by fewer bytes. -/
theorem exceedsCap_mono {m n : Nat} {c : Option Nat} (h : exceedsCap n c = false) (hmn : m ≤ n) :
    exceedsCap m c = false := by
  cases c with
  | none => rfl
  | some cap => simp [exceedsCap] at *; omega

theorem appendOut_ok (b : Byte) (s : State) (h : exceedsCap (s.out.length + 1) s.outCap = false) :
    appendOut b s = .ok () { s with out := s.out ++ [b] } := by
  simp [appendOut, h]

theorem appendOut_fault (b : Byte) (s : State) (cap : Nat) (h : s.outCap = some cap) (hc : cap < s.out.length + 1) :
    appendOut b s = .raised (faulted s .outBuffer s.out.length cap) := by
  simp [appendOut, exceedsCap, h, hc]

/-- Everything an append to OUT can do. -/
theorem appendOut_cases (b : Byte) (s : State) :
    (exceedsCap (s.out.length + 1) s.outCap = false ∧ appendOut b s = .ok () { s with out := s.out ++ [b] }) ∨
    (∃ cap, s.outCap = some cap ∧ cap < s.out.length + 1 ∧
      appendOut b s = .raised (faulted s .outBuffer s.out.length cap)) := by
  by_cases h : exceedsCap (s.out.length + 1) s.outCap = false
  · exact .inl ⟨h, appendOut_ok b s h⟩
  · cases hc : s.outCap with
    | none => simp [hc] at h
    | some cap =>
      have hlt : cap < s.out.length + 1 := by simpa [exceedsCap, hc] using h
      exact .inr ⟨cap, rfl, hlt, appendOut_fault b s cap hc hlt⟩

/-! ### Symbol decode -/

/-- HuffDecode where the next bits select a code that fits (41 R210). -/
theorem huffDecode_ok {s : State} {table : Option HuffTable} {l sym : Nat} (h : CodeAt s table l sym) :
    huffDecode table s = .ok sym { s with bitPos := s.bitPos + l } := by
  have hf := h.fits
  simp only [huffDecode, h.selected]
  rw [if_neg (by omega)]

/-- Everything HuffDecode can do. -/
theorem huffDecode_cases (table : Option HuffTable) (s : State) :
    (∃ l sym, CodeAt s table l sym ∧ huffDecode table s = .ok sym { s with bitPos := s.bitPos + l }) ∨
    (s.peekEntry table = none ∧ huffDecode table s = .raised (faulted s .invalidHuffmanCode s.bitPos 0)) ∨
    (∃ l sym, s.peekEntry table = some ⟨l, sym⟩ ∧ s.bitPos + l > 8 * s.z.length ∧
      huffDecode table s = .raised (faulted s .truncatedDeflateStream s.bitPos l)) := by
  cases h : s.peekEntry table with
  | none => exact .inr (.inl ⟨rfl, by simp [huffDecode, h]⟩)
  | some e =>
    obtain ⟨l, sym⟩ := e
    by_cases hl : s.bitPos + l > 8 * s.z.length
    · exact .inr (.inr ⟨l, sym, rfl, hl, by simp [huffDecode, h, hl]⟩)
    · exact .inl ⟨l, sym, ⟨h, by omega⟩, huffDecode_ok ⟨h, by omega⟩⟩

end Sys2Proof.Machine
end

