-- ==== Sys2Proof/Laws/Extract.lean ====
section
/-! SUPPORT. Spec lemmas of the EXTRACT operations. They keep the value of the four channels a variable: the kernel does
not get through a product by 2^24 of a value it cannot evaluate. -/

namespace Sys2Proof.Machine

open Sys2Proof

/-- GetPixel at depth 8, inside a whole image, is the sample of the colour type (44 R360 to R366). -/
theorem getPixel_eight (s : State) (x y : Nat) (hv : s.pixValid = true) (hx : x < s.width.toNat)
    (hy : y < s.height.toNat) (hd : s.bitDepth = 8) : s.getPixel x y = s.channelsAt (y * s.cpr + x * s.bpp) := by
  simp only [State.getPixel, hv, hd]
  rw [if_neg (by simp), if_neg (by omega), if_neg (by simp)]

/-- PLEN once the pixel is read, its value a variable and the ceiling one too (44 R368, R369). -/
theorem execPlen_eq (s : State) (c : Channels) (hc : s.getPixel 0 0 = .ok c) : execPlen s =
    (if channelsValue c > Config.payloadCeiling then
      raiseFault .lengthCeiling (channelsValue c) Config.payloadCeiling s
    else if channelsValue c = 0 then
      .ok () (completePayload { s with plen := BitVec.ofNat 32 (channelsValue c), px := 1, py := 0 })
    else .ok () { s with plen := BitVec.ofNat 32 (channelsValue c), px := 1, py := 0 } : Res Unit).outcome := by
  rw [execPlen, takePixel, hc, Res.bind_ok]

/-- The end of PLEN, by the length read (44 R369, R373). -/
theorem plenEnd_cases (s : State) (n ceiling : Nat) :
    let r : Res Unit :=
      if n > ceiling then raiseFault .lengthCeiling n ceiling s
      else if n = 0 then .ok () (completePayload { s with plen := BitVec.ofNat 32 n, px := 1, py := 0 })
      else .ok () { s with plen := BitVec.ofNat 32 n, px := 1, py := 0 }
    (n > ceiling → r.outcome = .next (faulted s .lengthCeiling n ceiling)) ∧
    (n = 0 → r.outcome = .next { s with plen := 0, px := 1, py := 0, payloadValid := true, phase := .done }) ∧
    (0 < n → n ≤ ceiling → r.outcome = .next { s with plen := BitVec.ofNat 32 n, px := 1, py := 0 }) := by
  refine ⟨fun h => ?_, fun h => ?_, fun h h2 => ?_⟩
  · rw [if_pos h]; rfl
  · subst h; rw [if_neg (by omega), if_pos rfl]; rfl
  · rw [if_neg (by omega), if_neg (by omega)]; rfl

/-- Everything PLEN can do once the pixel is read (44 R368, R369, R373). -/
theorem execPlen_cases (s : State) (c : Channels) (n : Nat) (hc : s.getPixel 0 0 = .ok c) (hn : channelsValue c = n) :
    (n > Config.payloadCeiling → execPlen s = .next (faulted s .lengthCeiling n Config.payloadCeiling)) ∧
    (n = 0 → execPlen s = .next { s with plen := 0, px := 1, py := 0, payloadValid := true, phase := .done }) ∧
    (0 < n → n ≤ Config.payloadCeiling → execPlen s = .next { s with plen := BitVec.ofNat 32 n, px := 1, py := 0 }) := by
  rw [execPlen_eq s c hc, hn]
  exact plenEnd_cases s n Config.payloadCeiling

/-- PLEN where the pixel faults (44 R368). -/
theorem execPlen_fault (s : State) (f : FaultRecord) (hf : s.getPixel 0 0 = .error f) :
    execPlen s = .next (faulted s f.detail f.info0 f.info1) := by
  rw [execPlen, takePixel, hf]; rfl

/-- The column and row of a PIXEL step (44 R370). -/
theorem wrapColumn_eq (s : State) (x y : Nat)
    (h : (x, y) = (if s.px < s.width.toNat then (s.px, s.py) else (0, s.py + 1))) :
    s.wrapColumn = { s with px := x, py := y } := by
  unfold State.wrapColumn
  split at h <;> cases h
  · rw [if_neg (by omega)]
  · rw [if_pos (by omega)]

/-- A PIXEL step whose pixel is read (44 R370, R371, R373). -/
theorem execPixel_ok (s : State) (x y : Nat) (c : Channels)
    (h : (x, y) = (if s.px < s.width.toNat then (s.px, s.py) else (0, s.py + 1))) (hc : s.getPixel x y = .ok c) :
    execPixel s = .next (endExtract { s with
      px := x + 1, py := y
      payload := s.payload ++ (channelsBytes c).take (min 4 (s.plen.toNat - s.payload.length)) }) := by
  have hc' : ({ s with px := x, py := y } : State).getPixel x y = .ok c := hc
  simp only [execPixel, wrapColumn_eq s x y h, takePixel, hc', Res.bind_ok]
  rfl

/-- A PIXEL step whose pixel faults (44 R372). -/
theorem execPixel_fault (s : State) (x y : Nat) (f : FaultRecord)
    (h : (x, y) = (if s.px < s.width.toNat then (s.px, s.py) else (0, s.py + 1))) (hf : s.getPixel x y = .error f) :
    execPixel s = .next (faulted { s with px := x, py := y } f.detail f.info0 f.info1) := by
  have hf' : ({ s with px := x, py := y } : State).getPixel x y = .error f := hf
  simp only [execPixel, wrapColumn_eq s x y h, takePixel, hf', Res.bind_raised, raiseFault_eq]
  rfl

end Sys2Proof.Machine
end

