-- ==== Sys2Proof/Laws/Inflate.lean ====
section
/-! SUPPORT. Spec lemmas of the INFLATE operations: the end of a block, the stored copy, the code-length sequences, the
back-reference copy. -/

namespace Sys2Proof.Machine

open Sys2Proof

/-! ### The end of a block and of the code-length sequence -/

/-- Everything the end of a block can do (42 R240, R258, 43 R320, R321, R331). -/
theorem endBlock_ended (s : State) : ∃ t, (endBlock s).outcome = .next t ∧ BlockEnded s t := by
  unfold BlockEnded endBlock
  cases hf : s.bfinal
  · exact ⟨_, rfl, rfl⟩
  · simp only [if_true, enterUnfilter, Bool.true_eq_false, if_false]
    by_cases hi : s.interlace = 1
    · simp only [hi, if_true]
      exact ⟨_, rfl, rfl⟩
    · simp only [hi, if_false]
      by_cases hh : s.height = 0
      · exact ⟨_, rfl, by simp [endUnfilter, unfilterEntered, hf, hh]⟩
      · have hpos : 0 < s.height.toNat := Nat.pos_of_ne_zero fun h => hh (BitVec.eq_of_toNat_eq h)
        refine ⟨_, rfl, ?_⟩
        rw [if_neg hh]
        simp [endUnfilter, unfilterEntered, hpos, hf]

/-- Everything appending code lengths can do (42 R246, R250). -/
theorem appendLens_appended (lengths : List (BitVec 4)) (s : State) :
    ∃ t, (appendLens lengths s).outcome = .next t ∧ LengthsAppended s lengths t := by
  unfold LengthsAppended appendLens
  dsimp only
  by_cases hl : (s.lens ++ lengths).length = s.hlit + s.hdist
  · simp only [hl, if_true, ne_eq, not_true_eq_false, if_false, buildTables, huffBuild]
    by_cases h1 : overSubscribed (((s.lens ++ lengths).take s.hlit).map BitVec.toNat) = true
    · simp only [h1, if_true, raiseFault_eq, Res.bind_raised]
      exact ⟨_, rfl, rfl⟩
    · simp only [h1, Bool.false_eq_true, if_false, Res.bind_ok]
      by_cases h2 : overSubscribed ((((s.lens ++ lengths).drop s.hlit).take s.hdist).map BitVec.toNat) = true
      · simp only [h2, if_true, raiseFault_eq, Res.bind_raised]
        exact ⟨_, rfl, rfl⟩
      · simp only [h2, Bool.false_eq_true, if_false, Res.bind_ok]
        exact ⟨_, rfl, rfl⟩
  · simp only [hl, if_false, ne_eq, not_false_eq_true, if_true]
    exact ⟨_, rfl, rfl⟩

/-- A repeat that fits appends its lengths (42 R247 to R249). -/
theorem repeatLen_ok (p : Nat) (length : BitVec 4) (r : Nat) (s : State) (h : s.lens.length + r ≤ s.hlit + s.hdist) :
    repeatLen p length r s = appendLens (List.replicate r length) s := by
  simp [repeatLen, Nat.not_lt.mpr h]

/-- A repeat that overruns the sequence faults at its code (42 R247 to R249). -/
theorem repeatLen_fault (p : Nat) (length : BitVec 4) (r : Nat) (s : State) (h : s.lens.length + r > s.hlit + s.hdist) :
    repeatLen p length r s = .raised (faulted s .invalidCodeLengths p 4) := by
  simp [repeatLen, h]

/-! ### Block headers -/

/-- A block header that is whole: three bits, BFINAL from the item and BTYPE from its row (42 R242). -/
theorem takeBlockHeader_ok (f : Bool) (b : BitVec 2) (s : State) (h : s.bitPos + 3 ≤ 8 * s.z.length) :
    takeBlockHeader f b s = .ok () { s with bitPos := s.bitPos + 3, bfinal := f, btype := b } := by
  unfold takeBlockHeader readBlockHeader
  rw [getBits_ok 1 s (by omega), Res.bind_ok, getBits_ok 2 _ (by dsimp only; omega)]
  rfl

/-- The code-length code lengths of a dynamic header, those of the given symbols in order (42 R245). -/
theorem readClLengths_ok (symbols : List Nat) (s : State) (h : s.bitPos + 3 * symbols.length ≤ 8 * s.z.length) :
    ∃ cl, readClLengths symbols s = .ok () { s with bitPos := s.bitPos + 3 * symbols.length, clLen := cl } ∧
      cl.length = s.clLen.length ∧ (∀ k, k ∉ symbols → cl[k]? = s.clLen[k]?) ∧
      (symbols.Nodup → ∀ j k, symbols[j]? = some k → k < s.clLen.length →
        cl[k]? = some (BitVec.ofNat 3 (bitsAt s.z (s.bitPos + 3 * j) 3))) := by
  induction symbols generalizing s with
  | nil => exact ⟨s.clLen, rfl, rfl, fun _ _ => rfl, by simp⟩
  | cons x rest ih =>
    simp only [List.length_cons] at h
    rw [readClLengths, getBits_ok 3 s (by omega), Res.bind_ok]
    obtain ⟨cl, e, hl, hk, hj⟩ := ih
      { s with bitPos := s.bitPos + 3, clLen := s.clLen.set x (BitVec.ofNat 3 (bitsAt s.z s.bitPos 3)) }
      (by dsimp only; omega)
    simp only [List.length_set] at hl
    refine ⟨cl, ?_, hl, fun k hm => ?_, fun hn j k hs hlt => ?_⟩
    · rw [e]; simp only [List.length_cons]; congr 2; omega
    · rw [List.mem_cons, not_or] at hm
      rw [hk k hm.2, List.getElem?_set_ne (Ne.symm hm.1)]
    · rw [List.nodup_cons] at hn
      cases j with
      | zero =>
        simp only [List.getElem?_cons_zero, Option.some.injEq] at hs
        subst hs
        rw [hk x hn.1, List.getElem?_set_self hlt]
        simp
      | succ j =>
        simp only [List.getElem?_cons_succ] at hs
        rw [hj hn.2 j k hs (by simpa using hlt)]
        dsimp only
        congr 3; omega

/-! ### Copies -/

/-- One byte of a stored body (42 R243). -/
theorem copyStored_succ (n : Nat) (s : State) (k : Nat) (hk : s.bitPos = 8 * k) (hlt : k < s.z.length)
    (hc : exceedsCap (s.out.length + 1) s.outCap = false) :
    copyStored (n + 1) s = copyStored n { s with bitPos := 8 * (k + 1), out := s.out ++ [byteAt s.z k] } := by
  rw [copyStored, getBits_ok 8 s (by omega), Res.bind_ok, hk, bitsAt_byte _ _ hlt, appendOut_ok]
  · simp only [Res.bind_ok, BitVec.ofNat_toNat, BitVec.setWidth_eq, Nat.mul_succ]
  · exact hc

/-- The first byte of what is left of Z. -/
theorem drop_eq_byteAt_cons (z : List Byte) (k : Nat) (h : k < z.length) :
    z.drop k = byteAt z k :: z.drop (k + 1) := by
  rw [List.drop_eq_getElem_cons h]
  simp [byteAt, List.getD_eq_getElem?_getD, List.getElem?_eq_getElem h]

/-- A stored body that is whole: its bytes go to OUT (42 R243). -/
theorem copyStored_ok (n : Nat) (s : State) (k : Nat) (hk : s.bitPos = 8 * k) (hz : k + n ≤ s.z.length)
    (hc : exceedsCap (s.out.length + n) s.outCap = false) :
    copyStored n s = .ok () { s with bitPos := s.bitPos + 8 * n, out := s.out ++ (s.z.drop k).take n } := by
  induction n generalizing s k with
  | zero => simp [copyStored]
  | succ n ih =>
    have hlt : k < s.z.length := by omega
    rw [copyStored_succ n s k hk hlt (exceedsCap_mono hc (by omega)), ih _ (k + 1) rfl]
    · rw [drop_eq_byteAt_cons _ _ hlt, List.take_succ_cons, List.append_assoc, List.singleton_append, hk,
        Nat.mul_succ, Nat.mul_succ, Nat.add_assoc, Nat.add_comm 8]
    · dsimp only; omega
    · dsimp only
      rw [List.length_append, List.length_singleton, Nat.add_assoc, Nat.add_comm 1 n]; exact hc

/-- A stored body that runs out: the bytes there were go to OUT and it faults at the end of Z (42 R243, 60 R404). -/
theorem copyStored_short (n : Nat) (s : State) (k : Nat) (hk : s.bitPos = 8 * k) (hle : k ≤ s.z.length)
    (hz : k + n > s.z.length) (hc : exceedsCap (s.out.length + (s.z.length - k)) s.outCap = false) :
    copyStored n s = .raised (faulted
      { s with bitPos := 8 * s.z.length, out := s.out ++ s.z.drop k } .truncatedDeflateStream (8 * s.z.length) 8) := by
  induction n generalizing s k with
  | zero => omega
  | succ n ih =>
    by_cases hlt : k < s.z.length
    · rw [copyStored_succ n s k hk hlt (exceedsCap_mono hc (by omega)), ih _ (k + 1) rfl]
      · rw [drop_eq_byteAt_cons _ _ hlt, List.append_assoc, List.singleton_append]
      · exact hlt
      · dsimp only; omega
      · dsimp only
        rw [List.length_append, List.length_singleton, Nat.add_assoc,
          show 1 + (s.z.length - (k + 1)) = s.z.length - k by omega]
        exact hc
    · have hk' : k = s.z.length := by omega
      rw [copyStored, getBits_fault 8 s (by omega), Res.bind_raised]
      subst hk'
      rw [List.drop_length, List.append_nil, hk]
      simp [← hk]

/-- A back-reference that is in range: each byte written is the one `distance` before it (42 R255). -/
theorem copyBack_ok (distance n : Nat) (s : State) (hd : 1 ≤ distance) (hle : distance ≤ s.out.length)
    (hc : exceedsCap (s.out.length + n) s.outCap = false) :
    ∃ out', copyBack distance n s = .ok () { s with out := out' } ∧ Copied s.out out' n distance := by
  induction n generalizing s with
  | zero => exact ⟨s.out, rfl, by simp, by simp, by simp⟩
  | succ n ih =>
    rw [copyBack, appendOut_ok _ _ (exceedsCap_mono hc (by omega)), Res.bind_ok]
    obtain ⟨out', e, h1, h2, h3⟩ := ih { s with out := s.out ++ [byteAt s.out (s.out.length - distance)] }
      (by simp only [List.length_append, List.length_singleton]; omega)
      (by simp only [List.length_append, List.length_singleton]; rw [Nat.add_assoc, Nat.add_comm 1 n]; exact hc)
    simp only [List.length_append, List.length_singleton] at h1 h2 h3
    have hk : out'.take s.out.length = s.out := by
      have := congrArg (List.take s.out.length) h2
      rwa [List.take_take, Nat.min_eq_left (by omega), List.take_left] at this
    have hx : ∀ i, i ≤ s.out.length → out'[i]? = (s.out ++ [byteAt s.out (s.out.length - distance)])[i]? := by
      intro i hi
      rw [← h2, List.getElem?_take_of_lt (by omega)]
    refine ⟨out', e, by omega, hk, fun k hlt => ?_⟩
    cases k with
    | zero =>
      rw [Nat.add_zero, hx _ (Nat.le_refl _), hx _ (by omega), List.getElem?_append_right (Nat.le_refl _),
        List.getElem?_append_left (by omega)]
      simp [byteAt, List.getD_eq_getElem?_getD, List.getElem?_eq_getElem (show s.out.length - distance < s.out.length by omega)]
    | succ k =>
      have := h3 k (by omega)
      rw [show s.out.length + (k + 1) = s.out.length + 1 + k by omega]
      exact this

/-! ### Copies that reach OUT_CAP -/

/-- A stored copy is one of its first bytes and then one of the rest. -/
theorem copyStored_add (m n : Nat) (s : State) :
    copyStored (m + n) s = (copyStored m s).bind fun _ s => copyStored n s := by
  induction m generalizing s with
  | zero => rw [Nat.zero_add, copyStored, Res.bind_ok]
  | succ m ih =>
    rw [Nat.succ_add_eq_add_succ, show m + n.succ = (m + n) + 1 from rfl, copyStored, copyStored]
    cases getBits 8 s with
    | raised s => rfl
    | ok v s =>
      simp only [Res.bind_ok]
      cases appendOut (BitVec.ofNat 8 v) s with
      | raised s => rfl
      | ok _ s => exact ih s

/-- A back-reference copy is one of its first bytes and then one of the rest. -/
theorem copyBack_add (distance m n : Nat) (s : State) :
    copyBack distance (m + n) s = (copyBack distance m s).bind fun _ s => copyBack distance n s := by
  induction m generalizing s with
  | zero => rw [Nat.zero_add, copyBack, Res.bind_ok]
  | succ m ih =>
    rw [Nat.succ_add_eq_add_succ, show m + n.succ = (m + n) + 1 from rfl, copyBack, copyBack]
    cases appendOut (byteAt s.out (s.out.length - distance)) s with
    | raised s => rfl
    | ok _ s => exact ih s

/-- Bytes up to a capacity do not exceed it. -/
theorem exceedsCap_upTo {n cap : Nat} {c : Option Nat} (hc : c = some cap) (h : n ≤ cap) : exceedsCap n c = false := by
  simp [hc, exceedsCap, h]

/-- A stored body that would pass OUT_CAP: the bytes that fit are kept, and the next, already read, faults (42 R243,
20 R83, 60 R404). -/
theorem copyStored_capped (n : Nat) (s : State) (k room cap : Nat) (hk : s.bitPos = 8 * k) (hc : s.outCap = some cap)
    (hr : s.out.length + room = cap) (hn : room < n) (hz : k + (room + 1) ≤ s.z.length) :
    copyStored n s = .raised (faulted
      { s with bitPos := 8 * (k + (room + 1)), out := s.out ++ (s.z.drop k).take room } .outBuffer cap cap) := by
  obtain ⟨m, rfl⟩ : ∃ m, n = room + (m + 1) := ⟨n - room - 1, by omega⟩
  rw [copyStored_add, copyStored_ok room s k hk (by omega) (exceedsCap_upTo hc (by omega)), Res.bind_ok, copyStored,
    getBits_ok 8 _ (by dsimp only; omega), Res.bind_ok]
  have hl : (s.out ++ (s.z.drop k).take room).length = cap := by
    rw [List.length_append, List.length_take, List.length_drop, Nat.min_eq_left (by omega), hr]
  rw [appendOut_fault _ _ cap (by exact hc) (by dsimp only; omega), Res.bind_raised]
  dsimp only
  rw [hl, hk, show 8 * k + 8 * room + 8 = 8 * (k + (room + 1)) by omega]

/-- A back-reference that would pass OUT_CAP: the bytes that fit are copied, and the next faults (42 R255, 20 R83,
60 R404). -/
theorem copyBack_capped (distance n : Nat) (s : State) (room cap : Nat) (hd : 1 ≤ distance)
    (hle : distance ≤ s.out.length) (hc : s.outCap = some cap) (hr : s.out.length + room = cap) (hn : room < n) :
    ∃ out', copyBack distance n s = .raised (faulted { s with out := out' } .outBuffer cap cap) ∧
      Copied s.out out' room distance := by
  obtain ⟨m, rfl⟩ : ∃ m, n = room + (m + 1) := ⟨n - room - 1, by omega⟩
  obtain ⟨out', e, h⟩ := copyBack_ok distance room s hd hle (exceedsCap_upTo hc (by omega))
  have hl : out'.length = cap := by rw [h.size, hr]
  refine ⟨out', ?_, h⟩
  rw [copyBack_add, e, Res.bind_ok, copyBack, appendOut_fault _ _ cap (by exact hc) (by dsimp only; omega),
    Res.bind_raised]
  dsimp only
  rw [hl]

/-! ### Back-references -/

/-- A distance base is never 0 (30 R122). -/
theorem distanceRow_base_pos (d : Nat) : 1 ≤ (distanceRow d).base := by
  by_cases h : d < 30
  · revert d; decide
  · simp [distanceRow, List.getD_eq_getElem?_getD,
      List.getElem?_eq_none (show distanceTable.length ≤ d by simp [distanceTable]; omega)]

/-- DIST() once its code is decoded, where its extra bits are there and it is within OUT (42 R254). -/
theorem distanceOf_ok (p d : Nat) (s : State) (hd : d ≤ 29) (hf : s.bitPos + (distanceRow d).extra ≤ 8 * s.z.length)
    (hl : (distanceRow d).base + bitsAt s.z s.bitPos (distanceRow d).extra ≤ s.out.length) :
    distanceOf p d s = .ok ((distanceRow d).base + bitsAt s.z s.bitPos (distanceRow d).extra)
      { s with bitPos := s.bitPos + (distanceRow d).extra } := by
  unfold distanceOf
  generalize distanceRow d = row at *
  rw [if_neg (by omega), getBits_ok _ _ hf, Res.bind_ok]
  dsimp only
  rw [if_neg (by omega)]

/-- A distance past the start of OUT faults after its extra bits (42 R254). -/
theorem distanceOf_far (p d : Nat) (s : State) (hd : d ≤ 29) (hf : s.bitPos + (distanceRow d).extra ≤ 8 * s.z.length)
    (hl : (distanceRow d).base + bitsAt s.z s.bitPos (distanceRow d).extra > s.out.length) :
    distanceOf p d s = .raised (faulted { s with bitPos := s.bitPos + (distanceRow d).extra } .invalidDistance p
      ((distanceRow d).base + bitsAt s.z s.bitPos (distanceRow d).extra)) := by
  unfold distanceOf
  generalize distanceRow d = row at *
  rw [if_neg (by omega), getBits_ok _ _ hf, Res.bind_ok]
  dsimp only
  rw [if_pos hl, raiseFault_eq]

/-- A distance whose extra bits are cut off faults at them (42 R254, 41 R201). -/
theorem distanceOf_cut (p d : Nat) (s : State) (hd : d ≤ 29) (hf : s.bitPos + (distanceRow d).extra > 8 * s.z.length) :
    distanceOf p d s = .raised (cutAt s s.bitPos (distanceRow d).extra) := by
  unfold distanceOf
  generalize distanceRow d = row at *
  rw [if_neg (by omega), getBits_fault _ _ hf, Res.bind_raised]
  rfl

/-- A length item up to its distance code: its code and extra bits consumed (42 R253). The row is a variable, so that no
step of a proof evaluates the table. -/
theorem lengthOp_ok {s : State} {code l : Nat} (row : BaseExtra) (hr : lengthRow code = row)
    (h : CodeAt s s.litTab l code) (hf : s.bitPos + l + row.extra ≤ 8 * s.z.length) :
    lengthOp code s = (huffDecode s.distTab { s with bitPos := s.bitPos + l + row.extra }).bind fun d s' =>
      finishReference (s.bitPos + l + row.extra) d (row.base + bitsAt s.z (s.bitPos + l) row.extra) s' := by
  unfold lengthOp
  rw [hr, huffDecode_ok h, Res.bind_ok, getBits_ok _ _ hf, Res.bind_ok]

/-- The meaning of every length item is the one shared operation at its code (42 R253). -/
theorem exec_of_lengthCode {i : Instr} {code : Nat} (s : State) (h : i.lengthCode = some code) :
    exec i s = (lengthOp code s).outcome := by
  cases i <;> simp only [Instr.lengthCode, reduceCtorEq, Option.some.injEq] at h <;> subst h <;> rfl

/-- The meaning of every distance item is the one shared operation at its code, 0 to 29 (42 R254). -/
theorem exec_of_distanceCode {i : Instr} {d : Nat} (s : State) (h : i.distanceCode = some d) :
    d ≤ 29 ∧ exec i s = (distanceOp d s).outcome := by
  cases i <;> simp only [Instr.distanceCode, reduceCtorEq, Option.some.injEq] at h <;> subst h <;>
    exact ⟨by decide, rfl⟩

end Sys2Proof.Machine
end

