-- ==== Sys2Proof/Laws/Memory.lean ====
section
/-! SUPPORT. IN as a list of cells: a write is read back, leaves every other byte, and keeps the canonical form. -/

namespace Sys2Proof.Machine

theorem Memory.read_write_same (m : Memory) (a : Nat) (v : Byte) : (m.write a v).read a = some v := by
  induction m with
  | nil => simp [Memory.write, Memory.read]
  | cons c rest ih =>
    obtain ⟨b, w⟩ := c
    simp only [Memory.write]
    split
    · simp [Memory.read]
    · split
      · simp [Memory.read]
      · rename_i h; simp only [Memory.read, if_neg h]; exact ih

theorem Memory.read_write_other (m : Memory) (a k : Nat) (v : Byte) (h : k ≠ a) : (m.write a v).read k = m.read k := by
  induction m with
  | nil => simp [Memory.write, Memory.read, h]
  | cons c rest ih =>
    obtain ⟨b, w⟩ := c
    simp only [Memory.write]
    split
    · simp [Memory.read, h]
    · split
      · rename_i e; subst e; simp [Memory.read, h]
      · simp only [Memory.read, ih]

theorem Memory.wf_cons (a : Host.Cell) (m : Memory) :
    Memory.wf (a :: m) = true ↔ (∀ c, m.head? = some c → a.1 < c.1) ∧ Memory.wf m = true := by
  cases m with
  | nil => simp [Memory.wf]
  | cons b rest => simp [Memory.wf]

/-- The first address after a write is the written one or the old first one. -/
theorem Memory.head_write (m : Memory) (a : Nat) (v : Byte) (c : Host.Cell) (h : (m.write a v).head? = some c) :
    c.1 = a ∨ ∃ d, m.head? = some d ∧ c.1 = d.1 := by
  cases m with
  | nil => simp [Memory.write] at h; left; rw [← h]
  | cons e rest =>
    obtain ⟨b, w⟩ := e
    simp only [Memory.write] at h
    split at h
    · simp at h; left; rw [← h]
    · split at h
      · simp at h; left; rw [← h]
      · simp at h; right; exact ⟨_, rfl, by rw [← h]⟩

/-- A write keeps the addresses strictly rising. -/
theorem Memory.wf_write (m : Memory) (a : Nat) (v : Byte) (h : m.wf = true) : (m.write a v).wf = true := by
  induction m with
  | nil => rfl
  | cons c rest ih =>
    obtain ⟨b, w⟩ := c
    obtain ⟨h1, h2⟩ := (Memory.wf_cons _ _).1 h
    simp only [Memory.write]
    split
    · rename_i hlt
      exact (Memory.wf_cons _ _).2 ⟨by simpa using hlt, h⟩
    · split
      · rename_i e; subst e
        exact (Memory.wf_cons _ _).2 ⟨h1, h2⟩
      · refine (Memory.wf_cons _ _).2 ⟨fun c hc => ?_, ih h2⟩
        rcases Memory.head_write _ _ _ _ hc with e | ⟨d, hd, e⟩
        · rw [e]; show b < a; omega
        · rw [e]; exact h1 d hd

theorem Memory.wf_reset : Memory.wf State.reset.input = true := rfl

end Sys2Proof.Machine
end

