-- ==== Sys2Proof/Laws/Parse.lean ====
section
/-! SUPPORT. Spec lemmas of the PARSE stage: the frame of a chunk, and the order check. -/

namespace Sys2Proof.Machine

open Sys2Proof

theorem be_append (a b : List Byte) : be (a ++ b) = be a * 256 ^ b.length + be b := by
  induction b using List.reverseRecOn with
  | nil => simp [be]
  | append_singleton b x ih =>
    have h : ∀ (l : List Byte) (y : Byte), be (l ++ [y]) = be l * 256 + y.toNat := fun l y => by simp [be]
    rw [← List.append_assoc, h, h, ih]
    simp only [List.length_append, List.length_cons, List.length_nil, Nat.pow_add]
    ring

theorem be_lt (a : List Byte) : be a < 256 ^ a.length := by
  induction a using List.reverseRecOn with
  | nil => simp [be]
  | append_singleton a x ih =>
    have := x.isLt
    rw [be_append]
    simp only [List.length_append, List.length_cons, List.length_nil, Nat.pow_add, be, List.foldl]
    simp only [be] at ih
    omega

/-- LENGTH and TYPE where they are whole. -/
theorem chunkHead_ok (s : State) (h : s.pos + 8 ≤ s.inLen.toNat) :
    chunkHead s = .ok (be (s.inBytes s.pos 4), BitVec.ofNat 32 (be (s.inBytes (s.pos + 4) 4))) s := by
  rw [chunkHead, memRead_ok _ _ _ _ h, Res.bind_ok, show (8 : Nat) = 4 + 4 from rfl, inBytes_add]
  simp

/-- A chunk that is whole: its frame is read and the cursor moved past it (40 R152). -/
theorem chunkFrame_ok {s : State} {n : Nat} {type : BitVec 32} {data : List Byte} (h : ChunkAt s n type data) :
    chunkFrame s = .ok ⟨s.pos, n, type, data⟩ { s with pos := s.pos + 12 + n } := by
  have hw := h.whole
  simp only [chunkFrame]
  rw [chunkHead_ok s (by omega), Res.bind_ok, h.length_eq, h.type_eq]
  simp only []
  rw [memRead_ok _ _ _ _ (by omega), Res.bind_ok, memRead_ok _ _ _ _ (by omega), Res.bind_ok, h.data_eq]
  simp

/-- Everything the framing can do. -/
theorem chunkFrame_cases (s : State) :
    (∃ n type data, ChunkAt s n type data ∧
      chunkFrame s = .ok ⟨s.pos, n, type, data⟩ { s with pos := s.pos + 12 + n }) ∨
    (s.pos + 8 > s.inLen.toNat ∧ chunkFrame s = .raised (faulted s .truncatedInput s.pos s.pos)) ∨
    (s.pos + 8 ≤ s.inLen.toNat ∧ s.pos + 8 + be (s.inBytes s.pos 4) > s.inLen.toNat ∧
      chunkFrame s = .raised (faulted s .truncatedInput s.pos (s.pos + 8))) ∨
    (s.pos + 8 + be (s.inBytes s.pos 4) ≤ s.inLen.toNat ∧ s.pos + 12 + be (s.inBytes s.pos 4) > s.inLen.toNat ∧
      chunkFrame s = .raised (faulted s .truncatedInput s.pos (s.pos + 8 + be (s.inBytes s.pos 4)))) := by
  by_cases h8 : s.pos + 8 ≤ s.inLen.toNat
  · have hh := chunkHead_ok s h8
    by_cases hd : s.pos + 8 + be (s.inBytes s.pos 4) ≤ s.inLen.toNat
    · by_cases hc : s.pos + 12 + be (s.inBytes s.pos 4) ≤ s.inLen.toNat
      · have ht : be (s.inBytes (s.pos + 4) 4) = (BitVec.ofNat 32 (be (s.inBytes (s.pos + 4) 4))).toNat := by
          have := be_lt (s.inBytes (s.pos + 4) 4)
          rw [inBytes_length] at this
          rw [BitVec.toNat_ofNat, Nat.mod_eq_of_lt (by omega)]
        have hca : ChunkAt s (be (s.inBytes s.pos 4)) (BitVec.ofNat 32 (be (s.inBytes (s.pos + 4) 4)))
            (s.inBytes (s.pos + 8) (be (s.inBytes s.pos 4))) := ⟨hc, rfl, ht, rfl⟩
        exact .inl ⟨_, _, _, hca, chunkFrame_ok hca⟩
      · refine .inr (.inr (.inr ⟨hd, by omega, ?_⟩))
        simp only [chunkFrame]
        rw [hh, Res.bind_ok]
        simp only []
        rw [memRead_ok _ _ _ _ hd, Res.bind_ok, memRead_fault _ _ _ _ (by omega), Res.bind_raised]
    · refine .inr (.inr (.inl ⟨h8, by omega, ?_⟩))
      simp only [chunkFrame]
      rw [hh, Res.bind_ok]
      simp only []
      rw [memRead_fault _ _ _ _ (by omega), Res.bind_raised]
  · refine .inr (.inl ⟨by omega, ?_⟩)
    simp only [chunkFrame, chunkHead]
    rw [memRead_fault _ _ _ _ (by omega), Res.bind_raised, Res.bind_raised]

/-- The frame of a chunk after IHDR (40 R153). -/
theorem chunkAfterHeader_ok {s : State} {n : Nat} {type : BitVec 32} {data : List Byte} (h : ChunkAt s n type data)
    (hv : s.hdrValid = true) :
    chunkAfterHeader s = .ok ⟨s.pos, n, type, data⟩ { s with pos := s.pos + 12 + n } := by
  simp [chunkAfterHeader, chunkFrame_ok h, hv]

/-- A chunk before IHDR faults once its frame is read (40 R153). -/
theorem chunkAfterHeader_order {s : State} {n : Nat} {type : BitVec 32} {data : List Byte} (h : ChunkAt s n type data)
    (hv : s.hdrValid = false) :
    chunkAfterHeader s = .raised (faulted { s with pos := s.pos + 12 + n } .chunkOrder s.pos 0) := by
  simp [chunkAfterHeader, chunkFrame_ok h, hv]

/-- The entries of a PLTE payload of 3n bytes: n of them, entry k from bytes 3k, 3k+1, 3k+2 (30 R115). -/
theorem paletteEntries_spec (n : Nat) (data : List Byte) (h : data.length = 3 * n) :
    (paletteEntries data).length = n ∧
    ∀ k, k < n →
      (paletteEntries data)[k]? = some ⟨byteAt data (3 * k), byteAt data (3 * k + 1), byteAt data (3 * k + 2)⟩ := by
  induction n generalizing data with
  | zero =>
    have : data = [] := List.eq_nil_of_length_eq_zero h
    subst this
    simp [paletteEntries]
  | succ n ih =>
    match data, h with
    | r :: g :: b :: rest, h =>
      obtain ⟨h1, h2⟩ := ih rest (by simp at h; omega)
      refine ⟨by simp [paletteEntries, h1], fun k hk => ?_⟩
      cases k with
      | zero => simp [paletteEntries, byteAt]
      | succ k =>
        simp only [paletteEntries, List.getElem?_cons_succ, h2 k (by omega)]
        simp [byteAt, show 3 * (k + 1) = 3 * k + 1 + 1 + 1 by omega]

end Sys2Proof.Machine
end

