-- ==== Sys2Proof/Laws/Frames.lean ====
section
/-! SUPPORT. Frames: for each stage, what its operations leave as it was, whether they end well or in a fault. The
INFLATE and PARSE operations are taken once, for any property P of states that survives the fields they write and that a fault makes
Q; `…Rest s` blanks fields, and two states with the same rest agree on every other field. -/

namespace Sys2Proof.Machine

open Sys2Proof

/-! ### What survives the shared operations -/

/-- P survives a move of the bit cursor, and a fault makes it Q. -/
structure BitsKeep (P Q : State → Prop) : Prop where
  cursor : ∀ s p, P s → P { s with bitPos := p }
  fault : ∀ s d i j, P s → Q (faulted s d i j)

/-- P survives bytes appended to OUT as well. -/
structure OutKeeps (P Q : State → Prop) : Prop extends BitsKeep P Q where
  out : ∀ s b, P s → P { s with out := s.out ++ [b] }

/-- P survives what the end of a block writes. -/
structure BlockEndKeeps (P : State → Prop) : Prop where
  next : ∀ s ist, P s → P { s with ist := ist }
  enter : ∀ s phase row bpp cpr valid, P s →
    P { s with phase := phase, row := row, bpp := bpp, cpr := cpr, pixValid := valid }

variable {P Q : State → Prop}

theorem getBits_keeps (k : BitsKeep P Q) {s : State} (h : P s) (n : Nat) : (getBits n s).Ends P Q := by
  rcases getBits_cases n s with ⟨-, e⟩ | ⟨-, e⟩ <;> rw [e]
  · exact k.cursor _ _ h
  · exact k.fault _ _ _ _ h

theorem huffDecode_keeps (k : BitsKeep P Q) {s : State} (h : P s) (t : Option HuffTable) : (huffDecode t s).Ends P Q := by
  rcases huffDecode_cases t s with ⟨_, _, -, e⟩ | ⟨-, e⟩ | ⟨_, _, -, -, e⟩ <;> rw [e]
  · exact k.cursor _ _ h
  · exact k.fault _ _ _ _ h
  · exact k.fault _ _ _ _ h

theorem huffBuild_keeps (k : BitsKeep P Q) {s : State} (h : P s) (n : Nat) (ls : List Nat) : (huffBuild n ls s).Ends P Q := by
  unfold huffBuild
  split
  · exact k.fault _ _ _ _ h
  · exact h

theorem appendOut_keeps (k : OutKeeps P Q) {s : State} (h : P s) (b : Byte) : (appendOut b s).Ends P Q := by
  rcases appendOut_cases b s with ⟨-, e⟩ | ⟨c, -, -, e⟩ <;> rw [e]
  · exact k.out _ _ h
  · exact k.fault _ _ _ _ h

theorem copyBack_keeps (k : OutKeeps P Q) (d n : Nat) {s : State} (h : P s) : (copyBack d n s).Ends P Q := by
  induction n generalizing s with
  | zero => exact h
  | succ n ih => exact (appendOut_keeps k h _).bind fun _ _ h => ih h

theorem copyStored_keeps (k : OutKeeps P Q) (n : Nat) {s : State} (h : P s) : (copyStored n s).Ends P Q := by
  induction n generalizing s with
  | zero => exact h
  | succ n ih => exact (getBits_keeps k.toBitsKeep h _).bind fun _ _ h => (appendOut_keeps k h _).bind fun _ _ h => ih h

theorem readZlibHeader_keeps (k : BitsKeep P Q) {s : State} (h : P s) : (readZlibHeader s).Ends P Q :=
  (getBits_keeps k h _).bind fun _ _ h => (getBits_keeps k h _).bind fun _ _ h => h

/-- The end of a block, also when it enters UNFILTER (42 R240, R258, 43 R320, R321). -/
theorem endBlock_keeps (k : BitsKeep P Q) (e : BlockEndKeeps P) {s : State} (h : P s) : (endBlock s).Ends P Q := by
  unfold endBlock
  split
  · have h1 := e.enter _ .unfilter 0 s.bpp s.cpr s.pixValid (e.next s .idone h)
    unfold enterUnfilter
    dsimp only
    split
    · exact k.fault _ _ _ _ h1
    · unfold endUnfilter
      dsimp only [Res.ends_ok]
      split
      · exact e.enter _ _ _ _ _ _ h1
      · exact e.enter _ _ _ _ _ _ h1
  · exact e.next _ _ h

/-- A block header, for a P that survives BFINAL and BTYPE too (42 R242). -/
theorem takeBlockHeader_keeps (k : BitsKeep P Q) (hw : ∀ s f b, P s → P { s with bfinal := f, btype := b }) {s : State}
    (h : P s) (f : Bool) (b : BitVec 2) : (takeBlockHeader f b s).Ends P Q := by
  refine Res.Ends.bind ?_ fun _ s h => hw s f b h
  refine (getBits_keeps k h _).bind fun v s h => ?_
  exact (getBits_keeps k (hw s (v == 1) s.btype h) _).bind fun t s h => hw s s.bfinal _ h

/-- The body of a stored block (42 R243). -/
theorem storedBody_keeps (k : OutKeeps P Q) (e : BlockEndKeeps P) {s : State} (h : P s) : (storedBody s).Ends P Q := by
  unfold storedBody
  dsimp only
  have ha : P s.alignToByte := k.cursor _ _ h
  refine (getBits_keeps k.toBitsKeep ha _).bind fun len s h => (getBits_keeps k.toBitsKeep h _).bind fun nlen s h => ?_
  split
  · exact k.fault _ _ _ _ h
  · exact (copyStored_keeps k len h).bind fun _ _ h => endBlock_keeps k.toBitsKeep e h

theorem readClLengths_keeps (k : BitsKeep P Q) (hw : ∀ s cl, P s → P { s with clLen := cl }) (l : List Nat) {s : State}
    (h : P s) : (readClLengths l s).Ends P Q := by
  induction l generalizing s with
  | nil => exact h
  | cons x l ih => exact (getBits_keeps k h _).bind fun v s h => ih (hw s _ h)

/-- The header of a dynamic block, for a P that survives its registers (42 R245). -/
theorem dynamicHeader_keeps (k : BitsKeep P Q)
    (hw : ∀ s hlit hdist hclen cl t ls ist, P s →
      P { s with hlit := hlit, hdist := hdist, hclen := hclen, clLen := cl, clTab := t, lens := ls, ist := ist })
    {s : State} (h : P s) : (dynamicHeader s).Ends P Q :=
  (getBits_keeps k h _).bind fun hlit s h =>
  (getBits_keeps k (hw s (hlit + 257) s.hdist s.hclen s.clLen s.clTab s.lens s.ist h) _).bind fun hdist s h =>
  (getBits_keeps k (hw s s.hlit (hdist + 1) s.hclen s.clLen s.clTab s.lens s.ist h) _).bind fun hclen s h =>
  (readClLengths_keeps k (fun s cl h => hw s s.hlit s.hdist s.hclen cl s.clTab s.lens s.ist h) _
    (hw s s.hlit s.hdist (hclen + 4) (List.replicate 19 0) s.clTab s.lens s.ist h)).bind fun _ _ h =>
  (huffBuild_keeps k h _ _).bind fun t s h => hw s s.hlit s.hdist s.hclen s.clLen (some t) [] .clseq h

/-- A code-length item after its code, for a P that survives the sequence and the tables it may build (42 R246, R250). -/
theorem appendLens_keeps (k : BitsKeep P Q)
    (hw : ∀ s ls lt dt ist, P s → P { s with lens := ls, litTab := lt, distTab := dt, ist := ist }) {s : State} (h : P s)
    (ls : List (BitVec 4)) : (appendLens ls s).Ends P Q := by
  have h1 := hw s (s.lens ++ ls) s.litTab s.distTab s.ist h
  unfold appendLens
  dsimp only
  split
  · exact (huffBuild_keeps k h1 _ _).bind fun t s h =>
      (huffBuild_keeps k (hw s s.lens (some t) s.distTab s.ist h) _ _).bind fun t s h =>
        hw s s.lens s.litTab (some t) .codes h
  · exact h1

theorem repeatLen_keeps (k : BitsKeep P Q)
    (hw : ∀ s ls lt dt ist, P s → P { s with lens := ls, litTab := lt, distTab := dt, ist := ist }) {s : State} (h : P s)
    (p r : Nat) (l : BitVec 4) : (repeatLen p l r s).Ends P Q := by
  unfold repeatLen
  split
  · exact k.fault _ _ _ _ h
  · exact appendLens_keeps k hw h _

/-- A distance and its copy (42 R254, R255). -/
theorem finishReference_keeps (k : OutKeeps P Q) {s : State} (h : P s) (p d n : Nat) : (finishReference p d n s).Ends P Q := by
  refine Res.Ends.bind ?_ fun _ _ h => copyBack_keeps k _ _ h
  unfold distanceOf
  split
  · exact k.fault _ _ _ _ h
  · refine (getBits_keeps k.toBitsKeep h _).bind fun e s h => ?_
    dsimp only
    split
    · exact k.fault _ _ _ _ h
    · exact h

/-- A length item, all of it (42 R253). -/
theorem lengthOp_keeps (k : OutKeeps P Q) {s : State} (h : P s) (c : Nat) : (lengthOp c s).Ends P Q := by
  unfold lengthOp
  generalize lengthRow c = row
  exact (huffDecode_keeps k.toBitsKeep h _).bind fun _ s h => (getBits_keeps k.toBitsKeep h _).bind fun _ s h =>
    (huffDecode_keeps k.toBitsKeep h _).bind fun _ s h => finishReference_keeps k h _ _ _

/-- A distance item on its own, for a P that survives the pending length (42 R254; log 8). -/
theorem distanceOp_keeps (k : OutKeeps P Q) (hw : ∀ s, P s → P { s with pendLen := none }) {s : State} (h : P s) (d : Nat) :
    (distanceOp d s).Ends P Q :=
  (huffDecode_keeps k.toBitsKeep h _).bind fun _ s h => finishReference_keeps k (hw s h) _ _ _

/-! ### The items of INFLATE, by what they write -/

theorem exec_zlib_keeps (k : BitsKeep P Q) (hw : ∀ s ist, P s → P { s with ist := ist }) {i : Instr} {s t : State}
    (hi : i.alphabet = .zlib) (h : P s) (e : exec i s = .next t) : P t ∨ Q t := by
  cases i <;> simp only [Instr.alphabet, reduceCtorEq] at hi <;> simp only [exec] at e
  case zhdr => exact Res.Ends.of_outcome ((readZlibHeader_keeps k h).bind fun _ s h => by exact hw s _ h) e
  case zhdrBad => exact Res.Ends.of_outcome ((readZlibHeader_keeps k h).bind fun _ s h => by exact k.fault _ _ _ _ h) e

theorem exec_blkStored_keeps (k : OutKeeps P Q) (b : BlockEndKeeps P)
    (hw : ∀ s f b, P s → P { s with bfinal := f, btype := b }) {f : Bool} {s t : State} (h : P s)
    (e : exec (.blkStored f) s = .next t) : P t ∨ Q t :=
  Res.Ends.of_outcome ((takeBlockHeader_keeps k.toBitsKeep hw h _ _).bind fun _ _ h => storedBody_keeps k b h) e

theorem exec_blkFixed_keeps (k : BitsKeep P Q) (hw : ∀ s f b, P s → P { s with bfinal := f, btype := b })
    (ht : ∀ s lt dt ist, P s → P { s with litTab := lt, distTab := dt, ist := ist }) {f : Bool} {s t : State} (h : P s)
    (e : exec (.blkFixed f) s = .next t) : P t ∨ Q t :=
  Res.Ends.of_outcome ((takeBlockHeader_keeps k hw h _ _).bind fun _ s h => by exact ht s _ _ _ h) e

theorem exec_blkDynamic_keeps (k : BitsKeep P Q) (hw : ∀ s f b, P s → P { s with bfinal := f, btype := b })
    (hd : ∀ s hlit hdist hclen cl t ls ist, P s →
      P { s with hlit := hlit, hdist := hdist, hclen := hclen, clLen := cl, clTab := t, lens := ls, ist := ist })
    {f : Bool} {s t : State} (h : P s) (e : exec (.blkDynamic f) s = .next t) : P t ∨ Q t :=
  Res.Ends.of_outcome ((takeBlockHeader_keeps k hw h _ _).bind fun _ _ h => dynamicHeader_keeps k hd h) e

theorem exec_blkInvalid_keeps (k : BitsKeep P Q) (hw : ∀ s f b, P s → P { s with bfinal := f, btype := b }) {f : Bool}
    {s t : State} (h : P s) (e : exec (.blkInvalid f) s = .next t) : P t ∨ Q t :=
  Res.Ends.of_outcome ((takeBlockHeader_keeps k hw h _ _).bind fun _ _ h => by exact k.fault _ _ _ _ h) e

theorem exec_cl_keeps (k : BitsKeep P Q)
    (hw : ∀ s ls lt dt ist, P s → P { s with lens := ls, litTab := lt, distTab := dt, ist := ist }) {i : Instr}
    {s t : State} (hi : i.alphabet = .cl) (h : P s) (e : exec i s = .next t) : P t ∨ Q t := by
  cases i <;> simp only [Instr.alphabet, reduceCtorEq] at hi <;> simp only [exec] at e
  case clen => exact Res.Ends.of_outcome ((huffDecode_keeps k h _).bind fun _ _ h => appendLens_keeps k hw h _) e
  case repprev =>
    refine Res.Ends.of_outcome ((huffDecode_keeps k h _).bind fun _ s h => ?_) e
    split
    · exact k.fault _ _ _ _ h
    · exact (getBits_keeps k h _).bind fun _ _ h => repeatLen_keeps k hw h _ _ _
  all_goals
    exact Res.Ends.of_outcome ((huffDecode_keeps k h _).bind fun _ s h =>
      (getBits_keeps k h _).bind fun _ _ h => repeatLen_keeps k hw h _ _ _) e

theorem exec_eob_keeps (k : BitsKeep P Q) (b : BlockEndKeeps P) {s t : State} (h : P s) (e : exec .eob s = .next t) : P t ∨ Q t :=
  Res.Ends.of_outcome ((huffDecode_keeps k h _).bind fun _ _ h => endBlock_keeps k b h) e

/-- Every literal/length item but EOB. -/
theorem exec_ll_keeps (k : OutKeeps P Q) {i : Instr} {s t : State} (hi : i.alphabet = .ll) (hne : i ≠ .eob) (h : P s)
    (e : exec i s = .next t) : P t ∨ Q t := by
  cases i <;> simp only [Instr.alphabet, reduceCtorEq] at hi <;> simp only [exec] at e
  case lit =>
    exact Res.Ends.of_outcome ((huffDecode_keeps k.toBitsKeep h _).bind fun _ s h => appendOut_keeps k h _) e
  case eob => exact absurd rfl hne
  case llInvalid =>
    exact Res.Ends.of_outcome ((huffDecode_keeps k.toBitsKeep h _).bind fun _ s h => by exact k.fault _ _ _ _ h) e
  all_goals exact Res.Ends.of_outcome (lengthOp_keeps k h _) e

theorem exec_dist_keeps (k : OutKeeps P Q) (hw : ∀ s, P s → P { s with pendLen := none }) {i : Instr} {s t : State}
    (hi : i.alphabet = .dist) (h : P s) (e : exec i s = .next t) : P t ∨ Q t := by
  cases i <;> simp only [Instr.alphabet, reduceCtorEq] at hi <;> simp only [exec] at e
  all_goals exact Res.Ends.of_outcome (distanceOp_keeps k hw h _) e

/-! ### INFLATE -/

/-- The fields no INFLATE operation writes. -/
def inflateRest (s : State) : State :=
  { s with
    phase := .idle, err := none, bitPos := 0, ist := .zhdr, bfinal := false, btype := 0, litTab := none, distTab := none
    clTab := none, hlit := 0, hdist := 0, hclen := 0, clLen := [], lens := [], pendLen := none, out := [], row := 0
    bpp := 0, cpr := 0, pixValid := false, payload := [], payloadValid := false }

/-- From s to t an INFLATE operation may go: the rest is the same and OUT has only grown. -/
def InflateFrame (s t : State) : Prop := inflateRest t = inflateRest s ∧ s.out <+: t.out

theorem InflateFrame.refl (s : State) : InflateFrame s s := ⟨rfl, List.prefix_rfl⟩

theorem inflateFrame_outKeeps (s0 : State) : OutKeeps (InflateFrame s0) (InflateFrame s0) where
  cursor _ _ h := h
  fault _ _ _ _ h := h
  out _ _ h := ⟨h.1, h.2.trans (List.prefix_append _ _)⟩

theorem inflateFrame_blockEndKeeps (s0 : State) : BlockEndKeeps (InflateFrame s0) where
  next _ _ h := h
  enter _ _ _ _ _ _ h := h

/-- What an item of INFLATE leaves. -/
theorem exec_inflateFrame {i : Instr} {s t : State}
    (hi : i.alphabet = .zlib ∨ i.alphabet = .bhdr ∨ i.alphabet = .cl ∨ i.alphabet = .ll ∨ i.alphabet = .dist)
    (e : exec i s = .next t) : InflateFrame s t := by
  have h := InflateFrame.refl s
  have k := inflateFrame_outKeeps s
  have b := inflateFrame_blockEndKeeps s
  have hw : ∀ u f b, InflateFrame s u → InflateFrame s { u with bfinal := f, btype := b } := fun _ _ _ h => h
  suffices h : InflateFrame s t ∨ InflateFrame s t from h.elim id id
  rcases hi with hi | hi | hi | hi | hi
  · exact exec_zlib_keeps k.toBitsKeep (fun _ _ h => h) hi h e
  · cases i <;> simp only [Instr.alphabet, reduceCtorEq] at hi
    · exact exec_blkStored_keeps k b hw h e
    · exact exec_blkFixed_keeps k.toBitsKeep hw (fun _ _ _ _ h => h) h e
    · exact exec_blkDynamic_keeps k.toBitsKeep hw (fun _ _ _ _ _ _ _ _ h => h) h e
    · exact exec_blkInvalid_keeps k.toBitsKeep hw h e
  · exact exec_cl_keeps k.toBitsKeep (fun _ _ _ _ _ h => h) hi h e
  · by_cases hne : i = .eob
    · subst hne; exact exec_eob_keeps k.toBitsKeep b h e
    · exact exec_ll_keeps k hi hne h e
  · exact exec_dist_keeps k (fun _ h => h) hi h e

/-! ### PARSE -/

/-- P survives a move of the chunk cursor, and a fault makes it Q. -/
structure ChunkKeeps (P Q : State → Prop) : Prop where
  cursor : ∀ s p, P s → P { s with pos := p }
  fault : ∀ s d i j, P s → Q (faulted s d i j)

theorem chunkFrame_keeps (k : ChunkKeeps P Q) {s : State} (h : P s) : (chunkFrame s).Ends P Q := by
  rcases chunkFrame_cases s with ⟨n, t, d, -, e⟩ | ⟨-, e⟩ | ⟨-, -, e⟩ | ⟨-, -, e⟩ <;> rw [e]
  · exact k.cursor _ _ h
  all_goals exact k.fault _ _ _ _ h

theorem chunkAfterHeader_keeps (k : ChunkKeeps P Q) {s : State} (h : P s) : (chunkAfterHeader s).Ends P Q := by
  refine (chunkFrame_keeps k h).bind fun c s h => ?_
  split
  · exact h
  · exact k.fault _ _ _ _ h

/-- The setters of IHDR, for a P that survives the seven fields (40 R155 to R161). -/
theorem setDescriptor_keeps (k : ChunkKeeps P Q)
    (hw : ∀ s w h d c m f i, P s → P { s with
      width := w, height := h, bitDepth := d, colorType := c, compression := m, filter := f, interlace := i })
    {s : State} (h : P s) (a : Nat) (data : List Byte) : (setDescriptor a data s).Ends P Q := by
  have h1 : ∀ bd {s : State}, P s → (setBitDepth a bd s).Ends P Q := by
    intro bd s h
    unfold setBitDepth
    split
    · exact hw s s.width s.height bd s.colorType s.compression s.filter s.interlace h
    · exact k.fault _ _ _ _ h
  have h2 : ∀ ct {s : State}, P s → (setColorType a ct s).Ends P Q := by
    intro ct s h
    unfold setColorType
    split
    · exact k.fault _ _ _ _ h
    · split
      · exact hw s s.width s.height s.bitDepth _ s.compression s.filter s.interlace h
      · exact k.fault _ _ _ _ h
  have h3 : ∀ cm {s : State}, P s → (setCompression a cm s).Ends P Q := by
    intro cm s h
    unfold setCompression
    split
    · exact hw s s.width s.height s.bitDepth s.colorType cm s.filter s.interlace h
    · exact k.fault _ _ _ _ h
  have h4 : ∀ fm {s : State}, P s → (setFilter a fm s).Ends P Q := by
    intro fm s h
    unfold setFilter
    split
    · exact hw s s.width s.height s.bitDepth s.colorType s.compression fm s.interlace h
    · exact k.fault _ _ _ _ h
  have h5 : ∀ im {s : State}, P s → (setInterlace a im s).Ends P Q := by
    intro im s h
    unfold setInterlace
    split
    · exact hw s s.width s.height s.bitDepth s.colorType s.compression s.filter im h
    · exact k.fault _ _ _ _ h
  refine Res.Ends.bind (P := P) (h1 _ ?_) fun _ _ h => ?_
  · exact hw s _ _ s.bitDepth s.colorType s.compression s.filter s.interlace h
  exact (h2 _ h).bind fun _ _ h => (h3 _ h).bind fun _ _ h => (h4 _ h).bind fun _ _ h => h5 _ h

/-- The fields no PARSE operation writes. -/
def parseRest (s : State) : State :=
  { s with
    phase := .idle, err := none, pos := 0, hdrValid := false, width := 0, height := 0, bitDepth := 0, colorType := .gray
    compression := 0, filter := 0, interlace := 0, pal := none, z := [], bitPos := 0, ist := .zhdr, payload := []
    payloadValid := false }

/-- From s to t a PARSE operation may go. -/
def ParseFrame (s t : State) : Prop := parseRest t = parseRest s

theorem parseFrame_chunkKeeps (s0 : State) : ChunkKeeps (ParseFrame s0) (ParseFrame s0) where
  cursor _ _ h := h
  fault _ _ _ _ h := h

/-- What an item of PARSE leaves. -/
theorem exec_parseFrame {i : Instr} {s t : State} (hi : i.alphabet = .sig ∨ i.alphabet = .chunk)
    (e : exec i s = .next t) : ParseFrame s t := by
  have h : ParseFrame s s := rfl
  have k := parseFrame_chunkKeeps s
  suffices h : ParseFrame s t ∨ ParseFrame s t from h.elim id id
  cases i <;> simp only [Instr.alphabet, reduceCtorEq, or_self, or_false, false_or] at hi <;> simp only [exec] at e
  case sig =>
    refine Res.Ends.of_outcome (P := ParseFrame s) (Q := ParseFrame s)
      (Res.Ends.bind (P := ParseFrame s) ?_ fun v s h => ?_) e
    · rcases memRead_cases 0 0 8 s with ⟨-, e⟩ | ⟨-, e⟩ <;> rw [e] <;> exact h
    · split <;> exact h
  case ihdr =>
    refine Res.Ends.of_outcome ((chunkFrame_keeps k h).bind fun c s h => ?_) e
    split
    · exact h
    split
    · exact h
    · exact (setDescriptor_keeps k (fun _ _ _ _ _ _ _ _ h => h) h _ _).bind fun _ _ h => h
  case plte =>
    refine Res.Ends.of_outcome ((chunkAfterHeader_keeps k h).bind fun c s h => ?_) e
    split
    · exact h
    split
    · exact h
    split
    · exact h
    split <;> exact h
  case idat => exact Res.Ends.of_outcome ((chunkAfterHeader_keeps k h).bind fun c s h => by exact h) e
  case iend =>
    refine Res.Ends.of_outcome ((chunkAfterHeader_keeps k h).bind fun c s h => ?_) e
    split <;> exact h
  case skip => exact Res.Ends.of_outcome ((chunkAfterHeader_keeps k h).bind fun c s h => by exact h) e

/-! ### UNFILTER -/

/-- The fields no row operation writes. -/
def unfilterRest (s : State) : State :=
  { s with phase := .idle, err := none, row := 0, pix := [], pixValid := false, payload := [], payloadValid := false }

/-- From s to t a row operation may go: the rest is the same and PIX has only grown. -/
def UnfilterFrame (s t : State) : Prop := unfilterRest t = unfilterRest s ∧ s.pix <+: t.pix

/-- Everything the fetch of a scanline can do (43 R322). -/
theorem fetchRow_cases (s : State) :
    (RowWhole s ∧ fetchRow s = .ok (byteAt s.out (s.row * (s.cpr + 1)), filteredRow s) s) ∨
    (¬ RowWhole s ∧ fetchRow s = .raised (faulted s .truncatedImageData s.row s.out.length)) := by
  unfold RowWhole fetchRow filteredRow
  by_cases h : s.row * (s.cpr + 1) + s.cpr + 1 ≤ s.out.length
  · exact .inl ⟨h, by simp [Nat.not_lt.mpr h]⟩
  · exact .inr ⟨h, by simp [Nat.lt_of_not_le h]⟩

theorem fetchRow_unfilterFrame {s0 s : State} (h : UnfilterFrame s0 s) : (fetchRow s).All (UnfilterFrame s0) := by
  rcases fetchRow_cases s with ⟨-, e⟩ | ⟨-, e⟩ <;> rw [e] <;> exact h

theorem rowOp_unfilterFrame {s0 s : State} (h : UnfilterFrame s0 s) (pred : Byte → Byte → Byte → Byte) :
    (rowOp pred s).All (UnfilterFrame s0) := by
  refine (fetchRow_unfilterFrame h).bind fun v s h => ?_
  have h' : ∀ r, s0.pix <+: s.pix ++ r := fun r => h.2.trans (List.prefix_append _ _)
  unfold endUnfilter
  dsimp only [Res.all_ok]
  split <;> exact ⟨h.1, h' _⟩

/-! ### EXTRACT -/

/-- The fields no EXTRACT operation writes. -/
def extractRest (s : State) : State :=
  { s with phase := .idle, err := none, plen := 0, px := 0, py := 0, payload := [], payloadValid := false }

/-- From s to t an EXTRACT operation may go. -/
def ExtractFrame (s t : State) : Prop := extractRest t = extractRest s

/-- The frame survives any values of the fields EXTRACT writes. -/
theorem ExtractFrame.set {s0 s : State} (h : ExtractFrame s0 s) (phase : Phase) (plen : BitVec 32) (px py : Nat)
    (payload : List Byte) (valid : Bool) :
    ExtractFrame s0
      { s with phase := phase, plen := plen, px := px, py := py, payload := payload, payloadValid := valid } := h

/-- Everything GetPixel inside an operation can do. -/
theorem takePixel_cases (x y : Nat) (s : State) :
    (∃ c, s.getPixel x y = .ok c ∧ takePixel x y s = .ok c s) ∨
    (∃ f, s.getPixel x y = .error f ∧ takePixel x y s = .raised (faulted s f.detail f.info0 f.info1)) := by
  cases h : s.getPixel x y with
  | ok c => exact .inl ⟨c, rfl, by simp [takePixel, h]⟩
  | error f => exact .inr ⟨f, rfl, by simp [takePixel, h]⟩

/-! ### The items of UNFILTER and EXTRACT -/

/-- What a row item leaves. -/
theorem exec_unfilterFrame {i : Instr} {s t : State} (hi : i.alphabet = .filter) (h : exec i s = .next t) :
    UnfilterFrame s t := by
  have hr : UnfilterFrame s s := ⟨rfl, List.prefix_rfl⟩
  cases i <;> simp only [Instr.alphabet, reduceCtorEq] at hi <;> simp only [exec] at h
  case filtInvalid => exact Res.All.of_outcome ((fetchRow_unfilterFrame hr).bind fun _ _ h => by exact h) h
  all_goals exact Res.All.of_outcome (rowOp_unfilterFrame hr _) h

theorem takePixel_extractFrame {s0 s : State} (h : ExtractFrame s0 s) (x y : Nat) :
    (takePixel x y s).All (ExtractFrame s0) := by
  rcases takePixel_cases x y s with ⟨_, -, e⟩ | ⟨_, -, e⟩ <;> rw [e] <;> exact h

theorem execPlen_extractFrame {s t : State} (h : execPlen s = .next t) : ExtractFrame s t := by
  have hr : ExtractFrame s s := rfl
  unfold execPlen at h
  refine Res.All.of_outcome (Res.All.bind (takePixel_extractFrame hr _ _) fun c s h => ?_) h
  generalize channelsValue c = v
  split
  · exact h
  · dsimp only
    split
    · exact ExtractFrame.set h _ _ _ _ _ _
    · exact ExtractFrame.set h _ _ _ _ _ _

theorem execPixel_extractFrame {s t : State} (h : execPixel s = .next t) : ExtractFrame s t := by
  have hw : ExtractFrame s s.wrapColumn := by unfold State.wrapColumn; split <;> rfl
  unfold execPixel at h
  refine Res.All.of_outcome ((takePixel_extractFrame hw _ _).bind fun c s h => ?_) h
  dsimp only [Res.all_ok]
  unfold endExtract
  split
  · exact ExtractFrame.set h _ _ _ _ _ _
  · exact ExtractFrame.set h _ _ _ _ _ _

/-- What an EXTRACT step leaves. -/
theorem exec_extractFrame {i : Instr} {s t : State} (hi : i.alphabet = .seq) (h : exec i s = .next t) :
    ExtractFrame s t := by
  cases i <;> simp only [Instr.alphabet, reduceCtorEq] at hi
  · exact execPlen_extractFrame h
  · exact execPixel_extractFrame h

end Sys2Proof.Machine
end

