-- ==== Sys2Proof/Laws/Huffman.lean ====
section
/-! SUPPORT. Canonical codes: bit reversal, which codes are assigned, and that the codes of an array occupy disjoint
intervals of the code space in the order of assignment. -/

namespace Sys2Proof.Machine

/-! ### Bit reversal (00 R11) -/

theorem revBits_lt (n v : Nat) : revBits n v < 2 ^ n := by
  induction n generalizing v with
  | zero => simp [revBits]
  | succ n ih =>
    have := ih (v / 2)
    have h2 : v % 2 < 2 := Nat.mod_lt _ (by omega)
    simp only [revBits, Nat.pow_succ]
    have : v % 2 * 2 ^ n ≤ 1 * 2 ^ n := Nat.mul_le_mul_right _ (by omega)
    omega

/-- Bit j of the reversal is bit n - 1 - j. -/
theorem revBits_testBit (n v j : Nat) (h : j < n) : (revBits n v).testBit j = v.testBit (n - 1 - j) := by
  induction n generalizing v with
  | zero => omega
  | succ n ih =>
    have hlt := revBits_lt n (v / 2)
    rw [revBits, Nat.mul_comm, Nat.testBit_two_pow_mul_add _ hlt]
    by_cases hj : j < n
    · rw [if_pos hj, ih _ hj, ← Nat.testBit_succ]; congr 1; omega
    · have : j = n := by omega
      subst this
      simp

/-- Two codes that are both read at one index: the shorter is the head of the longer. -/
theorem prefix_of_same_index {i l l' c c' : Nat} (hl : l ≤ l') (hc : c < 2 ^ l) (hc' : c' < 2 ^ l')
    (h : i % 2 ^ l = revBits l c) (h' : i % 2 ^ l' = revBits l' c') : c = c' / 2 ^ (l' - l) := by
  apply Nat.eq_of_testBit_eq
  intro k
  rw [Nat.testBit_div_two_pow]
  by_cases hk : k < l
  · have h1 : (revBits l c).testBit (l - 1 - k) = c.testBit k := by
      rw [revBits_testBit _ _ _ (by omega)]; congr 1; omega
    have h2 : (revBits l' c').testBit (l - 1 - k) = c'.testBit (k + (l' - l)) := by
      rw [revBits_testBit _ _ _ (by omega)]; congr 1; omega
    rw [← h1, ← h2, ← h, ← h', Nat.testBit_mod_two_pow, Nat.testBit_mod_two_pow]
    simp [show l - 1 - k < l by omega, show l - 1 - k < l' by omega]
  · rw [Nat.testBit_lt_two_pow (Nat.lt_of_lt_of_le hc (Nat.pow_le_pow_right (by omega) (by omega))),
      Nat.testBit_lt_two_pow (Nat.lt_of_lt_of_le hc' (Nat.pow_le_pow_right (by omega) (by omega)))]

/-! ### The longest length -/

theorem foldl_max_le (ls : List Nat) (a : Nat) : a ≤ ls.foldl max a ∧ ∀ l ∈ ls, l ≤ ls.foldl max a := by
  induction ls generalizing a with
  | nil => simp
  | cons x ls ih =>
    obtain ⟨h1, h2⟩ := ih (max a x)
    refine ⟨by simp only [List.foldl_cons]; omega, fun l hl => ?_⟩
    rcases List.mem_cons.1 hl with rfl | hl
    · simp only [List.foldl_cons]; omega
    · exact h2 l hl

theorem le_maxLength {lengths : List Nat} {l : Nat} (h : l ∈ lengths) : l ≤ maxLength lengths :=
  (foldl_max_le lengths 0).2 l h

/-- The longest length is at most any bound of the lengths. -/
theorem maxLength_le {lengths : List Nat} {b : Nat} (h : ∀ l ∈ lengths, l ≤ b) : maxLength lengths ≤ b := by
  have : ∀ (ls : List Nat) (a : Nat), a ≤ b → (∀ l ∈ ls, l ≤ b) → ls.foldl max a ≤ b := by
    intro ls
    induction ls with
    | nil => intro a ha _; exact ha
    | cons x ls ih => intro a ha hl; exact ih _ (by have := hl x (by simp); omega) (fun l hm => hl l (by simp [hm]))
  exact this lengths 0 (by omega) h

/-! ### The codes of one length -/

theorem assignLength_next (len : Nat) (ls : List Nat) (symbol code : Nat) :
    (assignLength len ls symbol code).2 = code + ls.count len := by
  induction ls generalizing symbol code with
  | nil => simp [assignLength]
  | cons x ls ih =>
    simp only [assignLength]
    split
    · rename_i h; subst h; simp only [ih, List.count_cons_self]; omega
    · rename_i h; rw [ih, List.count_cons_of_ne h]

/-- A code of one length: its symbol has that length, and its value lies in the run of the length. -/
theorem assignLength_mem {len : Nat} {ls : List Nat} {symbol code : Nat} {e : CodeEntry} {c : Nat}
    (h : (e, c) ∈ (assignLength len ls symbol code).1) :
    e.length = len ∧ symbol ≤ e.symbol ∧ ls[e.symbol - symbol]? = some len ∧ code ≤ c ∧ c < code + ls.count len := by
  induction ls generalizing symbol code with
  | nil => simp [assignLength] at h
  | cons x ls ih =>
    simp only [assignLength] at h
    split at h
    · rename_i hx; subst hx
      rcases List.mem_cons.1 h with h | h
      · simp only [Prod.mk.injEq] at h
        obtain ⟨rfl, rfl⟩ := h
        simp
      · obtain ⟨h1, h2, h3, h4, h5⟩ := ih h
        refine ⟨h1, by omega, ?_, by omega, ?_⟩
        · rw [show e.symbol - symbol = (e.symbol - (symbol + 1)) + 1 by omega]; simpa using h3
        · rw [List.count_cons_self]; omega
    · rename_i hx
      obtain ⟨h1, h2, h3, h4, h5⟩ := ih h
      refine ⟨h1, by omega, ?_, h4, ?_⟩
      · rw [show e.symbol - symbol = (e.symbol - (symbol + 1)) + 1 by omega]; simpa using h3
      · rw [List.count_cons_of_ne hx]; exact h5

/-- Every symbol of the length gets a code. -/
theorem assignLength_complete {len : Nat} {ls : List Nat} {symbol code k : Nat} (h : ls[k]? = some len) :
    ∃ c, (⟨len, symbol + k⟩, c) ∈ (assignLength len ls symbol code).1 := by
  induction ls generalizing symbol code k with
  | nil => simp at h
  | cons x ls ih =>
    simp only [assignLength]
    cases k with
    | zero => simp at h; subst h; exact ⟨code, by simp⟩
    | succ k =>
      simp only [List.getElem?_cons_succ] at h
      split
      · obtain ⟨c, hc⟩ := ih (symbol := symbol + 1) (code := code + 1) h
        exact ⟨c, by rw [show symbol + (k + 1) = symbol + 1 + k by omega]; exact List.mem_cons_of_mem _ hc⟩
      · obtain ⟨c, hc⟩ := ih (symbol := symbol + 1) (code := code) h
        exact ⟨c, by rw [show symbol + (k + 1) = symbol + 1 + k by omega]; exact hc⟩

/-- The codes of one length rise. -/
theorem assignLength_pairwise (len : Nat) (ls : List Nat) (symbol code : Nat) :
    ((assignLength len ls symbol code).1).Pairwise fun x y => x.2 < y.2 := by
  induction ls generalizing symbol code with
  | nil => simp [assignLength]
  | cons x ls ih =>
    simp only [assignLength]
    split
    · refine List.Pairwise.cons (fun y hy => ?_) (ih _ _)
      obtain ⟨-, -, -, h, -⟩ := assignLength_mem hy
      simp only; omega
    · exact ih _ _

/-! ### All codes -/

/-- The part of the Kraft sum due to lengths from `len` to M, scaled by 2^M. -/
def kraftFrom (M len : Nat) : List Nat → Nat
  | [] => 0
  | l :: rest => (if len ≤ l ∧ l ≤ M then 2 ^ (M - l) else 0) + kraftFrom M len rest

theorem kraftFrom_step (M len : Nat) (ls : List Nat) (h : len ≤ M) :
    kraftFrom M len ls = ls.count len * 2 ^ (M - len) + kraftFrom M (len + 1) ls := by
  induction ls with
  | nil => simp [kraftFrom]
  | cons x ls ih =>
    simp only [kraftFrom, ih]
    by_cases hx : x = len
    · subst hx
      simp only [List.count_cons_self, Nat.add_mul]
      rw [if_pos ⟨Nat.le_refl _, h⟩, if_neg (by omega)]; omega
    · rw [List.count_cons_of_ne hx]
      by_cases hc : len ≤ x ∧ x ≤ M
      · rw [if_pos hc, if_pos (by omega)]; omega
      · rw [if_neg hc, if_neg (by omega)]; omega

theorem kraftFrom_one (M : Nat) (ls : List Nat) (h : ∀ l ∈ ls, l ≤ M) : kraftFrom M 1 ls = kraftSum M ls := by
  induction ls with
  | nil => rfl
  | cons x ls ih =>
    have hx := h x (by simp)
    simp only [kraftFrom, kraftSum, ih (fun l hl => h l (by simp [hl]))]
    by_cases h0 : x = 0
    · subst h0; simp
    · rw [if_pos (by omega), if_neg h0]

/-- A code is a code of its symbol's length. -/
theorem assignFrom_mem {lengths : List Nat} {n len code : Nat} {e : CodeEntry} {c : Nat}
    (h : (e, c) ∈ assignFrom lengths n len code) :
    len ≤ e.length ∧ e.length < len + n ∧ lengths[e.symbol]? = some e.length := by
  induction n generalizing len code with
  | zero => simp [assignFrom] at h
  | succ n ih =>
    simp only [assignFrom, List.mem_append] at h
    rcases h with h | h
    · obtain ⟨h1, -, h3, -, -⟩ := assignLength_mem h
      exact ⟨by omega, by omega, by rw [h1]; simpa using h3⟩
    · obtain ⟨h1, h2, h3⟩ := ih h
      exact ⟨by omega, by omega, h3⟩

/-- Every symbol whose length is in range gets a code. -/
theorem assignFrom_complete {lengths : List Nat} {n len code s l : Nat} (h : lengths[s]? = some l) (h1 : len ≤ l)
    (h2 : l < len + n) : ∃ c, (⟨l, s⟩, c) ∈ assignFrom lengths n len code := by
  induction n generalizing len code with
  | zero => omega
  | succ n ih =>
    simp only [assignFrom, List.mem_append]
    by_cases he : l = len
    · subst he
      obtain ⟨c, hc⟩ := assignLength_complete (symbol := 0) (code := code) h
      exact ⟨c, .inl (by simpa using hc)⟩
    · obtain ⟨c, hc⟩ := ih (code := 2 * (assignLength len lengths 0 code).2) (by omega : len + 1 ≤ l) (by omega)
      exact ⟨c, .inr hc⟩

/-- The interval of a code lies in the part of the code space left to its length and the longer ones. -/
theorem assignFrom_interval {lengths : List Nat} {n len code M : Nat} (hM : len + n = M + 1) {e : CodeEntry} {c : Nat}
    (h : (e, c) ∈ assignFrom lengths n len code) :
    code * 2 ^ (M - len) ≤ c * 2 ^ (M - e.length) ∧
      (c + 1) * 2 ^ (M - e.length) ≤ code * 2 ^ (M - len) + kraftFrom M len lengths := by
  induction n generalizing len code with
  | zero => simp [assignFrom] at h
  | succ n ih =>
    simp only [assignFrom, List.mem_append] at h
    have hk := kraftFrom_step M len lengths (by omega)
    rcases h with h | h
    · obtain ⟨h1, -, -, h4, h5⟩ := assignLength_mem h
      rw [h1]
      refine ⟨Nat.mul_le_mul_right _ h4, ?_⟩
      have : (c + 1) * 2 ^ (M - len) ≤ (code + lengths.count len) * 2 ^ (M - len) := Nat.mul_le_mul_right _ (by omega)
      rw [Nat.add_mul (code)] at this
      omega
    · rw [assignLength_next] at h
      obtain ⟨h1, h2⟩ := ih (by omega) h
      have hlen : len + 1 ≤ M := by
        obtain ⟨a, b, -⟩ := assignFrom_mem h
        omega
      have e2 : 2 * (code + lengths.count len) * 2 ^ (M - (len + 1)) = (code + lengths.count len) * 2 ^ (M - len) := by
        rw [show M - len = (M - (len + 1)) + 1 by omega, Nat.pow_succ]; ring
      rw [e2, Nat.add_mul code] at h1 h2
      omega

/-- The intervals of the codes follow one another without overlap. -/
theorem assignFrom_pairwise {lengths : List Nat} {n len code M : Nat} (hM : len + n = M + 1) :
    (assignFrom lengths n len code).Pairwise fun x y =>
      (x.2 + 1) * 2 ^ (M - x.1.length) ≤ y.2 * 2 ^ (M - y.1.length) := by
  induction n generalizing len code with
  | zero => simp [assignFrom]
  | succ n ih =>
    simp only [assignFrom]
    rw [List.pairwise_append]
    refine ⟨?_, ih (by omega), ?_⟩
    · refine List.Pairwise.imp_of_mem ?_ (assignLength_pairwise len lengths 0 code)
      intro x y hx hy hlt
      obtain ⟨h1, -⟩ := assignLength_mem hx
      obtain ⟨h2, -⟩ := assignLength_mem hy
      rw [h1, h2]
      exact Nat.mul_le_mul_right _ hlt
    · intro x hx y hy
      obtain ⟨h1, -, -, -, h5⟩ := assignLength_mem hx
      rw [assignLength_next] at hy
      obtain ⟨h2, -⟩ := assignFrom_interval (M := M) (by omega) hy
      have hlen : len + 1 ≤ M := by
        obtain ⟨a, b, -⟩ := assignFrom_mem hy
        omega
      have e2 : 2 * (code + lengths.count len) * 2 ^ (M - (len + 1)) = (code + lengths.count len) * 2 ^ (M - len) := by
        rw [show M - len = (M - (len + 1)) + 1 by omega, Nat.pow_succ]; ring
      rw [e2] at h2
      rw [h1]
      exact Nat.le_trans (Nat.mul_le_mul_right _ (by omega)) h2

/-! ### Table entries -/

/-- Whether index i holds a code: its low bits are the code's reversal (41 R208). -/
def matchesIndex (i : Nat) (x : CodeEntry × Nat) : Prop := i % 2 ^ x.1.length = revBits x.1.length x.2

/-- An entry that is not empty comes from a code that matches the index. -/
theorem entryAt_some {codes : List (CodeEntry × Nat)} {i : Nat} {e : CodeEntry} (h : entryAt codes i = some e) :
    ∃ c, (e, c) ∈ codes ∧ matchesIndex i (e, c) := by
  induction codes using List.reverseRecOn with
  | nil => simp [entryAt] at h
  | append_singleton l x ih =>
    simp only [entryAt, List.foldl_append, List.foldl_cons, List.foldl_nil] at h
    split at h
    · rename_i hm
      injection h with h
      subst h
      exact ⟨x.2, by simp, hm⟩
    · obtain ⟨c, h1, h2⟩ := ih h
      exact ⟨c, by simp [h1], h2⟩

/-- An index some code matches is not empty. -/
theorem entryAt_isSome {codes : List (CodeEntry × Nat)} {i : Nat} {x : CodeEntry × Nat} (hx : x ∈ codes)
    (hm : matchesIndex i x) : ∃ e, entryAt codes i = some e := by
  induction codes using List.reverseRecOn with
  | nil => simp at hx
  | append_singleton l y ih =>
    simp only [entryAt, List.foldl_append, List.foldl_cons, List.foldl_nil]
    split
    · exact ⟨_, rfl⟩
    · rename_i hn
      rcases List.mem_append.1 hx with h | h
      · exact ih h
      · simp at h; subst h; exact absurd hm hn

theorem huffTable_entry (lengths : List Nat) (i : Nat) (h : i < 2 ^ (huffTable lengths).maxLen) :
    (huffTable lengths).entries[i]? = some (entryAt (assignCodes lengths) i) := by
  simp only [huffTable] at *
  simp [List.getElem?_map, List.getElem?_range h]

@[simp] theorem huffTable_size (lengths : List Nat) :
    (huffTable lengths).entries.length = 2 ^ (huffTable lengths).maxLen := by
  simp [huffTable]

end Sys2Proof.Machine
end

