-- ==== Sys2Proof/Laws/PerInstr.lean ====
section
/-! SUPPORT. The statements made of every instruction, one lemma per constructor. EncodeFits: the encoding of an item fits
the width of its alphabet (30 R110 to R126, R134), so that no bit of it is lost where it is laid out in its space. -/

namespace Sys2Proof.Laws

/-- The width in bits of the values of an alphabet (30 R134). -/
def EncodeFits.width : Alphabet → Nat
  | .ctrl | .pixCmd | .chunk => 32
  | .sig => 64
  | .zlib => 16
  | .bhdr => 3
  | .cl | .dist => 5
  | .ll => 9
  | .filter => 8
  | .seq => 0

/-- The encoding of the item is a value of its alphabet's width. -/
def EncodeFits.Statement (i : Instr) : Prop :=
  ∀ v, encode i = some v → v < 2 ^ EncodeFits.width i.alphabet

/-- A value that is known fits by its size alone. -/
theorem EncodeFits.of_lt (i : Instr) (n : Nat) (h : encode i = some n) (hn : n < 2 ^ EncodeFits.width i.alphabet) :
    EncodeFits.Statement i := by
  intro v hv
  rw [h] at hv
  cases hv
  exact hn

theorem EncodeFits.start (headerOnly : Bool) : EncodeFits.Statement (.start headerOnly) :=
  EncodeFits.of_lt _ _ rfl (by cases headerOnly <;> decide)

theorem EncodeFits.pixelRead : EncodeFits.Statement .pixelRead :=
  EncodeFits.of_lt _ _ rfl (by decide)

theorem EncodeFits.sig : EncodeFits.Statement .sig :=
  EncodeFits.of_lt _ _ rfl (by decide)

theorem EncodeFits.ihdr : EncodeFits.Statement .ihdr :=
  EncodeFits.of_lt _ _ rfl (by decide)

theorem EncodeFits.plte : EncodeFits.Statement .plte :=
  EncodeFits.of_lt _ _ rfl (by decide)

theorem EncodeFits.idat : EncodeFits.Statement .idat :=
  EncodeFits.of_lt _ _ rfl (by decide)

theorem EncodeFits.iend : EncodeFits.Statement .iend :=
  EncodeFits.of_lt _ _ rfl (by decide)

theorem EncodeFits.skip (type : BitVec 32) : EncodeFits.Statement (.skip type) :=
  EncodeFits.of_lt _ _ rfl type.isLt

theorem EncodeFits.zhdr (value : BitVec 16) : EncodeFits.Statement (.zhdr value) :=
  EncodeFits.of_lt _ _ rfl value.isLt

theorem EncodeFits.zhdrBad (value : BitVec 16) : EncodeFits.Statement (.zhdrBad value) :=
  EncodeFits.of_lt _ _ rfl value.isLt

theorem EncodeFits.blkStored (final : Bool) : EncodeFits.Statement (.blkStored final) :=
  EncodeFits.of_lt _ _ rfl (by cases final <;> decide)

theorem EncodeFits.blkFixed (final : Bool) : EncodeFits.Statement (.blkFixed final) :=
  EncodeFits.of_lt _ _ rfl (by cases final <;> decide)

theorem EncodeFits.blkDynamic (final : Bool) : EncodeFits.Statement (.blkDynamic final) :=
  EncodeFits.of_lt _ _ rfl (by cases final <;> decide)

theorem EncodeFits.blkInvalid (final : Bool) : EncodeFits.Statement (.blkInvalid final) :=
  EncodeFits.of_lt _ _ rfl (by cases final <;> decide)

theorem EncodeFits.clen (length : BitVec 4) : EncodeFits.Statement (.clen length) :=
  EncodeFits.of_lt _ _ rfl (Nat.lt_of_lt_of_le length.isLt (show 2 ^ 4 ≤ 2 ^ 5 by decide))

theorem EncodeFits.repprev : EncodeFits.Statement .repprev :=
  EncodeFits.of_lt _ _ rfl (by decide)

theorem EncodeFits.repzero : EncodeFits.Statement .repzero :=
  EncodeFits.of_lt _ _ rfl (by decide)

theorem EncodeFits.repzerol : EncodeFits.Statement .repzerol :=
  EncodeFits.of_lt _ _ rfl (by decide)

theorem EncodeFits.lit (byte : Byte) : EncodeFits.Statement (.lit byte) :=
  EncodeFits.of_lt _ _ rfl (Nat.lt_of_lt_of_le byte.isLt (show 2 ^ 8 ≤ 2 ^ 9 by decide))

theorem EncodeFits.eob : EncodeFits.Statement .eob :=
  EncodeFits.of_lt _ _ rfl (by decide)

theorem EncodeFits.len257 : EncodeFits.Statement .len257 :=
  EncodeFits.of_lt _ _ rfl (by decide)

theorem EncodeFits.len258 : EncodeFits.Statement .len258 :=
  EncodeFits.of_lt _ _ rfl (by decide)

theorem EncodeFits.len259 : EncodeFits.Statement .len259 :=
  EncodeFits.of_lt _ _ rfl (by decide)

theorem EncodeFits.len260 : EncodeFits.Statement .len260 :=
  EncodeFits.of_lt _ _ rfl (by decide)

theorem EncodeFits.len261 : EncodeFits.Statement .len261 :=
  EncodeFits.of_lt _ _ rfl (by decide)

theorem EncodeFits.len262 : EncodeFits.Statement .len262 :=
  EncodeFits.of_lt _ _ rfl (by decide)

theorem EncodeFits.len263 : EncodeFits.Statement .len263 :=
  EncodeFits.of_lt _ _ rfl (by decide)

theorem EncodeFits.len264 : EncodeFits.Statement .len264 :=
  EncodeFits.of_lt _ _ rfl (by decide)

theorem EncodeFits.len265 : EncodeFits.Statement .len265 :=
  EncodeFits.of_lt _ _ rfl (by decide)

theorem EncodeFits.len266 : EncodeFits.Statement .len266 :=
  EncodeFits.of_lt _ _ rfl (by decide)

theorem EncodeFits.len267 : EncodeFits.Statement .len267 :=
  EncodeFits.of_lt _ _ rfl (by decide)

theorem EncodeFits.len268 : EncodeFits.Statement .len268 :=
  EncodeFits.of_lt _ _ rfl (by decide)

theorem EncodeFits.len269 : EncodeFits.Statement .len269 :=
  EncodeFits.of_lt _ _ rfl (by decide)

theorem EncodeFits.len270 : EncodeFits.Statement .len270 :=
  EncodeFits.of_lt _ _ rfl (by decide)

theorem EncodeFits.len271 : EncodeFits.Statement .len271 :=
  EncodeFits.of_lt _ _ rfl (by decide)

theorem EncodeFits.len272 : EncodeFits.Statement .len272 :=
  EncodeFits.of_lt _ _ rfl (by decide)

theorem EncodeFits.len273 : EncodeFits.Statement .len273 :=
  EncodeFits.of_lt _ _ rfl (by decide)

theorem EncodeFits.len274 : EncodeFits.Statement .len274 :=
  EncodeFits.of_lt _ _ rfl (by decide)

theorem EncodeFits.len275 : EncodeFits.Statement .len275 :=
  EncodeFits.of_lt _ _ rfl (by decide)

theorem EncodeFits.len276 : EncodeFits.Statement .len276 :=
  EncodeFits.of_lt _ _ rfl (by decide)

theorem EncodeFits.len277 : EncodeFits.Statement .len277 :=
  EncodeFits.of_lt _ _ rfl (by decide)

theorem EncodeFits.len278 : EncodeFits.Statement .len278 :=
  EncodeFits.of_lt _ _ rfl (by decide)

theorem EncodeFits.len279 : EncodeFits.Statement .len279 :=
  EncodeFits.of_lt _ _ rfl (by decide)

theorem EncodeFits.len280 : EncodeFits.Statement .len280 :=
  EncodeFits.of_lt _ _ rfl (by decide)

theorem EncodeFits.len281 : EncodeFits.Statement .len281 :=
  EncodeFits.of_lt _ _ rfl (by decide)

theorem EncodeFits.len282 : EncodeFits.Statement .len282 :=
  EncodeFits.of_lt _ _ rfl (by decide)

theorem EncodeFits.len283 : EncodeFits.Statement .len283 :=
  EncodeFits.of_lt _ _ rfl (by decide)

theorem EncodeFits.len284 : EncodeFits.Statement .len284 :=
  EncodeFits.of_lt _ _ rfl (by decide)

theorem EncodeFits.len285 : EncodeFits.Statement .len285 :=
  EncodeFits.of_lt _ _ rfl (by decide)

theorem EncodeFits.llInvalid (low : BitVec 1) : EncodeFits.Statement (.llInvalid low) :=
  EncodeFits.of_lt _ _ rfl (by revert low; decide)

theorem EncodeFits.dist0 : EncodeFits.Statement .dist0 :=
  EncodeFits.of_lt _ _ rfl (by decide)

theorem EncodeFits.dist1 : EncodeFits.Statement .dist1 :=
  EncodeFits.of_lt _ _ rfl (by decide)

theorem EncodeFits.dist2 : EncodeFits.Statement .dist2 :=
  EncodeFits.of_lt _ _ rfl (by decide)

theorem EncodeFits.dist3 : EncodeFits.Statement .dist3 :=
  EncodeFits.of_lt _ _ rfl (by decide)

theorem EncodeFits.dist4 : EncodeFits.Statement .dist4 :=
  EncodeFits.of_lt _ _ rfl (by decide)

theorem EncodeFits.dist5 : EncodeFits.Statement .dist5 :=
  EncodeFits.of_lt _ _ rfl (by decide)

theorem EncodeFits.dist6 : EncodeFits.Statement .dist6 :=
  EncodeFits.of_lt _ _ rfl (by decide)

theorem EncodeFits.dist7 : EncodeFits.Statement .dist7 :=
  EncodeFits.of_lt _ _ rfl (by decide)

theorem EncodeFits.dist8 : EncodeFits.Statement .dist8 :=
  EncodeFits.of_lt _ _ rfl (by decide)

theorem EncodeFits.dist9 : EncodeFits.Statement .dist9 :=
  EncodeFits.of_lt _ _ rfl (by decide)

theorem EncodeFits.dist10 : EncodeFits.Statement .dist10 :=
  EncodeFits.of_lt _ _ rfl (by decide)

theorem EncodeFits.dist11 : EncodeFits.Statement .dist11 :=
  EncodeFits.of_lt _ _ rfl (by decide)

theorem EncodeFits.dist12 : EncodeFits.Statement .dist12 :=
  EncodeFits.of_lt _ _ rfl (by decide)

theorem EncodeFits.dist13 : EncodeFits.Statement .dist13 :=
  EncodeFits.of_lt _ _ rfl (by decide)

theorem EncodeFits.dist14 : EncodeFits.Statement .dist14 :=
  EncodeFits.of_lt _ _ rfl (by decide)

theorem EncodeFits.dist15 : EncodeFits.Statement .dist15 :=
  EncodeFits.of_lt _ _ rfl (by decide)

theorem EncodeFits.dist16 : EncodeFits.Statement .dist16 :=
  EncodeFits.of_lt _ _ rfl (by decide)

theorem EncodeFits.dist17 : EncodeFits.Statement .dist17 :=
  EncodeFits.of_lt _ _ rfl (by decide)

theorem EncodeFits.dist18 : EncodeFits.Statement .dist18 :=
  EncodeFits.of_lt _ _ rfl (by decide)

theorem EncodeFits.dist19 : EncodeFits.Statement .dist19 :=
  EncodeFits.of_lt _ _ rfl (by decide)

theorem EncodeFits.dist20 : EncodeFits.Statement .dist20 :=
  EncodeFits.of_lt _ _ rfl (by decide)

theorem EncodeFits.dist21 : EncodeFits.Statement .dist21 :=
  EncodeFits.of_lt _ _ rfl (by decide)

theorem EncodeFits.dist22 : EncodeFits.Statement .dist22 :=
  EncodeFits.of_lt _ _ rfl (by decide)

theorem EncodeFits.dist23 : EncodeFits.Statement .dist23 :=
  EncodeFits.of_lt _ _ rfl (by decide)

theorem EncodeFits.dist24 : EncodeFits.Statement .dist24 :=
  EncodeFits.of_lt _ _ rfl (by decide)

theorem EncodeFits.dist25 : EncodeFits.Statement .dist25 :=
  EncodeFits.of_lt _ _ rfl (by decide)

theorem EncodeFits.dist26 : EncodeFits.Statement .dist26 :=
  EncodeFits.of_lt _ _ rfl (by decide)

theorem EncodeFits.dist27 : EncodeFits.Statement .dist27 :=
  EncodeFits.of_lt _ _ rfl (by decide)

theorem EncodeFits.dist28 : EncodeFits.Statement .dist28 :=
  EncodeFits.of_lt _ _ rfl (by decide)

theorem EncodeFits.dist29 : EncodeFits.Statement .dist29 :=
  EncodeFits.of_lt _ _ rfl (by decide)

theorem EncodeFits.distInvalid (low : BitVec 1) : EncodeFits.Statement (.distInvalid low) :=
  EncodeFits.of_lt _ _ rfl (by revert low; decide)

theorem EncodeFits.filtNone : EncodeFits.Statement .filtNone :=
  EncodeFits.of_lt _ _ rfl (by decide)

theorem EncodeFits.filtSub : EncodeFits.Statement .filtSub :=
  EncodeFits.of_lt _ _ rfl (by decide)

theorem EncodeFits.filtUp : EncodeFits.Statement .filtUp :=
  EncodeFits.of_lt _ _ rfl (by decide)

theorem EncodeFits.filtAvg : EncodeFits.Statement .filtAvg :=
  EncodeFits.of_lt _ _ rfl (by decide)

theorem EncodeFits.filtPaeth : EncodeFits.Statement .filtPaeth :=
  EncodeFits.of_lt _ _ rfl (by decide)

theorem EncodeFits.filtInvalid (tag : Byte) : EncodeFits.Statement (.filtInvalid tag) :=
  EncodeFits.of_lt _ _ rfl tag.isLt

theorem EncodeFits.plen : EncodeFits.Statement .plen := by
  intro v hv
  cases hv

theorem EncodeFits.pixel : EncodeFits.Statement .pixel := by
  intro v hv
  cases hv

end Sys2Proof.Laws
end

