-- ==== Sys2Proof/Laws/Unfilter.lean ====
section
/-! SUPPORT. Spec lemmas of the UNFILTER operations: the row fetch, the reconstruction, the end of a row. -/

namespace Sys2Proof.Machine

open Sys2Proof

/-! ### The row fetch -/

/-- A whole row gives its tag and its filtered bytes and changes nothing (43 R322). -/
theorem fetchRow_ok (s : State) (h : RowWhole s) :
    fetchRow s = .ok (byteAt s.out (s.row * (s.cpr + 1)), filteredRow s) s := by
  unfold RowWhole at h
  simp only [fetchRow, filteredRow]
  rw [if_neg (by omega)]

/-- A row that is not whole faults (43 R322). -/
theorem fetchRow_fault (s : State) (h : ¬ RowWhole s) :
    fetchRow s = .raised (faulted s .truncatedImageData s.row s.out.length) := by
  unfold RowWhole at h
  simp only [fetchRow, raiseFault_eq]
  rw [if_pos (by omega)]

/-- A whole row has cpr filtered bytes (30 R125). -/
theorem filteredRow_length (s : State) (h : RowWhole s) : (filteredRow s).length = s.cpr := by
  unfold RowWhole at h
  simp only [filteredRow, List.length_take, List.length_drop]
  omega

/-! ### Reconstruction -/

/-- A byte of a list with more behind it. -/
theorem byteAt_append_left (xs ys : List Byte) (k : Nat) (h : k < xs.length) : byteAt (xs ++ ys) k = byteAt xs k := by
  simp [byteAt, List.getD_eq_getElem?_getD, List.getElem?_append_left h]

/-- The first byte behind a list. -/
theorem byteAt_append_cons (xs ys : List Byte) (y : Byte) : byteAt (xs ++ y :: ys) xs.length = y := by
  simp [byteAt, List.getD_eq_getElem?_getD]

/-- The reconstruction keeps the bytes it has and makes one more for each filtered byte, each from its three neighbours
(43 R323, R330). -/
theorem reconRow_spec (pred : Byte → Byte → Byte → Byte) (bpp : Nat) (prev : List Byte) (hb : 1 ≤ bpp)
    (filtered done : List Byte) :
    ∃ row, reconRow pred bpp prev filtered done = done ++ row ∧ row.length = filtered.length ∧
      ∀ i, i < filtered.length → byteAt (done ++ row) (done.length + i) = byteAt filtered i +
        pred (if bpp ≤ done.length + i then byteAt (done ++ row) (done.length + i - bpp) else 0)
          (byteAt prev (done.length + i)) (if bpp ≤ done.length + i then byteAt prev (done.length + i - bpp) else 0) := by
  induction filtered generalizing done with
  | nil => exact ⟨[], by simp [reconRow], rfl, by simp⟩
  | cons f rest ih =>
    simp only [reconRow]
    generalize hx : f + pred (if bpp ≤ done.length then byteAt done (done.length - bpp) else 0) (byteAt prev done.length)
      (if bpp ≤ done.length then byteAt prev (done.length - bpp) else 0) = x
    obtain ⟨row, e, hl, hi⟩ := ih (done ++ [x])
    simp only [List.append_assoc, List.singleton_append, List.length_append, List.length_singleton] at e hi
    refine ⟨x :: row, e, by simp [hl], fun i hlt => ?_⟩
    cases i with
    | zero =>
      rw [Nat.add_zero, byteAt_append_cons, ← hx]
      congr 2
      by_cases h : bpp ≤ done.length
      · rw [if_pos h, if_pos h, byteAt_append_left _ _ _ (by omega)]
      · rw [if_neg h, if_neg h]
    | succ i =>
      have := hi i (by simpa using hlt)
      rw [show done.length + (i + 1) = done.length + 1 + i by omega]
      exact this

/-- A reconstructed row (43 R323, R330). -/
theorem reconRow_recon (pred : Byte → Byte → Byte → Byte) (bpp : Nat) (prev filtered : List Byte) (hb : 1 ≤ bpp) :
    RowRecon pred bpp prev filtered (reconRow pred bpp prev filtered []) := by
  obtain ⟨row, e, hl, hi⟩ := reconRow_spec pred bpp prev hb filtered []
  simp only [List.nil_append, List.length_nil, Nat.zero_add] at e hi
  rw [e]
  exact ⟨hl, hi⟩

/-! ### A row -/

/-- Everything a filter item does with a whole row (43 R322, R331). -/
theorem rowOp_appended (pred : Byte → Byte → Byte → Byte) (s : State) (h : RowWhole s) :
    ∃ t, (rowOp pred s).outcome = .next t ∧
      RowAppended s (reconRow pred s.bpp (rowAbove s) (filteredRow s) []) t := by
  unfold rowOp RowAppended
  rw [fetchRow_ok s h, Res.bind_ok]
  refine ⟨_, rfl, ?_⟩
  simp only [endUnfilter]
  split <;> rfl

end Sys2Proof.Machine
end

