-- ==== Sys2Proof/Tests/Slice0.lean ====
section
/-! SUPPORT. The model's own tests: the well-formedness smoke test, decode words written out from 30 R110 to R126, one
step on small states with results from 95_test_vectors.md, and for every statement with hypotheses a state and operands
that meet them. Each theorem names its source. -/

namespace Sys2Proof.Tests

open Sys2Proof Sys2Proof.Machine

/-! ### Helpers -/

/-- A state in INFLATE over a stream, a 2x1 colour-type-6 image (95 P1). -/
def inflating (ist : InflateState) (bitPos : Nat) (z : List Byte) : State :=
  { State.reset with
    phase := .inflate, hdrValid := true, width := 2, height := 1, bitDepth := 8, colorType := .rgba
    pos := 77, inLen := 77, ist := ist, bitPos := bitPos, z := z }

/-- A state in PARSE at offset 8, IN from there on given. -/
def parsing (hdrValid : Bool) (bytes : List Byte) : State :=
  { State.reset with
    phase := .parse, pos := 8, inLen := BitVec.ofNat 32 (8 + bytes.length), input := cellsAt 8 bytes
    hdrValid := hdrValid, width := 2, height := 1, bitDepth := 8, colorType := .rgba }

/-- A state in UNFILTER at row 0 of a 2x1 colour-type-6 image. -/
def unfiltering (out : List Byte) : State :=
  { State.reset with
    phase := .unfilter, hdrValid := true, width := 2, height := 1, bitDepth := 8, colorType := .rgba
    bpp := 4, cpr := 8, out := out }

/-- A state in EXTRACT with a 2x1 colour-type-6 image, one pixel read (95 P1). -/
def extracting (pix : List Byte) (plen : BitVec 32) : State :=
  { State.reset with
    phase := .extract, hdrValid := true, width := 2, height := 1, bitDepth := 8, colorType := .rgba
    bpp := 4, cpr := 8, pix := pix, pixValid := true, plen := plen, px := 1, row := 1 }

/-- The IHDR chunk of a 2x1 image of a depth and colour type, LENGTH 13 (95 P1). -/
def ihdrChunk (bd ct cm fm im : Byte) : List Byte :=
  [0, 0, 0, 0x0D, 0x49, 0x48, 0x44, 0x52, 0, 0, 0, 2, 0, 0, 0, 1, bd, ct, cm, fm, im, 0, 0, 0, 0]

/-- A chunk of a given type and data, its CRC zeros. -/
def chunkBytes (length : Nat) (type : BitVec 32) (data : List Byte) : List Byte :=
  beBytes 4 length ++ beBytes 4 type.toNat ++ data ++ [0, 0, 0, 0]

/-- The next state of an outcome, the fallback where there is none. -/
def nextOr (fallback : State) : Host.Outcome State Fault Refusal → State
  | .next t => t
  | _ => fallback

/-- The state after one step. -/
def stepped (s : State) : State := nextOr State.reset (step s)

/-- The state after one item. -/
def ran (i : Instr) (s : State) : State := nextOr State.reset (exec i s)

/-! ### Well-formedness smoke test: an ill-formed term for each check, refused -/

theorem test_wf_refuses_skip_of_ihdr : (Instr.skip 0x49484452#32).wf = false := by decide

theorem test_wf_refuses_zhdr_that_fails : (Instr.zhdr 0x7802#16).wf = false := by decide

theorem test_wf_refuses_zhdr_bad_that_passes : (Instr.zhdrBad 0x7801#16).wf = false := by decide

theorem test_wf_refuses_filt_invalid_of_paeth : (Instr.filtInvalid 4).wf = false := by decide

theorem test_wf_admits : (Instr.skip 0x74455874#32).wf = true ∧ (Instr.zhdr 0x789C#16).wf = true ∧
    (Instr.zhdrBad 0x7701#16).wf = true ∧ (Instr.filtInvalid 5).wf = true := by decide

/-! ### Decoding, one word or more for every constructor (30 R110 to R126) -/

/-- CTRL and PIX_CMD: bit 0 the command, bit 1 of CTRL HEADER_ONLY, the other bits ignored (10 R46, R53). -/
theorem test_decode_host_cmd :
    decode .ctrl 0b01 = .ok (.start false) ∧ decode .ctrl 0b11 = .ok (.start true) ∧
    decode .ctrl 0xFFFFFFF9 = .ok (.start false) ∧ decode .ctrl 0b10 = .error .noCommand ∧
    decode .pixCmd 1 = .ok .pixelRead ∧ decode .pixCmd 0 = .error .noCommand := by decide

theorem test_decode_sig : decode .sig 0x89504E470D0A1A0A = .ok .sig ∧
    decode .sig 0x89504E470D0A1A0B = .error .badSignature := by decide

/-- The four recognised types in ASCII, and tEXt (30 R113). -/
theorem test_decode_chunk :
    decode .chunk 0x49484452 = .ok .ihdr ∧ decode .chunk 0x504C5445 = .ok .plte ∧
    decode .chunk 0x49444154 = .ok .idat ∧ decode .chunk 0x49454E44 = .ok .iend ∧
    decode .chunk 0x74455874 = .ok (.skip 0x74455874) := by decide

/-- 95 E10: 78 01, 78 9C and 78 DA pass; 77 01, 78 02 and 78 20 do not. -/
theorem test_decode_zlib :
    decode .zlib 0x7801 = .ok (.zhdr 0x7801) ∧ decode .zlib 0x789C = .ok (.zhdr 0x789C) ∧
    decode .zlib 0x78DA = .ok (.zhdr 0x78DA) ∧ decode .zlib 0x7701 = .ok (.zhdrBad 0x7701) ∧
    decode .zlib 0x7802 = .ok (.zhdrBad 0x7802) ∧ decode .zlib 0x7820 = .ok (.zhdrBad 0x7820) := by decide

/-- BFINAL is bit 0, BTYPE bits 2:1 (30 R117). -/
theorem test_decode_bhdr :
    decode .bhdr 0b000 = .ok (.blkStored false) ∧ decode .bhdr 0b001 = .ok (.blkStored true) ∧
    decode .bhdr 0b011 = .ok (.blkFixed true) ∧ decode .bhdr 0b100 = .ok (.blkDynamic false) ∧
    decode .bhdr 0b111 = .ok (.blkInvalid true) := by decide

theorem test_decode_cl :
    decode .cl 0 = .ok (.clen 0) ∧ decode .cl 15 = .ok (.clen 15) ∧ decode .cl 16 = .ok .repprev ∧
    decode .cl 17 = .ok .repzero ∧ decode .cl 18 = .ok .repzerol ∧ decode .cl 19 = .error .codeLengthSymbol := by decide

theorem test_decode_ll :
    decode .ll 0 = .ok (.lit 0) ∧ decode .ll 255 = .ok (.lit 0xFF) ∧ decode .ll 256 = .ok .eob ∧
    decode .ll 286 = .ok (.llInvalid 0) ∧ decode .ll 287 = .ok (.llInvalid 1) ∧
    decode .ll 288 = .error .literalSymbol := by decide

theorem test_decode_length_codes :
    decode .ll 257 = .ok .len257 ∧ decode .ll 258 = .ok .len258 ∧ decode .ll 259 = .ok .len259 ∧
    decode .ll 260 = .ok .len260 ∧ decode .ll 261 = .ok .len261 ∧ decode .ll 262 = .ok .len262 ∧
    decode .ll 263 = .ok .len263 ∧ decode .ll 264 = .ok .len264 ∧ decode .ll 265 = .ok .len265 ∧
    decode .ll 266 = .ok .len266 ∧ decode .ll 267 = .ok .len267 ∧ decode .ll 268 = .ok .len268 ∧
    decode .ll 269 = .ok .len269 ∧ decode .ll 270 = .ok .len270 ∧ decode .ll 271 = .ok .len271 ∧
    decode .ll 272 = .ok .len272 ∧ decode .ll 273 = .ok .len273 ∧ decode .ll 274 = .ok .len274 ∧
    decode .ll 275 = .ok .len275 ∧ decode .ll 276 = .ok .len276 ∧ decode .ll 277 = .ok .len277 ∧
    decode .ll 278 = .ok .len278 ∧ decode .ll 279 = .ok .len279 ∧ decode .ll 280 = .ok .len280 ∧
    decode .ll 281 = .ok .len281 ∧ decode .ll 282 = .ok .len282 ∧ decode .ll 283 = .ok .len283 ∧
    decode .ll 284 = .ok .len284 ∧ decode .ll 285 = .ok .len285 := by decide

theorem test_decode_distance_codes :
    decode .dist 0 = .ok .dist0 ∧ decode .dist 1 = .ok .dist1 ∧ decode .dist 2 = .ok .dist2 ∧
    decode .dist 3 = .ok .dist3 ∧ decode .dist 4 = .ok .dist4 ∧ decode .dist 5 = .ok .dist5 ∧
    decode .dist 6 = .ok .dist6 ∧ decode .dist 7 = .ok .dist7 ∧ decode .dist 8 = .ok .dist8 ∧
    decode .dist 9 = .ok .dist9 ∧ decode .dist 10 = .ok .dist10 ∧ decode .dist 11 = .ok .dist11 ∧
    decode .dist 12 = .ok .dist12 ∧ decode .dist 13 = .ok .dist13 ∧ decode .dist 14 = .ok .dist14 ∧
    decode .dist 15 = .ok .dist15 := by decide

theorem test_decode_distance_codes_far :
    decode .dist 16 = .ok .dist16 ∧ decode .dist 17 = .ok .dist17 ∧
    decode .dist 18 = .ok .dist18 ∧ decode .dist 19 = .ok .dist19 ∧ decode .dist 20 = .ok .dist20 ∧
    decode .dist 21 = .ok .dist21 ∧ decode .dist 22 = .ok .dist22 ∧ decode .dist 23 = .ok .dist23 ∧
    decode .dist 24 = .ok .dist24 ∧ decode .dist 25 = .ok .dist25 ∧ decode .dist 26 = .ok .dist26 ∧
    decode .dist 27 = .ok .dist27 ∧ decode .dist 28 = .ok .dist28 ∧ decode .dist 29 = .ok .dist29 ∧
    decode .dist 30 = .ok (.distInvalid 0) ∧ decode .dist 31 = .ok (.distInvalid 1) ∧
    decode .dist 32 = .error .distanceSymbol := by decide

theorem test_decode_filter :
    decode .filter 0 = .ok .filtNone ∧ decode .filter 1 = .ok .filtSub ∧ decode .filter 2 = .ok .filtUp ∧
    decode .filter 3 = .ok .filtAvg ∧ decode .filter 4 = .ok .filtPaeth ∧ decode .filter 5 = .ok (.filtInvalid 5) ∧
    decode .filter 255 = .ok (.filtInvalid 255) := by decide

/-- The EXTRACT steps have no encoding (30 R110). -/
theorem test_decode_seq : decode .seq 0 = .error .noEncoding ∧ encode .plen = none ∧ encode .pixel = none := by decide

/-! ### The reading and placing of a bare table word (log 16) -/

theorem test_table_word :
    decodeTableWord 64 0x89504E470D0A1A0A = some .sig ∧ decodeTableWord 32 0x49444154 = some .idat ∧
    decodeTableWord 8 16 = some .repprev ∧ decodeTableWord 16 0x10A = some .len266 ∧
    decodeTableWord 24 0x14 = some .dist20 ∧ decodeTableWord 8 4 = some .filtPaeth := by decide

theorem test_placed_word_is_fetched :
    fetch (State.reset.withFetchWord 8 16) = .item .repprev { State.reset.withFetchWord 8 16 with host := [] } ∧
    fetch (State.reset.withFetchWord 16 0x10A) = .item .len266 (State.reset.withFetchWord 16 0x10A) ∧
    fetch (State.reset.withFetchWord 8 4) = .item .filtPaeth (State.reset.withFetchWord 8 4) := by decide

/-! ### The host port -/

/-- 95 P.CAP1: 77 bytes against IN_CAP 76; STATUS 0x07. -/
theorem test_start_over_capacity :
    (ran (.start false) { State.reset with inLen := 77, inCap := some 76 }).err = some ⟨.inBuffer, 77, 76⟩ ∧
    (ran (.start false) { State.reset with inLen := 77, inCap := some 76 }).readRegister 0x04 = 0x07 ∧
    (ran (.start false) { State.reset with inLen := 77, inCap := some 77 }).phase = .parse := by decide

/-- 95 R.10, R.11: START leaves ERROR and clears the latch; in a busy phase it is ignored with its HEADER_ONLY bit. -/
theorem test_start_after_error_and_while_busy :
    (ran (.start true) (faulted (inflating .bhdr 16 []) .invalidBlockType 16 3)).err = none ∧
    (ran (.start true) (faulted (inflating .bhdr 16 []) .invalidBlockType 16 3)).phase = .parse ∧
    (ran (.start true) (inflating .bhdr 16 [])).phase = .inflate ∧
    (ran (.start true) (inflating .bhdr 16 [])).headerOnly = false := by decide

/-- 95 R.1: PIXEL_READ after power-on gives EmptyPixelData, code 5. -/
theorem test_pixel_read_before_pixels :
    (ran .pixelRead State.reset).pixStatus = 5 ∧ (ran .pixelRead State.reset).pixData = 0 := by decide

/-- 95 R.6, R.3: pixel (1, 0) of P1 after a fault; column 2 is out of bounds and leaves PIX_DATA. -/
theorem test_pixel_read_after_pixels :
    let s := faulted (extracting [0, 0, 0, 3, 0x61, 0x62, 0x63, 0x64] 3) .lengthCeiling 4194305 4194304
    (ran .pixelRead { s with pixX := 1 }).pixData = 0x61626364 ∧ (ran .pixelRead { s with pixX := 1 }).pixStatus = 0 ∧
    (ran .pixelRead { s with pixX := 2, pixData := 7 }).pixData = 7 ∧
    (ran .pixelRead { s with pixX := 2, pixData := 7 }).pixStatus = 4 := by decide

/-- The END state of 95 P1: STATUS 0x75, FORMAT 0x00000608, FORMAT2 0x00000C00, ERR 0. -/
theorem test_registers_of_p1 :
    let s := completePayload { extracting [0, 0, 0, 3, 0x61, 0x62, 0x63, 0x64] 3 with payload := [0x61, 0x62, 0x63] }
    s.readRegister 0x04 = 0x75 ∧ s.readRegister 0x20 = 0x608 ∧ s.readRegister 0x24 = 0xC00 ∧ s.readRegister 0x08 = 0 ∧
    s.readRegister 0x30 = 3 ∧ s.readRegister 0x18 = 2 ∧ s.readRegister 0x1C = 1 := by decide

/-- 95, notation: ERR of InvalidSymbol is 0x00000A01, of UnsupportedInterlace 0x00000102. -/
theorem test_err_register :
    (faulted State.reset .invalidSymbol 34 30).readRegister 0x08 = 0xA01 ∧
    (faulted State.reset .unsupportedInterlace 0 1).readRegister 0x08 = 0x102 ∧
    (faulted State.reset .invalidSymbol 34 30).readRegister 0x0C = 34 ∧
    (faulted State.reset .invalidSymbol 34 30).readRegister 0x10 = 30 := by decide

/-- One host access a step: IN_LEN is written, then read back (10 R50). -/
theorem test_host_writes_in_len :
    (stepped { State.reset with host := [.writeReg 0x14 4 77] }).inLen = 77 ∧
    (stepped { State.reset with host := [.readReg 0x14 4], inLen := 77 }).busData = 77 := by decide

/-- IN is written outside the busy phases, below IN_LEN or not (20 R80, 70 R452, R454), and read below IN_LEN. -/
theorem test_host_writes_in :
    (stepped { State.reset with host := [.writeWindow .input 3 0x4E] }).input = [(3, 0x4E)] ∧
    (stepped { State.reset with host := [.readWindow .input 3], inLen := 4, input := [(3, 0x4E)] }).busData = 0x4E := by
  decide

/-- 70 R450, 93 I16: after power-on IN_LEN = 0 makes IN unreadable; with IN_LEN 4 address 4 is past its length. -/
theorem test_host_reads_within_in_len :
    State.reset.readWindow .input 0 = none ∧
    State.readWindow { State.reset with inLen := 4 } .input 3 = some (State.reset.inByte 3) ∧
    State.readWindow { State.reset with inLen := 4 } .input 4 = none ∧
    State.readWindow { State.reset with inLen := 4, inCap := some 2 } .input 2 = none :=
  ⟨by decide, rfl, by decide, by decide⟩

/-! ### PARSE -/

/-- 95 P.SIG3 and P.SIG2. -/
theorem test_sig :
    (stepped (placeValue .sig 0x89504E470D0A1A0A State.reset)).pos = 8 ∧
    (stepped (placeValue .sig 0x89504E470D0A1A0B State.reset)).err = some ⟨.badSignature, 0, 0⟩ ∧
    (stepped { placeValue .sig 0x89504E470D0A1A0A State.reset with inLen := 7 }).err =
      some ⟨.truncatedInput, 0, 0⟩ := by decide

/-- 95 P.FR1 to P.FR4: the chunk at 8 cut in its head, its data and its CRC. -/
theorem test_chunk_cut :
    (stepped (parsing false [])).err = some ⟨.truncatedInput, 8, 8⟩ ∧
    (stepped (parsing false ((ihdrChunk 8 6 0 0 0).take 6))).err = some ⟨.truncatedInput, 8, 8⟩ ∧
    (stepped (parsing false ((ihdrChunk 8 6 0 0 0).take 12))).err = some ⟨.truncatedInput, 8, 16⟩ ∧
    (stepped (parsing false ((ihdrChunk 8 6 0 0 0).take 23))).err = some ⟨.truncatedInput, 8, 29⟩ := by decide

/-- 95 P1: the descriptor of its IHDR; P.IHDR8: header-only mode ends the run. -/
theorem test_ihdr_accepts :
    let t := stepped (parsing false (ihdrChunk 8 6 0 0 0))
    let h := stepped { parsing false (ihdrChunk 8 6 0 0 1) with headerOnly := true }
    t.hdrValid = true ∧ t.pos = 33 ∧ t.width = 2 ∧ t.height = 1 ∧ t.colorType = .rgba ∧ t.phase = .parse ∧
    h.phase = .doneHeader ∧ h.readRegister 0x24 = 0xC01 ∧ h.readRegister 0x04 = 0x16 := by decide

/-- 95 P.IHDR1 to P.IHDR7 and P.ORD3. -/
theorem test_ihdr_refuses :
    (stepped (parsing false (chunkBytes 12 chunkTypeIhdr [0, 0, 0, 2, 0, 0, 0, 1, 8, 6, 0, 0]))).err =
      some ⟨.invalidField, 8, 7⟩ ∧
    (stepped (parsing false (ihdrChunk 3 6 0 0 0))).err = some ⟨.invalidField, 8, 2⟩ ∧
    (stepped (parsing false (ihdrChunk 4 2 0 0 0))).err = some ⟨.invalidField, 8, 3⟩ ∧
    (stepped (parsing false (ihdrChunk 8 5 0 0 0))).err = some ⟨.invalidField, 8, 3⟩ ∧
    (stepped (parsing false (ihdrChunk 8 6 1 0 0))).err = some ⟨.invalidField, 8, 4⟩ ∧
    (stepped (parsing false (ihdrChunk 8 6 0 1 0))).err = some ⟨.invalidField, 8, 5⟩ ∧
    (stepped (parsing false (ihdrChunk 8 6 0 0 2))).err = some ⟨.invalidField, 8, 6⟩ ∧
    (stepped (parsing true (ihdrChunk 8 6 0 0 0))).err = some ⟨.chunkOrder, 8, 0⟩ := by decide

/-- 95 P4: its palette; P.PLTE1 to P.PLTE4, here with the chunk at 8. -/
theorem test_plte :
    let s := fun n data => parsing true (chunkBytes n chunkTypePlte data)
    (stepped { s 6 [0, 0, 0, 1, 2, 3] with colorType := .palette }).pal = some [⟨0, 0, 0⟩, ⟨1, 2, 3⟩] ∧
    (stepped (s 3 [0, 0, 0])).err = some ⟨.invalidPalette, 8, 0⟩ ∧
    (stepped { s 4 [0, 0, 0, 0] with colorType := .palette }).err = some ⟨.invalidPalette, 8, 1⟩ ∧
    (stepped { s 9 [0, 0, 0, 0, 0, 0, 0, 0, 0] with colorType := .palette, bitDepth := 1 }).err =
      some ⟨.invalidPalette, 8, 2⟩ ∧
    (stepped { s 3 [0, 0, 0] with colorType := .palette, pal := some [] }).err = some ⟨.chunkOrder, 8, 0⟩ := by decide

/-- 95 E8: IDAT data is appended; P.ORD2: before IHDR it is out of order. -/
theorem test_idat :
    (stepped { parsing true (chunkBytes 2 chunkTypeIdat [0x09, 0x00]) with z := [0x78, 0x01, 0x01] }).z =
      [0x78, 0x01, 0x01, 0x09, 0x00] ∧
    (stepped (parsing false (chunkBytes 1 chunkTypeIdat [0]))).err = some ⟨.chunkOrder, 8, 0⟩ := by decide

/-- 95 P.IEND1 and the end of PARSE. -/
theorem test_iend :
    (stepped (parsing true (chunkBytes 0 chunkTypeIend []))).phase = .inflate ∧
    (stepped { parsing true (chunkBytes 0 chunkTypeIend []) with colorType := .palette }).err =
      some ⟨.invalidPalette, 8, 3⟩ := by decide

/-- 95 P.SKIP1: a tEXt chunk of 3 bytes moves the cursor by 15; P.ORD1: before IHDR it is out of order. -/
theorem test_skip :
    (stepped (parsing true (chunkBytes 3 0x74455874 [0x6B, 0x00, 0x76]))).pos = 23 ∧
    (stepped (parsing false (chunkBytes 3 0x74455874 [0x6B, 0x00, 0x76]))).err = some ⟨.chunkOrder, 8, 0⟩ := by decide

/-! ### The bit reader and the tables -/

/-- 95 B1, B2, B5, B6, B7. -/
theorem test_bits :
    bitsAt [0xB5] 0 3 = 5 ∧ bitsAt [0xB5] 3 5 = 22 ∧ ({ State.reset with z := [0x01], bitPos := 6 } : State).peekBits 4 = 0 ∧
    ({ State.reset with bitPos := 19 } : State).alignToByte.bitPos = 24 ∧
    ({ State.reset with bitPos := 24 } : State).alignToByte.bitPos = 24 := by decide

/-- 41 R213: the table of (3, 3, 3, 3, 3, 2, 4, 4), 16 entries, as (length, symbol). -/
theorem test_worked_example_table :
    (huffTable [3, 3, 3, 3, 3, 2, 4, 4]).maxLen = 4 ∧
    (huffTable [3, 3, 3, 3, 3, 2, 4, 4]).entries.map (fun e => e.map fun c => (c.length, c.symbol)) =
      [some (2, 5), some (3, 2), some (3, 0), some (3, 4), some (2, 5), some (3, 3), some (3, 1), some (4, 6),
       some (2, 5), some (3, 2), some (3, 0), some (3, 4), some (2, 5), some (3, 3), some (3, 1), some (4, 7)] := by
  decide

/-- 95 H2 to H5: over-subscribed, incomplete, empty, complete. -/
theorem test_huffman_shapes :
    overSubscribed [1, 1, 1] = true ∧ overSubscribed [1] = false ∧
    (huffTable [1]).entries = [some ⟨1, 0⟩, none] ∧ (huffTable [0, 0, 0]).maxLen = 0 ∧
    (huffTable [1, 1]).entries = [some ⟨1, 0⟩, some ⟨1, 1⟩] := by decide

/-! ### INFLATE -/

/-- 95 E10 and Z.H1: 78 01 passes, 78 20 is 30752, one byte is too few. -/
theorem test_zlib_header :
    (stepped (inflating .zhdr 0 [0x78, 0x01])).ist = .bhdr ∧ (stepped (inflating .zhdr 0 [0x78, 0x01])).bitPos = 16 ∧
    (stepped (inflating .zhdr 0 [0x78, 0x20])).err = some ⟨.badDeflateHeader, 0, 30752⟩ ∧
    (stepped (inflating .zhdr 0 [0x78])).err = some ⟨.truncatedDeflateStream, 8, 8⟩ := by decide

/-- 95 P1: OUT of its stored block, bitPos 128, and the entry to UNFILTER with bpp 4 and cpr 8. -/
theorem test_stored_of_p1 :
    let t := stepped (inflating .bhdr 16 [0x78, 0x01, 0x01, 0x09, 0x00, 0xF6, 0xFF, 0x00, 0x00, 0x00, 0x00, 0x03, 0x61,
      0x62, 0x63, 0x64, 0x03, 0xEC, 0x01, 0x8E])
    t.out = [0, 0, 0, 0, 3, 0x61, 0x62, 0x63, 0x64] ∧ t.bitPos = 128 ∧ t.phase = .unfilter ∧ t.bpp = 4 ∧
    t.cpr = 8 := by decide

/-- 95 Z.S3, Z.S4 and Z.S5: the bytes run out, NLEN is wrong, OUT is full. -/
theorem test_stored_faults :
    let cut := stepped (inflating .bhdr 16 [0x78, 0x01, 0x01, 0x09, 0x00, 0xF6, 0xFF, 0x00, 0x00, 0x00])
    let full := stepped { inflating .bhdr 16 [0x78, 0x01, 0x01, 0x09, 0x00, 0xF6, 0xFF, 0, 0, 0, 0, 3, 0x61, 0x62, 0x63, 0x64]
      with outCap := some 8 }
    cut.err = some ⟨.truncatedDeflateStream, 80, 8⟩ ∧ cut.out = [0, 0, 0] ∧
    (stepped (inflating .bhdr 16 [0x78, 0x01, 0x01, 0x09, 0x00, 0xF6, 0xFE])).err =
      some ⟨.storedLengthMismatch, 24, 655094⟩ ∧
    full.err = some ⟨.outBuffer, 8, 8⟩ ∧ full.out.length = 8 := by decide

/-- 95 Z.F1 and Z.B1. -/
theorem test_fixed_and_invalid_headers :
    (stepped (inflating .bhdr 16 [0x78, 0x9C, 0x03, 0x00])).ist = .codes ∧
    (stepped (inflating .bhdr 16 [0x78, 0x9C, 0x03, 0x00])).bitPos = 19 ∧
    (stepped (inflating .bhdr 16 [0x78, 0x01, 0x07])).err = some ⟨.invalidBlockType, 16, 3⟩ := by decide

/-- 95 Z.D1 and Z.D4: HCLEN 4, all four lengths 1, and all 0. -/
theorem test_dynamic_headers :
    let t := stepped (inflating .bhdr 16 [0x78, 0x01, 0x05, 0x00, 0x00, 0x00, 0x00])
    (stepped (inflating .bhdr 16 [0x78, 0x01, 0x05, 0x00, 0x92, 0x04])).err = some ⟨.invalidCodeLengths, 45, 0⟩ ∧
    t.ist = .clseq ∧ t.bitPos = 45 ∧ t.hlit = 257 ∧ t.hdist = 1 ∧ t.hclen = 4 := by decide

set_option maxRecDepth 8000 in
/-- 95 E11: 16, 17 and 18 with their least and largest extra values; code 16 first (Z.D2). -/
theorem test_code_length_items :
    let s := fun symbol b => { inflating .clseq 0 [b, 0] with
      clTab := some (singleCodeTable symbol), hlit := 286, hdist := 30, lens := [7] }
    (stepped (s 5 0)).lens = [7, 5] ∧ (stepped (s 16 0)).lens = [7, 7, 7, 7] ∧
    (stepped (s 16 0b110)).lens = List.replicate 7 7 ∧ (stepped (s 17 0)).lens = [7, 0, 0, 0] ∧
    (stepped (s 17 0b1110)).lens.length = 11 ∧ (stepped (s 18 0)).lens.length = 12 ∧
    (stepped (s 18 0b11111110)).lens.length = 139 ∧
    (stepped { s 16 0 with lens := [] }).err = some ⟨.invalidCodeLengths, 0, 3⟩ ∧
    (stepped { s 18 0xFE with hlit := 257, hdist := 1, lens := List.replicate 138 0 }).err =
      some ⟨.invalidCodeLengths, 0, 4⟩ := by decide

/-- A literal, the end of a block that is not final, and symbol 286 (95 Z.F2, R240, Z.F5). -/
theorem test_literal_items :
    let s := fun symbol => { inflating .codes 0 [0] with
      litTab := some (singleCodeTable symbol), distTab := some (singleCodeTable 0) }
    (stepped (s 0x61)).out = [0x61] ∧ (stepped (s 0x61)).bitPos = 1 ∧ (stepped (s 256)).ist = .bhdr ∧
    (stepped (s 286)).err = some ⟨.invalidSymbol, 0, 286⟩ := by decide

set_option maxRecDepth 8000 in
/-- 95 Z.C3 and Z.C5: length code 265 with extra 1 is 12, 284 with extra 31 is 258. -/
theorem test_length_extra_bits :
    let s := fun symbol b => { inflating .codes 0 [b, 0] with
      litTab := some (singleCodeTable symbol), distTab := some (singleCodeTable 0), out := [0xAA] }
    (stepped (s 265 0b10)).out = List.replicate 13 0xAA ∧ (stepped (s 284 0b111110)).out.length = 259 ∧
    (stepped (s 285 0)).out.length = 259 := by decide

/-- 95 Z.C1, Z.F6 and Z.F7: an overlapping copy, distance symbol 30, a distance past the start of OUT. -/
theorem test_distances :
    let s := fun symbol => { inflating .codes 0 [0, 0] with
      litTab := some (singleCodeTable 260), distTab := some (singleCodeTable symbol), out := [0x61, 0x62] }
    (stepped (s 1)).out = [0x61, 0x62, 0x61, 0x62, 0x61, 0x62, 0x61, 0x62] ∧
    (stepped (s 30)).err = some ⟨.invalidSymbol, 1, 30⟩ ∧ (stepped (s 2)).err = some ⟨.invalidDistance, 1, 3⟩ := by
  decide

/-- 95 Z.C4: distance code 29 with extra 8191 is 32768. -/
theorem test_largest_distance :
    (distanceRow 29).base + 8191 = 32768 ∧ (distanceRow 29).extra = 13 ∧ (lengthRow 285) = ⟨258, 0⟩ := by decide

/-- 95 Z.D7: a code that does not exist; B8: one that runs past the end; Z.D6 in kind: a length with no distance code. -/
theorem test_huffman_faults :
    (stepped { inflating .codes 0 [1] with litTab := some (singleCodeTable 256), distTab := some emptyTable }).err =
      some ⟨.invalidHuffmanCode, 0, 0⟩ ∧
    (stepped { inflating .codes 8 [0] with litTab := some (singleCodeTable 256), distTab := some emptyTable }).err =
      some ⟨.truncatedDeflateStream, 8, 1⟩ ∧
    (stepped { inflating .codes 0 [0] with litTab := some (singleCodeTable 257), distTab := some emptyTable }).err =
      some ⟨.invalidHuffmanCode, 1, 0⟩ := by decide

/-! ### UNFILTER -/

/-- 95 U.N1, U.S1: a whole row, then EXTRACT. -/
theorem test_filter_rows :
    (stepped (unfiltering [0, 0, 0, 0, 3, 0x61, 0x62, 0x63, 0x64])).pix = [0, 0, 0, 3, 0x61, 0x62, 0x63, 0x64] ∧
    (stepped (unfiltering [1, 0, 0, 0, 0x0A, 0x10, 0x20, 0x30, 0x36])).pix =
      [0, 0, 0, 0x0A, 0x10, 0x20, 0x30, 0x40] ∧
    (stepped (unfiltering [0, 0, 0, 0, 3, 0x61, 0x62, 0x63, 0x64])).phase = .extract := by decide

/-- 95 U.U2, U.A1, U.A4: the row above, the exact average, the average on row 0. -/
theorem test_filter_predictors :
    let s := fun tag f => { unfiltering [0, 0x90, tag, f] with row := 1, height := 2, width := 1, bpp := 1, cpr := 1, pix := [0x90] }
    (stepped (s 2 0x80)).pix = [0x90, 0x10] ∧
    (stepped { s 3 0xC1 with out := [0, 0, 0, 3, 0, 0xC1], cpr := 2, pix := [0, 0xFF], width := 2 }).pix =
      [0, 0xFF, 0, 0x40] ∧
    predAvg 0x80 0xFF 0 = 0xBF ∧ predAvg 200 100 0 = 150 ∧ predAvg 255 255 0 = 255 ∧ predAvg 9 0 0 = 4 := by decide

/-- 95 U.P1 to U.P7. -/
theorem test_paeth :
    predPaeth 10 20 15 = 15 ∧ predPaeth 10 20 10 = 20 ∧ predPaeth 200 100 50 = 200 ∧ predPaeth 3 0 1 = 3 ∧
    predPaeth 0 3 1 = 3 ∧ predPaeth 7 7 7 = 7 ∧ predPaeth 0 255 255 = 0 := by decide

/-- 95 U.I1 and U.T1: tag 5, and OUT one byte short. -/
theorem test_bad_rows :
    (stepped (unfiltering [5, 0, 0, 0, 3, 0x61, 0x62, 0x63, 0x64])).err = some ⟨.invalidFilterType, 0, 5⟩ ∧
    (stepped (unfiltering [0, 0, 0, 0, 3, 0x61, 0x62, 0x63])).err = some ⟨.truncatedImageData, 0, 8⟩ := by decide

/-! ### EXTRACT -/

/-- 95 P1, X.L0: length 3; length 0 completes at once. -/
theorem test_plen :
    (stepped { extracting [0, 0, 0, 3, 0x61, 0x62, 0x63, 0x64] 0 with px := 0 }).plen = 3 ∧
    (stepped { extracting [0, 0, 0, 3, 0x61, 0x62, 0x63, 0x64] 0 with px := 0 }).phase = .extract ∧
    (stepped { extracting [0, 0, 0, 0, 0x61, 0x62, 0x63, 0x64] 0 with px := 0 }).phase = .done := by decide

/-- 95 X.C1, X.D16: over the ceiling, and a depth without SampleFn. -/
theorem test_plen_faults :
    (stepped { extracting [0, 0x40, 0, 1, 0x61, 0x62, 0x63, 0x64] 0 with px := 0 }).err =
      some ⟨.lengthCeiling, 4194305, 4194304⟩ ∧
    (stepped { extracting [0, 0] 0 with px := 0, bitDepth := 16, colorType := .gray, width := 1 }).err =
      some ⟨.sampleFn, 0, 0⟩ := by decide

/-- 95 P1 and X.L5: the payload 61 62 63; the walk runs out of rows. -/
theorem test_pixel :
    (stepped (extracting [0, 0, 0, 3, 0x61, 0x62, 0x63, 0x64] 3)).payload = [0x61, 0x62, 0x63] ∧
    (stepped (extracting [0, 0, 0, 3, 0x61, 0x62, 0x63, 0x64] 3)).phase = .done ∧
    (stepped { extracting [0, 0, 0, 5, 0x61, 0x62, 0x63, 0x64] 5 with px := 2, payload := [0x61, 0x62, 0x63, 0x64] }).err =
      some ⟨.pixelCoordinates, 0, 1⟩ := by decide

/-- 95 X.G0, X.G2, X.G3, X.G3b, X.G4: pixel (1, 0) by colour type. -/
theorem test_pixel_colour_types :
    let s := fun ct bpp pix => { extracting pix 0 with colorType := ct, bpp := bpp, cpr := 3 * bpp, width := 3 }
    (s .gray 1 [0, 1, 0x41]).getPixel 1 0 = .ok ⟨1, 1, 1, 255⟩ ∧
    (s .rgb 3 [0, 0, 0, 0x41, 0x42, 0x43]).getPixel 1 0 = .ok ⟨0x41, 0x42, 0x43, 255⟩ ∧
    ({ s .palette 1 [0, 1] with pal := some [⟨0, 0, 0⟩, ⟨1, 2, 3⟩] } : State).getPixel 1 0 = .ok ⟨1, 2, 3, 255⟩ ∧
    ({ s .palette 1 [0, 1] with pal := some [⟨0, 0, 0⟩] } : State).getPixel 1 0 = .error ⟨.paletteIndex, 1, 1⟩ ∧
    (s .grayAlpha 2 [0, 0, 0x41, 0xFF]).getPixel 1 0 = .ok ⟨0x41, 0x41, 0x41, 0xFF⟩ := by decide

/-! ### Witnesses: a state and operands that meet the hypotheses of each statement, and of each of its clauses -/

/-- A code of the one-code table stands at the cursor. -/
theorem codeAt_single (symbol : Nat) (s : State) (h : s.peekBits 1 = 0) (hf : s.bitPos + 1 ≤ 8 * s.z.length) :
    CodeAt s (some (singleCodeTable symbol)) 1 symbol :=
  ⟨by simp only [State.peekEntry, singleCodeTable, Option.getD_some, h]; rfl, hf⟩

/-- A whole chunk of the tests stands at offset 8. -/
theorem chunkAt_parsing (hdr : Bool) (n : Nat) (type : BitVec 32) (data : List Byte)
    (h : (8 + 12 + n ≤ (parsing hdr (chunkBytes n type data)).inLen.toNat ∧
      be ((parsing hdr (chunkBytes n type data)).inBytes 8 4) = n ∧
      be ((parsing hdr (chunkBytes n type data)).inBytes 12 4) = type.toNat ∧
      (parsing hdr (chunkBytes n type data)).inBytes 16 n = data)) :
    ChunkAt (parsing hdr (chunkBytes n type data)) n type data :=
  ⟨h.1, h.2.1, h.2.2.1, h.2.2.2⟩

theorem test_witness_DecodeEncodeRoundTrip :
    (Instr.skip 0x74455874).wf = true ∧ encode (.skip 0x74455874) = some 0x74455874 := by decide

theorem test_witness_DecodedItemsReencode :
    decode .zlib 0x7801 = .ok (.zhdr 0x7801) ∧ Alphabet.zlib ≠ .ctrl ∧ Alphabet.zlib ≠ .pixCmd := by decide

/-- The value a read gives, none where it faults. -/
def readValue : Res Nat → Option Nat
  | .ok v _ => some v
  | .raised _ => none

/-- A read that gives a value goes on with some state. -/
theorem ok_of_readValue {r : Res Nat} {v : Nat} (h : readValue r = some v) : ∃ s, r = .ok v s := by
  cases r with
  | ok w s => cases h; exact ⟨s, rfl⟩
  | raised s => cases h

/-- Each decoding context in a state that reads it from its own table, the distance one with a length pending. -/
theorem test_witness_StepRunsDecodedItem :
    let p := parsing true (chunkBytes 0 chunkTypeIend [])
    let zh := inflating .zhdr 0 [0x78, 0x01]
    let bh := inflating .bhdr 16 [0x78, 0x01, 0x03]
    let cl := { inflating .clseq 0 [0, 0] with clTab := some (singleCodeTable 18) }
    let ll := { inflating .codes 0 [0, 0] with litTab := some (singleCodeTable 256) }
    let di := { inflating .codes 0 [0, 0] with distTab := some (singleCodeTable 29), pendLen := some 3 }
    let u := unfiltering [4, 0, 0, 0, 0, 0, 0, 0, 0]
    (p.host = [] ∧ p.phase = .parse ∧ p.pos ≠ 0 ∧ (∃ s', readChunkType p = .ok 0x49454E44 s') ∧
      decode .chunk 0x49454E44 = .ok .iend) ∧
    (zh.host = [] ∧ zh.phase = .inflate ∧ zh.ist = .zhdr ∧ (∃ s', readZlibHeader zh = .ok 0x7801 s') ∧
      decode .zlib 0x7801 = .ok (.zhdr 0x7801)) ∧
    (bh.ist = .bhdr ∧ (∃ s', readBlockHeader bh = .ok 3 s') ∧ decode .bhdr 3 = .ok (.blkFixed true)) ∧
    (cl.ist = .clseq ∧ (∃ s', huffDecode cl.clTab cl = .ok 18 s') ∧ decode .cl 18 = .ok .repzerol) ∧
    (ll.ist = .codes ∧ ll.pendLen = none ∧ (∃ s', huffDecode ll.litTab ll = .ok 256 s') ∧ decode .ll 256 = .ok .eob) ∧
    (di.host = [] ∧ di.phase = .inflate ∧ di.ist = .codes ∧ di.pendLen = some 3 ∧
      (∃ s', huffDecode di.distTab di = .ok 29 s') ∧ decode .dist 29 = .ok .dist29) ∧
    (u.host = [] ∧ u.phase = .unfilter ∧ u.row < u.height.toNat ∧ (∃ s', readTag u = .ok 4 s') ∧
      decode .filter 4 = .ok .filtPaeth) :=
  ⟨⟨rfl, rfl, by decide, ok_of_readValue (by decide), by decide⟩,
    ⟨rfl, rfl, rfl, ok_of_readValue (by decide), by decide⟩, ⟨rfl, ok_of_readValue (by decide), by decide⟩,
    ⟨rfl, ok_of_readValue (by decide), by decide⟩, ⟨rfl, rfl, ok_of_readValue (by decide), by decide⟩,
    ⟨rfl, rfl, rfl, rfl, ok_of_readValue (by decide), by decide⟩,
    rfl, rfl, by decide, ok_of_readValue (by decide), by decide⟩

/-- The SIG, PLEN and PIXEL clauses of StepRunsDecodedItem. -/
theorem test_witness_StepRunsDecodedItem_unread :
    let sig := placeValue .sig 0x89504E470D0A1A0A State.reset
    let plen := { extracting [0, 0, 0, 3, 0x61, 0x62, 0x63, 0x64] 0 with px := 0 }
    let pixel := extracting [0, 0, 0, 3, 0x61, 0x62, 0x63, 0x64] 3
    (sig.host = [] ∧ sig.phase = .parse ∧ sig.pos = 0) ∧ (plen.host = [] ∧ plen.phase = .extract ∧ plen.px = 0) ∧
    (pixel.host = [] ∧ pixel.phase = .extract ∧ pixel.px ≠ 0) := by decide

/-- The host clauses of StepRunsDecodedItem. -/
theorem test_witness_StepRunsDecodedItem_commands :
    decode .ctrl (1 : Word).toNat = .ok (.start false) ∧ decode .pixCmd (1 : Word).toNat = .ok .pixelRead ∧
    { State.reset with host := [.writeReg 0x3C 4 1] }.host = .writeReg 0x3C 4 1 :: [] := by decide

theorem test_witness_ResetLeavesIdleAndZero :
    { State.reset with host := [.powerOn] }.host = .powerOn :: [] := by decide

theorem test_witness_EngineWaitsForStart : State.reset.host = [] ∧ State.reset.phase.busy = false := by decide

/-- At the capacity and one over it. -/
theorem test_witness_StartBeginsRun :
    (inflating .bhdr 16 []).phase.busy = true ∧ State.reset.phase.busy = false ∧
    exceedsCap (77 : BitVec 32).toNat (some 77) = false ∧
    { State.reset with inLen := 77, inCap := some 76 }.inCap = some 76 ∧ 76 < (77 : BitVec 32).toNat := by decide

theorem test_witness_PixelReadReports :
    let s := { extracting [0, 0, 0, 3, 0x61, 0x62, 0x63, 0x64] 3 with phase := .done, pixX := 1 }
    (inflating .bhdr 16 []).phase.busy = true ∧ s.phase.busy = false ∧
    s.getPixel s.pixX.toNat s.pixY.toNat = .ok ⟨0x61, 0x62, 0x63, 0x64⟩ ∧
    State.reset.getPixel 0 0 = .error ⟨.noPixels, 0, 0⟩ := by decide

/-- Narrow, unaligned, whole, and the first reserved offset. -/
theorem test_witness_RegisterAccesses :
    ((1 ≠ 4 ∨ 0x14 % 4 ≠ 0) ∧ { State.reset with host := [.writeReg 0x14 1 0] }.host = .writeReg 0x14 1 0 :: []) ∧
    ((4 ≠ 4 ∨ 0x15 % 4 ≠ 0) ∧ { State.reset with host := [.readReg 0x15 4] }.host = .readReg 0x15 4 :: []) ∧
    (0x48 % 4 = 0 ∧ 0x48 ≤ 0x48 ∧ { State.reset with host := [.readReg 0x48 4] }.host = .readReg 0x48 4 :: []) := by
  decide

theorem test_witness_RegisterViews :
    State.reset.err = none ∧ State.reset.pal = none ∧
    (faulted State.reset .invalidSymbol 34 30).err = some ⟨.invalidSymbol, 34, 30⟩ ∧
    (inflating .bhdr 16 []).hdrValid = true ∧
    { State.reset with pal := some (List.replicate 256 ⟨0, 0, 0⟩) }.pal = some (List.replicate 256 ⟨0, 0, 0⟩) ∧
    (List.replicate 256 (⟨0, 0, 0⟩ : Rgb)).length ≤ 256 :=
  ⟨rfl, rfl, rfl, rfl, rfl, by rw [List.length_replicate]⟩

/-- The edges of the read-only ranges, which leave out IN_LEN, PIX_X, PIX_Y and PIX_CMD. -/
theorem test_witness_RegisterWrites :
    { State.reset with host := [.writeReg 0x3C 4 2] }.host = .writeReg 0x3C 4 2 :: [] ∧
    State.reset.phase.busy = false ∧ (inflating .bhdr 16 []).phase.busy = true ∧ (2 : Word).getLsbD 0 = false ∧
    (∀ o, o = 0x04 ∨ o = 0x10 ∨ o = 0x18 ∨ o = 0x30 ∨ o = 0x40 ∨ o = 0x44 →
      o % 4 = 0 ∧ ((0x04 ≤ o ∧ o ≤ 0x10) ∨ (0x18 ≤ o ∧ o ≤ 0x30) ∨ 0x40 ≤ o)) ∧
    (∀ o, o = 0x00 ∨ o = 0x14 ∨ o = 0x34 ∨ o = 0x38 ∨ o = 0x3C →
      ¬ ((0x04 ≤ o ∧ o ≤ 0x10) ∨ (0x18 ≤ o ∧ o ≤ 0x30) ∨ 0x40 ≤ o)) := by
  refine ⟨by decide, by decide, by decide, by decide, fun o h => ?_, fun o h => ?_⟩ <;> omega

/-- The last address below IN_CAP, and a busy phase. -/
theorem test_witness_InputWindowWrites :
    exceedsCap (76 + 1) (some 77) = false ∧ exceedsCap (77 + 1) (some 77) = true ∧ State.reset.phase.busy = false ∧
    (inflating .bhdr 16 []).phase.busy = true ∧
    { State.reset with host := [.writeWindow .input 76 1] }.host = .writeWindow .input 76 1 :: [] := by decide

/-- The last byte of each space and the address after it, in DONE; IN within IN_CAP and past it. -/
theorem test_witness_WindowReadsReturnBytes :
    let s := { extracting [1, 2, 3, 4, 5, 6, 7, 8] 3 with
      phase := .done, inLen := 77, inCap := some 76, out := [9], payload := [0x61, 0x62, 0x63] }
    s.phase.busy = false ∧
    { s with host := [.readWindow .input 75] }.host = .readWindow .input 75 :: [] ∧
    (75 < s.inLen.toNat ∧ exceedsCap (75 + 1) s.inCap = false) ∧
    (76 < s.inLen.toNat ∧ exceedsCap (76 + 1) s.inCap = true) ∧ s.inLen.toNat ≤ 77 ∧
    (0 < s.out.length ∧ s.out.length ≤ 1) ∧ (7 < s.pix.length ∧ s.pix.length ≤ 8) ∧
    (2 < s.payload.length ∧ s.payload.length ≤ 3) := by decide

theorem test_witness_SignatureChecked :
    let s := placeValue .sig 0x89504E470D0A1A0A State.reset
    (8 ≤ s.inLen.toNat ∧ s.inBytes 0 8 = [0x89, 0x50, 0x4E, 0x47, 0x0D, 0x0A, 0x1A, 0x0A]) ∧
    { s with inLen := 7 }.inLen.toNat < 8 ∧
    (placeValue .sig 0x89504E470D0A1A0B State.reset).inBytes 0 8 ≠
      [0x89, 0x50, 0x4E, 0x47, 0x0D, 0x0A, 0x1A, 0x0A] := by decide

/-- The IHDR data of the tests stands at 8 as a whole chunk. -/
theorem chunkAt_ihdr (hdr : Bool) (bd ct cm fm im : Byte) (h : (8 + 12 + 13 ≤ (parsing hdr (ihdrChunk bd ct cm fm im)).inLen.toNat ∧
      be ((parsing hdr (ihdrChunk bd ct cm fm im)).inBytes 8 4) = 13 ∧
      be ((parsing hdr (ihdrChunk bd ct cm fm im)).inBytes 12 4) = chunkTypeIhdr.toNat ∧
      (parsing hdr (ihdrChunk bd ct cm fm im)).inBytes 16 13 = [0, 0, 0, 2, 0, 0, 0, 1, bd, ct, cm, fm, im])) :
    ChunkAt (parsing hdr (ihdrChunk bd ct cm fm im)) 13 chunkTypeIhdr [0, 0, 0, 2, 0, 0, 0, 1, bd, ct, cm, fm, im] :=
  ⟨h.1, h.2.1, h.2.2.1, h.2.2.2⟩

theorem test_witness_IhdrAcceptsHeader :
    ChunkAt (parsing false (ihdrChunk 8 6 0 0 1)) 13 chunkTypeIhdr [0, 0, 0, 2, 0, 0, 0, 1, 8, 6, 0, 0, 1] ∧
    (parsing false (ihdrChunk 8 6 0 0 1)).hdrValid = false ∧ bitDepthLegal 8 = true ∧
    colorTypeOf 6 = some .rgba ∧ depthAllowed .rgba 8 = true := by
  refine ⟨chunkAt_ihdr _ _ _ _ _ _ (by decide), by decide, by decide, by decide, by decide⟩

/-- Each refusal of IHDR: a second header, LENGTH 12, depth 3, colour type 5, depth 4 with colour type 2, methods 1,
interlace 2. -/
theorem test_witness_IhdrRejectsFields :
    ChunkAt (parsing true (ihdrChunk 8 6 0 0 0)) 13 chunkTypeIhdr [0, 0, 0, 2, 0, 0, 0, 1, 8, 6, 0, 0, 0] ∧
    ChunkAt (parsing false (chunkBytes 12 chunkTypeIhdr [0, 0, 0, 2, 0, 0, 0, 1, 8, 6, 0, 0])) 12 chunkTypeIhdr
      [0, 0, 0, 2, 0, 0, 0, 1, 8, 6, 0, 0] ∧
    ChunkAt (parsing false (ihdrChunk 3 6 0 0 0)) 13 chunkTypeIhdr [0, 0, 0, 2, 0, 0, 0, 1, 3, 6, 0, 0, 0] ∧
    ChunkAt (parsing false (ihdrChunk 8 5 0 0 0)) 13 chunkTypeIhdr [0, 0, 0, 2, 0, 0, 0, 1, 8, 5, 0, 0, 0] ∧
    ChunkAt (parsing false (ihdrChunk 8 6 1 0 0)) 13 chunkTypeIhdr [0, 0, 0, 2, 0, 0, 0, 1, 8, 6, 1, 0, 0] ∧
    ChunkAt (parsing false (ihdrChunk 8 6 0 1 0)) 13 chunkTypeIhdr [0, 0, 0, 2, 0, 0, 0, 1, 8, 6, 0, 1, 0] ∧
    ChunkAt (parsing false (ihdrChunk 8 6 0 0 2)) 13 chunkTypeIhdr [0, 0, 0, 2, 0, 0, 0, 1, 8, 6, 0, 0, 2] ∧
    bitDepthLegal 3 = false ∧ colorTypeOf 5 = none ∧ depthAllowed .rgb 4 = false ∧ colorTypeOf 6 = some .rgba ∧
    depthAllowed .rgba 8 = true := by
  refine ⟨chunkAt_ihdr _ _ _ _ _ _ (by decide), chunkAt_parsing _ _ _ _ (by decide),
    chunkAt_ihdr _ _ _ _ _ _ (by decide), chunkAt_ihdr _ _ _ _ _ _ (by decide), chunkAt_ihdr _ _ _ _ _ _ (by decide),
    chunkAt_ihdr _ _ _ _ _ _ (by decide), chunkAt_ihdr _ _ _ _ _ _ (by decide), by decide, by decide, by decide,
    by decide, by decide⟩

/-- A chunk stays where it is when fields PARSE does not read are changed. -/
theorem ChunkAt.of_fields {s t : State} {n : Nat} {type : BitVec 32} {data : List Byte} (h : ChunkAt s n type data)
    (hp : t.pos = s.pos) (hl : t.inLen = s.inLen) (hi : ∀ a k, t.inBytes a k = s.inBytes a k) :
    ChunkAt t n type data :=
  ⟨by rw [hp, hl]; exact h.whole, by rw [hi, hp]; exact h.length_eq, by rw [hi, hp]; exact h.type_eq,
    by rw [hi, hp]; exact h.data_eq⟩

/-- The clauses of PLTE: a second palette, colour type 6, 4 bytes, 3 entries at depth 1, 2 entries at depth 1. -/
theorem test_witness_PlteAcceptsPalette :
    ChunkAt (parsing true (chunkBytes 6 chunkTypePlte [0, 0, 0, 1, 2, 3])) 6 chunkTypePlte [0, 0, 0, 1, 2, 3] ∧
    ChunkAt (parsing true (chunkBytes 4 chunkTypePlte [0, 0, 0, 0])) 4 chunkTypePlte [0, 0, 0, 0] ∧
    ChunkAt (parsing true (chunkBytes 9 chunkTypePlte [0, 0, 0, 0, 0, 0, 0, 0, 0])) 9 chunkTypePlte
      [0, 0, 0, 0, 0, 0, 0, 0, 0] ∧
    (parsing true []).pal = none ∧ (parsing true []).colorType ≠ .palette ∧
    { parsing true [] with colorType := .palette, bitDepth := 1, pal := some [] }.pal ≠ none ∧
    4 % 3 ≠ 0 ∧ 9 > 2 ^ (1 : Byte).toNat * 3 ∧ 6 ≤ 2 ^ (1 : Byte).toNat * 3 := by
  refine ⟨chunkAt_parsing _ _ _ _ (by decide), chunkAt_parsing _ _ _ _ (by decide), chunkAt_parsing _ _ _ _ (by decide),
    by decide, by decide, by decide, by decide, by decide, by decide⟩

/-- The accepting clause in one state: colour type 3, depth 1, two entries. -/
theorem test_witness_PlteAcceptsPalette_state :
    ChunkAt { parsing true (chunkBytes 6 chunkTypePlte [0, 0, 0, 1, 2, 3]) with colorType := .palette, bitDepth := 1 } 6
      chunkTypePlte [0, 0, 0, 1, 2, 3] :=
  ChunkAt.of_fields (chunkAt_parsing true 6 chunkTypePlte [0, 0, 0, 1, 2, 3] (by decide)) rfl rfl
    (fun a k => by induction k generalizing a with
      | zero => rfl
      | succ k ih => simp only [State.inBytes, ih]; rfl)

theorem test_witness_IdatAppendsData :
    ChunkAt (parsing true (chunkBytes 2 chunkTypeIdat [0x09, 0x00])) 2 chunkTypeIdat [0x09, 0x00] ∧
    (parsing true (chunkBytes 2 chunkTypeIdat [0x09, 0x00])).hdrValid = true :=
  ⟨chunkAt_parsing _ _ _ _ (by decide), rfl⟩

theorem test_witness_IendEndsParse :
    ChunkAt (parsing true (chunkBytes 0 chunkTypeIend [])) 0 chunkTypeIend [] ∧
    (parsing true (chunkBytes 0 chunkTypeIend [])).hdrValid = true ∧
    (parsing true (chunkBytes 0 chunkTypeIend [])).colorType ≠ .palette ∧
    { parsing true (chunkBytes 0 chunkTypeIend []) with colorType := .palette }.pal = none :=
  ⟨chunkAt_parsing _ _ _ _ (by decide), rfl, by decide, rfl⟩

theorem test_witness_SkipMovesCursorOnly :
    ChunkAt (parsing true (chunkBytes 3 0x74455874 [0x6B, 0x00, 0x76])) 3 0x74455874 [0x6B, 0x00, 0x76] ∧
    (Instr.skip 0x74455874).wf = true ∧ (parsing true []).hdrValid = true :=
  ⟨chunkAt_parsing _ _ _ _ (by decide), by decide, rfl⟩

theorem test_witness_ChunkBeforeIhdrFaults :
    ChunkAt (parsing false (chunkBytes 0 chunkTypeIend [])) 0 chunkTypeIend [] ∧
    (parsing false (chunkBytes 0 chunkTypeIend [])).hdrValid = false ∧ chunkTypeIend ≠ chunkTypeIhdr ∧
    decode .chunk chunkTypeIend.toNat = .ok .iend :=
  ⟨chunkAt_parsing _ _ _ _ (by decide), rfl, by decide, by decide⟩

/-- One byte short of the head, of the data and of the CRC. -/
theorem test_witness_TruncatedChunkFaults :
    let s := fun k => parsing false ((ihdrChunk 8 6 0 0 0).take k)
    (s 7).host = [] ∧ (s 7).phase = .parse ∧ (s 7).pos ≠ 0 ∧ (s 7).pos + 8 > (s 7).inLen.toNat ∧
    be ((s 20).inBytes 8 4) = 13 ∧ (s 20).pos + 8 ≤ (s 20).inLen.toNat ∧ (s 20).pos + 8 + 13 > (s 20).inLen.toNat ∧
    be ((s 24).inBytes 8 4) = 13 ∧ (s 24).pos + 8 + 13 ≤ (s 24).inLen.toNat ∧
    (s 24).pos + 12 + 13 > (s 24).inLen.toNat ∧ Instr.ihdr.alphabet = .chunk := by decide

/-- The same chunk with its last CRC byte, at 19, changed: every other byte of IN, written or not, is as before. -/
theorem test_witness_CrcBytesAreIgnored :
    let s := parsing true (chunkBytes 0 chunkTypeIend [])
    let m := Memory.write s.input 19 0x82
    ChunkAt s 0 chunkTypeIend [] ∧ Instr.iend.alphabet = .chunk ∧ m ≠ s.input ∧
    (∀ a, a < s.pos + 8 + 0 ∨ s.pos + 12 + 0 ≤ a → ({ s with input := m } : State).inByte a = s.inByte a) := by
  refine ⟨chunkAt_parsing _ _ _ _ (by decide), rfl, by decide, fun a h => ?_⟩
  have h19 : a ≠ 19 := by rintro rfl; revert h; decide
  simp only [State.inByte, Memory.read_write_other _ _ _ _ h19]

/-- At the end of Z and one bit past it. -/
theorem test_witness_GetBitsReadsInOrder :
    (inflating .bhdr 3 [0xB5]).bitPos + 5 ≤ 8 * (inflating .bhdr 3 [0xB5]).z.length ∧
    (inflating .bhdr 3 [0xB5]).bitPos + 6 > 8 * (inflating .bhdr 3 [0xB5]).z.length ∧
    (inflating .bhdr 8 [0xB5]).bitPos ≤ 8 * (inflating .bhdr 8 [0xB5]).z.length := by decide

/-- A bit within Z and one past it. -/
theorem test_witness_PeekBitsPadsWithZeros :
    (inflating .bhdr 6 [1]).bitPos + 1 < 8 * (inflating .bhdr 6 [1]).z.length ∧
    ¬ (inflating .bhdr 6 [1]).bitPos + 2 < 8 * (inflating .bhdr 6 [1]).z.length := by decide

theorem test_witness_AlignSkipsToByte :
    (inflating .bhdr 19 [0, 0, 0]).bitPos ≤ 8 * (inflating .bhdr 19 [0, 0, 0]).z.length := by decide

theorem test_witness_TableEntriesAreCodes :
    (huffTable [3, 3, 3, 3, 3, 2, 4, 4]).entries[7]? = some (some ⟨4, 6⟩) := by decide

/-- Symbol 6 of 41 R213: length 4, code 1110, index 0111. -/
theorem test_witness_CanonicalCodesDecode :
    overSubscribed [3, 3, 3, 3, 3, 2, 4, 4] = false ∧ [3, 3, 3, 3, 3, 2, 4, 4][6]? = some 4 ∧
    7 < 2 ^ (huffTable [3, 3, 3, 3, 3, 2, 4, 4]).maxLen ∧ 7 % 2 ^ 4 = revBits 4 0b1110 := by decide

/-- An empty entry and a code that is cut off: in CLSEQ, in CODES, at a distance code that starts a step, and at the
distance code of a length item. -/
theorem test_witness_HuffmanDecodeFaults :
    let t := singleCodeTable 18
    ({ inflating .clseq 0 [1] with clTab := some t }.ist = .clseq ∧
      { inflating .clseq 0 [1] with clTab := some t }.peekEntry (some t) = none) ∧
    ({ inflating .codes 8 [1] with litTab := some t }.ist = .codes ∧
      { inflating .codes 8 [1] with litTab := some t }.pendLen = none ∧
      { inflating .codes 8 [1] with litTab := some t }.peekEntry (some t) = some ⟨1, 18⟩ ∧
      { inflating .codes 8 [1] with litTab := some t }.bitPos + 1 >
        8 * { inflating .codes 8 [1] with litTab := some t }.z.length) ∧
    ({ inflating .codes 0 [1] with distTab := some t, pendLen := some 3 }.pendLen ≠ none ∧
      { inflating .codes 0 [1] with distTab := some t, pendLen := some 3 }.peekEntry (some t) = none) := by decide

/-- A length item at 0 with an empty distance table, and one whose code ends Z (the clause of 95 Z.D6). -/
theorem test_witness_HuffmanDecodeFaults_distance :
    let s := fun p d => { inflating .codes p [0] with litTab := some (singleCodeTable 257), distTab := some d }
    Instr.len257.lengthCode = some 257 ∧ CodeAt (s 0 emptyTable) (s 0 emptyTable).litTab 1 257 ∧
    (1 = 0 + 1 + (lengthRow 257).extra ∧ 1 ≤ 8 * (s 0 emptyTable).z.length) ∧
    { s 0 emptyTable with bitPos := 1 }.peekEntry (s 0 emptyTable).distTab = none ∧
    CodeAt (s 7 (singleCodeTable 0)) (s 7 (singleCodeTable 0)).litTab 1 257 ∧
    { s 7 (singleCodeTable 0) with bitPos := 8 }.peekEntry (s 7 (singleCodeTable 0)).distTab = some ⟨1, 0⟩ ∧
    8 + 1 > 8 * (s 7 (singleCodeTable 0)).z.length :=
  ⟨rfl, codeAt_single _ _ (by decide) (by decide), by decide, by decide, codeAt_single _ _ (by decide) (by decide),
    by decide, by decide⟩

/-- Both headers of 95 E10 and the two cuts: no byte, one byte. -/
theorem test_witness_ZlibHeaderChecked :
    let s := inflating .zhdr 0
    ((s [0x78, 0x01]).bitPos + 16 ≤ 8 * (s [0x78, 0x01]).z.length ∧
      (0x7801#16).toNat = bitsAt [0x78, 0x01] 0 8 * 256 + bitsAt [0x78, 0x01] 8 8 ∧
      (0x7801#16).toNat / 256 % 16 = 8 ∧ (0x7801#16).toNat % 31 = 0 ∧ (0x7801#16).toNat / 32 % 2 = 0) ∧
    ((0x7820#16).toNat = bitsAt [0x78, 0x20] 0 8 * 256 + bitsAt [0x78, 0x20] 8 8 ∧ (0x7820#16).toNat / 32 % 2 ≠ 0) ∧
    (s []).bitPos + 8 > 8 * (s []).z.length ∧ (s [0x78]).bitPos + 8 ≤ 8 * (s [0x78]).z.length ∧
    (s [0x78]).bitPos + 16 > 8 * (s [0x78]).z.length := by decide

/-- The stored block of 95 Z.S2, LEN 1, whole to its last bit. -/
theorem test_witness_StoredBlockCopies :
    let s := inflating .bhdr 16 [0x78, 0x01, 0x00, 0x01, 0x00, 0xFE, 0xFF, 0x61]
    bitsAt s.z s.bitPos 3 = false.toNat ∧ 24 = 8 * ((s.bitPos + 3 + 7) / 8) ∧ 24 + 32 ≤ 8 * s.z.length ∧
    1 = bitsAt s.z 24 16 ∧ bitsAt s.z (24 + 16) 16 = 65535 - 1 ∧ 24 + 32 + 8 * 1 ≤ 8 * s.z.length ∧
    exceedsCap (s.out.length + 1) s.outCap = false := by decide

/-- 95 Z.S4, a wrong NLEN; Z.S2 without its byte; Z.S5, 9 bytes against OUT_CAP 8. -/
theorem test_witness_StoredBlockFaults :
    let bad := inflating .bhdr 16 [0x78, 0x01, 0x01, 0x09, 0x00, 0xF6, 0xFE]
    let cut := inflating .bhdr 16 [0x78, 0x01, 0x00, 0x01, 0x00, 0xFE, 0xFF]
    let full := { inflating .bhdr 16 [0x78, 0x01, 0x01, 0x09, 0x00, 0xF6, 0xFF, 0, 0, 0, 0, 3, 0x61, 0x62, 0x63, 0x64] with
      outCap := some 8 }
    (bitsAt bad.z bad.bitPos 3 = true.toNat ∧ 24 + 32 ≤ 8 * bad.z.length ∧ 9 = bitsAt bad.z 24 16 ∧
      0xFEF6 = bitsAt bad.z (24 + 16) 16 ∧ 0xFEF6 ≠ 65535 - 9) ∧
    (bitsAt cut.z cut.bitPos 3 = false.toNat ∧ 24 = 8 * ((cut.bitPos + 3 + 7) / 8) ∧ 24 + 32 ≤ 8 * cut.z.length ∧
      1 = bitsAt cut.z 24 16 ∧ 0xFFFE = bitsAt cut.z (24 + 16) 16 ∧ 0xFFFE = 65535 - 1 ∧
      24 + 32 + 8 * 1 > 8 * cut.z.length ∧
      exceedsCap (cut.out.length + (cut.z.length - (24 / 8 + 4))) cut.outCap = false) ∧
    (bitsAt full.z full.bitPos 3 = true.toNat ∧ 24 + 32 ≤ 8 * full.z.length ∧ 9 = bitsAt full.z 24 16 ∧
      65535 - 9 = bitsAt full.z (24 + 16) 16 ∧ full.outCap = some 8 ∧ full.out.length + 8 = 8 ∧ 8 < 9 ∧
      24 + 32 + 8 * (8 + 1) ≤ 8 * full.z.length) := by decide

theorem test_witness_FixedAndInvalidBlocks :
    (inflating .bhdr 5 [0b01100000]).bitPos + 3 ≤ 8 * (inflating .bhdr 5 [0b01100000]).z.length ∧
    bitsAt [0b01100000] 5 3 = 2 + true.toNat ∧ bitsAt [0b11000000] 5 3 = 6 + false.toNat := by decide

/-- 95 Z.D4 (four lengths 0) and Z.D1 (four lengths 1, over-subscribed). -/
theorem test_witness_DynamicHeaderBuilds :
    let s := inflating .bhdr 16 [0x78, 0x01, 0x05, 0x00, 0x00, 0x00]
    let t := inflating .bhdr 16 [0x78, 0x01, 0x05, 0x00, 0x92, 0x04]
    let ones : List (BitVec 3) := [1, 0, 0, 0, 0, 0, 0, 0, 0, 0, 0, 0, 0, 0, 0, 0, 1, 1, 1]
    (bitsAt s.z s.bitPos 3 = 4 + true.toNat ∧ 19 = s.bitPos + 3 ∧ 4 = bitsAt s.z (19 + 10) 4 + 4 ∧
      19 + 14 + 3 * 4 ≤ 8 * s.z.length ∧ (List.replicate 19 (0 : BitVec 3)).length = 19 ∧
      (∀ j, j < 19 → (List.replicate 19 (0 : BitVec 3))[clOrder.getD j 0]? =
        some (if j < 4 then BitVec.ofNat 3 (bitsAt s.z (19 + 14 + 3 * j) 3) else 0)) ∧
      overSubscribed ((List.replicate 19 (0 : BitVec 3)).map BitVec.toNat) = false) ∧
    (bitsAt t.z t.bitPos 3 = 4 + true.toNat ∧ 4 = bitsAt t.z (19 + 10) 4 + 4 ∧
      (∀ j, j < 19 → ones[clOrder.getD j 0]? =
        some (if j < 4 then BitVec.ofNat 3 (bitsAt t.z (19 + 14 + 3 * j) 3) else 0)) ∧
      overSubscribed (ones.map BitVec.toNat) = true) := by decide

/-- A length, and repeats that fill the sequence to its last place. -/
theorem test_witness_CodeLengthItemsAppend :
    let s := fun symbol n => { inflating .clseq 0 [0, 0] with
      clTab := some (singleCodeTable symbol), hlit := 257, hdist := 1, lens := List.replicate n 7 }
    CodeAt (s 5 0) (s 5 0).clTab 1 (5 : BitVec 4).toNat ∧
    (CodeAt (s 16 255) (s 16 255).clTab 1 16 ∧ (s 16 255).lens.getLast? = some 7 ∧ 255 + (3 + 0) ≤ 257 + 1) ∧
    (CodeAt (s 17 255) (s 17 255).clTab 1 17 ∧ 0 + 1 + 3 ≤ 8 * (s 17 255).z.length) ∧
    (CodeAt (s 18 247) (s 18 247).clTab 1 18 ∧ 0 + 1 + 7 ≤ 8 * (s 18 247).z.length ∧ 247 + (11 + 0) ≤ 257 + 1) := by
  refine ⟨codeAt_single _ _ (by decide) (by decide), ⟨codeAt_single _ _ (by decide) (by decide), ?_, by decide⟩,
    ⟨codeAt_single _ _ (by decide) (by decide), by decide⟩, codeAt_single _ _ (by decide) (by decide), by decide,
    by decide⟩
  exact List.getLast?_replicate

/-- Code 16 first; a repeat one past the sequence. -/
theorem test_witness_RepeatCodesFault :
    let s := fun symbol n => { inflating .clseq 0 [0, 0] with
      clTab := some (singleCodeTable symbol), hlit := 257, hdist := 1, lens := List.replicate n 7 }
    (CodeAt (s 16 0) (s 16 0).clTab 1 16 ∧ (s 16 0).lens = []) ∧
    (CodeAt (s 16 256) (s 16 256).clTab 1 16 ∧ (s 16 256).lens ≠ [] ∧ (s 16 256).bitPos + 1 + 2 ≤ 8 * (s 16 256).z.length ∧
      256 + (3 + bitsAt (s 16 256).z ((s 16 256).bitPos + 1) 2) > 257 + 1) ∧
    (CodeAt (s 17 256) (s 17 256).clTab 1 17 ∧ 256 + (3 + bitsAt (s 17 256).z ((s 17 256).bitPos + 1) 3) > 257 + 1) ∧
    (CodeAt (s 18 248) (s 18 248).clTab 1 18 ∧
      248 + (11 + bitsAt (s 18 248).z ((s 18 248).bitPos + 1) 7) > 257 + 1) := by
  refine ⟨⟨codeAt_single _ _ (by decide) (by decide), rfl⟩, ⟨codeAt_single _ _ (by decide) (by decide), ?_, by decide,
    by decide⟩, ⟨codeAt_single _ _ (by decide) (by decide), by decide⟩, codeAt_single _ _ (by decide) (by decide),
    by decide⟩
  exact List.cons_ne_nil _ _

/-- A literal within OUT_CAP and at it. -/
theorem test_witness_LitAppendsByte :
    let s := { inflating .codes 0 [0] with litTab := some (singleCodeTable 0x61), out := [1], outCap := some 2 }
    CodeAt s s.litTab 1 (0x61 : Byte).toNat ∧ exceedsCap (s.out.length + 1) s.outCap = false ∧
    CodeAt { s with out := [1, 2] } s.litTab 1 (0x61 : Byte).toNat ∧ 2 < [1, 2].length + 1 :=
  ⟨codeAt_single _ _ (by decide) (by decide), by decide, codeAt_single _ _ (by decide) (by decide), by decide⟩

/-- A block that is not final, and final ones: the ordinary entry to UNFILTER, the interlace fault, height 0. -/
theorem test_witness_EobEndsBlock :
    let s := { inflating .codes 0 [0] with litTab := some (singleCodeTable 256) }
    let last := { s with bfinal := true }
    (CodeAt s s.litTab 1 256 ∧ s.bfinal = false) ∧
    (CodeAt last last.litTab 1 256 ∧ last.bfinal ≠ false ∧ last.interlace ≠ 1 ∧ last.height ≠ 0) ∧
    (CodeAt { last with interlace := 1 } last.litTab 1 256 ∧ { last with interlace := 1 }.interlace = 1) ∧
    (CodeAt { last with height := 0 } last.litTab 1 256 ∧ { last with height := 0 }.height = 0) :=
  ⟨⟨codeAt_single _ _ (by decide) (by decide), rfl⟩,
    ⟨codeAt_single _ _ (by decide) (by decide), by decide, by decide, by decide⟩,
    ⟨codeAt_single _ _ (by decide) (by decide), rfl⟩, codeAt_single _ _ (by decide) (by decide), rfl⟩

/-- A back-reference of length 3 at distance 2, the whole of OUT (95 Z.C1 in kind), and the same with room for one byte. -/
theorem test_witness_BackReferenceCopies :
    let s := { inflating .codes 0 [0] with
      litTab := some (singleCodeTable 257), distTab := some (singleCodeTable 1), out := [0x61, 0x62] }
    Instr.len257.lengthCode = some 257 ∧ CodeAt s s.litTab 1 257 ∧
    CodeAt { s with bitPos := s.bitPos + 1 + (lengthRow 257).extra } s.distTab 1 1 ∧
    s.bitPos + 1 + (lengthRow 257).extra + 1 + (distanceRow 1).extra ≤ 8 * s.z.length ∧
    (distanceRow 1).base + bitsAt s.z (s.bitPos + 1 + (lengthRow 257).extra + 1) (distanceRow 1).extra ≤ s.out.length ∧
    exceedsCap (s.out.length + 3) s.outCap = false ∧
    CodeAt { s with outCap := some 3 } s.litTab 1 257 ∧
    ({ s with outCap := some 3 }.outCap = some 3 ∧ s.out.length + 1 = 3 ∧ 1 < (lengthRow 257).base) :=
  ⟨rfl, codeAt_single _ _ (by decide) (by decide), codeAt_single _ _ (by decide) (by decide), by decide, by decide,
    by decide, codeAt_single _ _ (by decide) (by decide), by decide⟩

/-- With a pending length, with none, and with room for one byte of the pending length. -/
theorem test_witness_DistanceItemCopies :
    let s := { inflating .codes 0 [0] with distTab := some (singleCodeTable 1), out := [0x61, 0x62], pendLen := some 3 }
    Instr.dist1.distanceCode = some 1 ∧ CodeAt s s.distTab 1 1 ∧ s.bitPos + 1 + (distanceRow 1).extra ≤ 8 * s.z.length ∧
    (distanceRow 1).base + bitsAt s.z (s.bitPos + 1) (distanceRow 1).extra ≤ s.out.length ∧
    exceedsCap (s.out.length + s.pendLen.getD 0) s.outCap = false ∧
    CodeAt { s with pendLen := none } s.distTab 1 1 ∧ CodeAt { s with outCap := some 3 } s.distTab 1 1 ∧
    ({ s with outCap := some 3 }.outCap = some 3 ∧ s.out.length + 1 = 3 ∧ 1 < s.pendLen.getD 0) :=
  ⟨rfl, codeAt_single _ _ (by decide) (by decide), by decide, by decide, by decide,
    codeAt_single _ _ (by decide) (by decide), codeAt_single _ _ (by decide) (by decide), by decide⟩

/-- Symbols 286 and 31, distance symbol 30 in a back-reference, and distance 3 with two bytes in OUT, in a back-reference and
alone. -/
theorem test_witness_InvalidReferencesFault :
    let s := fun ll d => { inflating .codes 0 [0] with
      litTab := some (singleCodeTable ll), distTab := some (singleCodeTable d), out := [0x61, 0x62] }
    CodeAt (s 286 0) (s 286 0).litTab 1 (286 + (0 : BitVec 1).toNat) ∧
    CodeAt (s 0 31) (s 0 31).distTab 1 (30 + (1 : BitVec 1).toNat) ∧
    (CodeAt (s 257 30) (s 257 30).litTab 1 257 ∧
      CodeAt { s 257 30 with bitPos := 0 + 1 + (lengthRow 257).extra } (s 257 30).distTab 1 30) ∧
    (CodeAt { s 257 2 with bitPos := 0 + 1 + (lengthRow 257).extra } (s 257 2).distTab 1 2 ∧
      0 + 1 + (lengthRow 257).extra + 1 + (distanceRow 2).extra ≤ 8 * (s 257 2).z.length ∧
      (distanceRow 2).base + bitsAt (s 257 2).z (0 + 1 + (lengthRow 257).extra + 1) (distanceRow 2).extra >
        (s 257 2).out.length) ∧
    (Instr.dist2.distanceCode = some 2 ∧ CodeAt (s 0 2) (s 0 2).distTab 1 2 ∧
      0 + 1 + (distanceRow 2).extra ≤ 8 * (s 0 2).z.length ∧
      (distanceRow 2).base + bitsAt (s 0 2).z (0 + 1) (distanceRow 2).extra > (s 0 2).out.length) :=
  ⟨codeAt_single _ _ (by decide) (by decide), codeAt_single _ _ (by decide) (by decide),
    ⟨codeAt_single _ _ (by decide) (by decide), codeAt_single _ _ (by decide) (by decide)⟩,
    ⟨codeAt_single _ _ (by decide) (by decide), by decide, by decide⟩, rfl, codeAt_single _ _ (by decide) (by decide),
    by decide, by decide⟩

/-- Block headers one bit and no bit short; LEN and NLEN, the three counts and a code-length code length cut off. -/
theorem test_witness_TruncatedStreamFaults_headers :
    let s := fun p z => inflating .bhdr p z
    Instr.alphabet (.blkFixed true) = .bhdr ∧ (s 8 [0]).bitPos + 1 > 8 * (s 8 [0]).z.length ∧
    ((s 6 [0]).bitPos + 1 ≤ 8 * (s 6 [0]).z.length ∧ (s 6 [0]).bitPos + 3 > 8 * (s 6 [0]).z.length) ∧
    ((s 5 [0]).bitPos + 3 ≤ 8 * (s 5 [0]).z.length ∧ bitsAt [0] 5 3 = false.toNat ∧ 8 = 8 * ((5 + 3 + 7) / 8) ∧
      8 + 16 > 8 * (s 5 [0]).z.length ∧ 8 + 16 ≤ 8 * (s 5 [0, 1, 0]).z.length ∧ 8 + 32 > 8 * (s 5 [0, 1, 0]).z.length) ∧
    ((s 5 [0x80]).bitPos + 3 = 8 ∧ bitsAt [0x80] 5 3 = 4 + false.toNat ∧ bitsAt [0x80, 0, 0, 0] 5 3 = 4 + false.toNat ∧
      8 + 5 > 8 * (s 5 [0x80]).z.length ∧
      (8 + 5 ≤ 8 * (s 5 [0x80, 0]).z.length ∧ 8 + 10 > 8 * (s 5 [0x80, 0]).z.length) ∧
      (8 + 10 ≤ 8 * (s 3 [0x20, 0, 0]).z.length - 5 ∧ bitsAt [0x20, 0, 0] 3 3 = 4 + false.toNat ∧
        6 + 10 ≤ 8 * (s 3 [0x20, 0]).z.length ∧ 6 + 14 > 8 * (s 3 [0x20, 0]).z.length) ∧
      (0 < bitsAt [0x80, 0, 0] (8 + 10) 4 + 4 ∧ 8 + 14 + 3 * 0 ≤ 8 * (s 5 [0x80, 0, 0]).z.length ∧
        8 + 14 + 3 * 0 + 3 > 8 * (s 5 [0x80, 0, 0]).z.length)) := by decide

/-- Extra bits cut off: of a repeat, of a length, of a distance in a back-reference and alone. -/
theorem test_witness_TruncatedStreamFaults_extra :
    let cl := { inflating .clseq 6 [0] with clTab := some (singleCodeTable 16), lens := [7] }
    let s := fun p ll d => { inflating .codes p [0] with
      litTab := some (singleCodeTable ll), distTab := some (singleCodeTable d) }
    ((Instr.repprev, 16, 2) ∈ [(Instr.repprev, 16, 2), (.repzero, 17, 3), (.repzerol, 18, 7)] ∧ CodeAt cl cl.clTab 1 16 ∧
      cl.lens ≠ [] ∧ cl.bitPos + 1 + 2 > 8 * cl.z.length) ∧
    (Instr.len284.lengthCode = some 284 ∧ CodeAt (s 3 284 0) (s 3 284 0).litTab 1 284 ∧
      9 = 3 + 1 + (lengthRow 284).extra ∧ 9 > 8 * (s 3 284 0).z.length) ∧
    (CodeAt (s 0 257 29) (s 0 257 29).litTab 1 257 ∧ 1 = 0 + 1 + (lengthRow 257).extra ∧
      CodeAt { s 0 257 29 with bitPos := 1 } (s 0 257 29).distTab 1 29 ∧
      1 + 1 + (distanceRow 29).extra > 8 * (s 0 257 29).z.length) ∧
    (Instr.dist29.distanceCode = some 29 ∧ CodeAt (s 0 257 29) (s 0 257 29).distTab 1 29 ∧
      0 + 1 + (distanceRow 29).extra > 8 * (s 0 257 29).z.length) :=
  ⟨⟨List.mem_cons_self, codeAt_single _ _ (by decide) (by decide), List.cons_ne_nil _ _, by decide⟩,
    ⟨rfl, codeAt_single _ _ (by decide) (by decide), by decide, by decide⟩,
    ⟨codeAt_single _ _ (by decide) (by decide), by decide, codeAt_single _ _ (by decide) (by decide), by decide⟩,
    rfl, codeAt_single _ _ (by decide) (by decide), by decide⟩

/-- The ends of the ranges: length 3 and 258 (code 285, and code 284 with extra 31), distance 1 and 32768. -/
theorem test_witness_LengthAndDistanceRanges :
    (lengthRow 257).base = 3 ∧ (lengthRow 285).base = 258 ∧ (lengthRow 284).base + 31 = 258 ∧
    31 < 2 ^ (lengthRow 284).extra ∧ (distanceRow 0).base = 1 ∧ (distanceRow 29).base + 8191 = 32768 ∧
    8191 < 2 ^ (distanceRow 29).extra := by decide

/-- A row whole to its last byte, on row 0 of 1 and on row 0 of 2. -/
theorem test_witness_FilterReconstructsRow :
    Instr.filtPaeth.predictor = some predPaeth ∧ 1 ≤ (unfiltering []).bpp ∧
    RowWhole (unfiltering [4, 0, 0, 0, 0, 0, 0, 0, 0]) ∧
    RowWhole { unfiltering [4, 0, 0, 0, 0, 0, 0, 0, 0] with height := 2 } :=
  ⟨rfl, by decide, by unfold RowWhole; decide, by unfold RowWhole; decide⟩

/-- One byte short, and whole. -/
theorem test_witness_BadRowsFault :
    Instr.filtNone.alphabet = .filter ∧ ¬ RowWhole (unfiltering [5, 0, 0, 0, 0, 0, 0, 0]) ∧
    RowWhole (unfiltering [5, 0, 0, 0, 0, 0, 0, 0, 0]) :=
  ⟨rfl, by unfold RowWhole; decide, by unfold RowWhole; decide⟩

/-- The ties of 95 U.P4 to U.P6 and a nearest c: pa, pb and pc of (3, 0, 1) are 1, 2, 1; of (0, 3, 1) 2, 1, 1; of
(10, 20, 15) 5, 5, 0. -/
theorem test_witness_PaethPredictsNearest :
    let d := fun (a b c x : Byte) => ((a.toNat : Int) + b.toNat - c.toNat - x.toNat).natAbs
    (d 3 0 1 3 ≤ d 3 0 1 0 ∧ d 3 0 1 3 ≤ d 3 0 1 1) ∧
    ((d 0 3 1 3 < d 0 3 1 0 ∨ d 0 3 1 1 < d 0 3 1 0) ∧ d 0 3 1 3 ≤ d 0 3 1 1) ∧
    ((d 10 20 15 20 < d 10 20 15 10 ∨ d 10 20 15 15 < d 10 20 15 10) ∧ d 10 20 15 15 < d 10 20 15 20) := by decide

/-- Each colour type at depth 8; the last palette entry and the first index past it. -/
theorem test_witness_PixelByColourType :
    let s := fun ct => { extracting [1, 2, 3, 4, 5, 6, 7, 8] 0 with colorType := ct }
    (s .rgba).pixValid = true ∧ 1 < (s .rgba).width.toNat ∧ 0 < (s .rgba).height.toNat ∧ (s .rgba).bitDepth = 8 ∧
    (s .gray).colorType = .gray ∧ (s .rgb).colorType = .rgb ∧ (s .grayAlpha).colorType = .grayAlpha ∧
    ({ s .palette with pal := some [⟨0, 0, 0⟩, ⟨1, 2, 3⟩] }.pal.getD [])[(byteAt (s .palette).pix 0).toNat]? =
      some ⟨1, 2, 3⟩ ∧
    ({ s .palette with pal := some [⟨0, 0, 0⟩] }.pal.getD []).length ≤ (byteAt (s .palette).pix 0).toNat := by decide

/-- No pixels; the first column and row outside; depth 16 without and with SampleFn. -/
theorem test_witness_PixelChecksInOrder :
    let s := extracting [1, 2, 3, 4, 5, 6, 7, 8] 0
    State.reset.pixValid = false ∧ (s.pixValid = true ∧ s.width.toNat ≤ 2) ∧ s.height.toNat ≤ 1 ∧
    (1 < s.width.toNat ∧ 0 < s.height.toNat ∧ { s with bitDepth := 16 }.bitDepth ≠ 8 ∧ s.sampleFnPresent = false) ∧
    { s with bitDepth := 16, sampleFnPresent := true }.sampleFnPresent = true := by decide

/-- Lengths 0, 1, the ceiling and one over it (95 E7), and a pixel that faults. -/
theorem test_witness_PlenReadsLength :
    (extracting [0, 0, 0, 0] 0).getPixel 0 0 = .ok ⟨0, 0, 0, 0⟩ ∧
    (extracting [0, 0, 0, 1] 0).getPixel 0 0 = .ok ⟨0, 0, 0, 1⟩ ∧
    (extracting [0, 0x40, 0, 0] 0).getPixel 0 0 = .ok ⟨0, 0x40, 0, 0⟩ ∧
    (extracting [0, 0x40, 0, 1] 0).getPixel 0 0 = .ok ⟨0, 0x40, 0, 1⟩ ∧ channelsValue ⟨0, 0x40, 0, 0⟩ = 4194304 ∧
    channelsValue ⟨0, 0x40, 0, 1⟩ = 4194305 ∧ State.reset.getPixel 0 0 = .error ⟨.noPixels, 0, 0⟩ := by decide

/-- A full payload, a payload with more to come, and the wrap past the last row. -/
theorem test_witness_PixelAppendsChannels :
    let s := extracting [0, 0, 0, 3, 0x61, 0x62, 0x63, 0x64] 3
    (1, 0) = (if s.px < s.width.toNat then (s.px, s.py) else (0, s.py + 1)) ∧
    s.getPixel 1 0 = .ok ⟨0x61, 0x62, 0x63, 0x64⟩ ∧
    (s.payload ++ [0x61, 0x62, 0x63, 0x64].take (min 4 (s.plen.toNat - s.payload.length))).length = s.plen.toNat ∧
    ([0x61, 0x62, 0x63, 0x64].take (min 4 ((5 : BitVec 32).toNat - s.payload.length))).length ≠ (5 : BitVec 32).toNat ∧
    (0, 1) = (if 2 < s.width.toNat then (2, s.py) else (0, s.py + 1)) ∧
    s.getPixel 0 1 = .error ⟨.pixelCoordinates, 0, 1⟩ := by decide

/-- An outcome that is a next state. -/
theorem next_of_isNext (o : Host.Outcome State Fault Refusal)
    (h : (match o with | .next _ => true | .fault _ => false | .refused _ => false) = true) : ∃ t, o = .next t := by
  cases o with
  | next t => exact ⟨t, rfl⟩
  | fault r => cases h
  | refused r => cases h

/-- An engine item of each family that answers a next state. -/
theorem test_witness_EngineLeavesHostSide :
    Instr.sig.isEngine = true ∧ (∃ t, exec .sig (placeValue .sig 0x89504E470D0A1A0A State.reset) = .next t) ∧
    (∃ t, exec .ihdr (parsing false (ihdrChunk 8 6 0 0 0)) = .next t) ∧
    (∃ t, exec (.zhdr 0x7801) (inflating .zhdr 0 [0x78, 0x01]) = .next t) ∧
    (∃ t, exec .filtNone (unfiltering [0, 0, 0, 0, 3, 0x61, 0x62, 0x63, 0x64]) = .next t) ∧
    (∃ t, exec .pixel (extracting [0, 0, 0, 3, 0x61, 0x62, 0x63, 0x64] 3) = .next t) :=
  ⟨rfl, next_of_isNext _ (by decide), next_of_isNext _ (by decide), next_of_isNext _ (by decide),
    next_of_isNext _ (by decide), next_of_isNext _ (by decide)⟩

/-- PIXEL and LIT, none of the items named for the fields they keep, over states with bytes in OUT and PIX. -/
theorem test_witness_EngineWritesByFamily :
    Instr.pixel.isEngine = true ∧ Instr.pixel ≠ .ihdr ∧ Instr.pixel ≠ .plte ∧ Instr.pixel ≠ .idat ∧ Instr.pixel ≠ .iend ∧
    Instr.pixel ≠ .eob ∧ (∀ f, Instr.pixel ≠ .blkFixed f) ∧ (∀ f, Instr.pixel ≠ .blkDynamic f) ∧
    (∀ f, Instr.pixel ≠ .blkStored f) ∧ Instr.pixel.alphabet ∉ [.zlib, .bhdr, .cl, .ll, .dist] ∧
    Instr.pixel.alphabet ∉ [.filter, .sig, .chunk] ∧ (Instr.lit 0).alphabet ∉ [.filter, .seq] ∧
    (∃ t, exec .pixel { extracting [0, 0, 0, 3, 0x61, 0x62, 0x63, 0x64] 3 with out := [1, 2] } = .next t) ∧
    (∃ t, exec (.lit 7) { inflating .codes 0 [0] with litTab := some (singleCodeTable 7), out := [1, 2] } = .next t) := by
  refine ⟨rfl, ?_, ?_, ?_, ?_, ?_, ?_, ?_, ?_, ?_, ?_, ?_, next_of_isNext _ (by decide), next_of_isNext _ (by decide)⟩ <;>
    decide

/-- A row that is not whole, an item that faults. -/
theorem test_witness_FaultLeavesNoPayload :
    Instr.filtNone.isEngine = true ∧ (unfiltering []).phase ≠ .error ∧
    (∃ t, exec .filtNone (unfiltering []) = .next t) ∧ (ran .filtNone (unfiltering [])).phase = .error :=
  ⟨rfl, by decide, next_of_isNext _ (by decide), by decide⟩

/-- A state in ERROR: the engine's step, a START and a power-on. -/
theorem test_witness_ErrorLeftOnlyByStart :
    let s := faulted (inflating .bhdr 16 []) .invalidBlockType 16 3
    s.phase = .error ∧ (∃ t, step s = .next t) ∧ (∃ t, step { s with host := [.writeReg 0x00 4 1] } = .next t) ∧
    (∃ t, step { s with host := [.powerOn] } = .next t) ∧ (1 : Word).getLsbD 0 = true :=
  ⟨rfl, next_of_isNext _ (by decide), next_of_isNext _ (by decide), next_of_isNext _ (by decide), by decide⟩

/-- A state of each engine phase that steps on. -/
theorem test_witness_StagesRunInOrder :
    let s := parsing true (chunkBytes 0 chunkTypeIend [])
    let u := unfiltering [0, 0, 0, 0, 3, 0x61, 0x62, 0x63, 0x64]
    let x := extracting [0, 0, 0, 3, 0x61, 0x62, 0x63, 0x64] 3
    (s.host = [] ∧ s.phase = .parse ∧ (∃ t, step s = .next t)) ∧
    ((inflating .bhdr 16 []).phase = .inflate ∧ (∃ t, step (inflating .bhdr 16 []) = .next t)) ∧
    (u.phase = .unfilter ∧ (∃ t, step u = .next t)) ∧ (x.phase = .extract ∧ (∃ t, step x = .next t)) :=
  ⟨⟨rfl, rfl, next_of_isNext _ (by decide)⟩, ⟨rfl, next_of_isNext _ (by decide)⟩, ⟨rfl, next_of_isNext _ (by decide)⟩,
    rfl, next_of_isNext _ (by decide)⟩

/-- A busy state that keeps the invariant: INFLATE before the zlib header of 95 P1. -/
theorem test_witness_StepKeepsInvariant : Inv (inflating .zhdr 0 [0x78, 0x01, 0x01]) where
  cursor := ⟨by decide, by decide⟩
  latch := ⟨by decide⟩
  payload := ⟨by decide, by decide, fun _ _ => rfl, by decide, by decide, by decide, by decide⟩
  pixels := ⟨by decide, fun h => absurd h (by decide), by decide, fun h => absurd h (by decide)⟩
  tables := ⟨fun _ h => (by cases h), fun _ h => (by cases h), fun _ h => (by cases h), by decide, by decide, by decide,
    by decide, by decide, by decide, by decide⟩
  descriptor := ⟨by decide, by decide, by decide, fun _ h => (by cases h)⟩
  spaces := ⟨by decide, by decide, by decide⟩

theorem test_witness_StepKeepsInvariant_step : ∃ t, step (inflating .zhdr 0 [0x78, 0x01, 0x01]) = .next t :=
  next_of_isNext _ (by decide)

/-- The same state, whose step stays in INFLATE. -/
theorem test_witness_InflateConsumesBits :
    (inflating .zhdr 0 [0x78, 0x01, 0x01]).host = [] ∧ (inflating .zhdr 0 [0x78, 0x01, 0x01]).phase = .inflate ∧
    (stepped (inflating .zhdr 0 [0x78, 0x01, 0x01])).phase = .inflate := by decide

theorem test_witness_EveryRunEnds :
    (inflating .zhdr 0 [0x78, 0x01, 0x01]).host = [] ∧
    (inflating .zhdr 0 [0x78, 0x01, 0x01]).phase.busy = true := by decide

end Sys2Proof.Tests
end

section
/-! What a step may write without breaking the invariant, one rule per group of fields: the fields the invariant does
not read, fault entry, the resets, and the registers of each stage; and that the tables HuffBuild makes are legal. -/

namespace Sys2Proof

open Sys2Proof.Machine

/-! ### Resets, faults and the host's fields -/

theorem Inv.reset : Inv State.reset where
  cursor := ⟨by simp, by simp⟩
  latch := ⟨by simp⟩
  payload := ⟨by simp, by simp, by simp, by simp, by simp, by simp, by simp⟩
  pixels := ⟨by simp, by simp, by simp, by simp⟩
  tables := ⟨by simp, by simp, by simp, by simp, by simp, by simp, by simp, by simp, by simp, by simp⟩
  descriptor := ⟨by simp, by simp, by simp, by simp⟩
  spaces := ⟨by simp [Memory.wf], by simp, by simp [Phase.busy]⟩

/-- Settles O55: every clause of the invariant is about a reset value (10 R57). -/
theorem invariantAtReset : Obligations.InvariantAtReset := Inv.reset

/-- No capacity is exceeded by nothing. -/
theorem exceedsCap_zero (c : Option Nat) : exceedsCap 0 c = false := by
  cases c <;> simp [exceedsCap]

/-- A reset state keeps the invariant whatever stands in the fields a reset may keep, as long as IN is canonical. -/
theorem Inv.resetWith {host : List HostEvent} {bus : Word} {boots : Nat} {inCap outCap : Option Nat}
    {sampleFn headerOnly : Bool} {inLen : BitVec 32} {input : Memory} (hw : input.wf = true) :
    Inv { State.reset with
      host := host, busData := bus, boots := boots, inCap := inCap, outCap := outCap, sampleFnPresent := sampleFn
      headerOnly := headerOnly, inLen := inLen, input := input } :=
  ⟨{ Inv.reset.cursor with pos_le := by simp }, { Inv.reset.latch with }, { Inv.reset.payload with },
    { Inv.reset.pixels with }, { Inv.reset.tables with }, { Inv.reset.descriptor with },
    ⟨hw, exceedsCap_zero _, by simp [Phase.busy]⟩⟩

variable {s : State}

/-- The fields no clause of the invariant reads. -/
theorem Inv.setUnread (h : Inv s) {host : List HostEvent} {bus : Word} {headerOnly bfinal : Bool} {btype : BitVec 2}
    {x y d : Word} {status : Byte} :
    Inv { s with
      host := host, busData := bus, headerOnly := headerOnly, bfinal := bfinal, btype := btype
      pixX := x, pixY := y, pixData := d, pixStatus := status } :=
  ⟨{ h.cursor with }, { h.latch with }, { h.payload with }, { h.pixels with }, { h.tables with }, { h.descriptor with },
    { h.spaces with }⟩

/-- A fault in ERROR leaves nothing of what the invariant asks of another phase (60 R403, R404). -/
theorem Inv.fault (h : Inv s) (d : FaultDetail) (i j : Nat) : Inv (faulted s d i j) where
  cursor := { h.cursor with pos_le := by simp [faulted] }
  latch := ⟨by simp [faulted]⟩
  payload := ⟨by simp [faulted], by simp [faulted], by simp [faulted], h.payload.ceiling, by simp [faulted],
    by simp [faulted], by simp [faulted]⟩
  pixels := ⟨by simp [faulted], by simp [faulted], by simp [faulted], h.pixels.whole⟩
  tables := { h.tables with clseq := by simp [faulted], codes := by simp [faulted], not_idone := by simp [faulted] }
  descriptor := { h.descriptor with valid := by simp [faulted] }
  spaces := { h.spaces with in_le := by simp [faulted, Phase.busy] }

/-- The host writes IN_LEN and IN outside the busy phases only (10 R50, 20 R80). -/
theorem Inv.setInput (h : Inv s) (hb : s.phase.busy = false) (inLen : BitVec 32) {input : Memory}
    (hw : input.wf = true) : Inv { s with inLen := inLen, input := input } :=
  ⟨{ h.cursor with pos_le := fun hp => by simp [show s.phase = .parse from hp, Phase.busy] at hb }, { h.latch with },
    { h.payload with }, { h.pixels with }, { h.tables with }, { h.descriptor with },
    ⟨hw, h.spaces.out_le, fun hb' => absurd hb' (by simp [hb])⟩⟩

/-! ### The phases before UNFILTER -/

/-- The phases in which there are no pixels and no payload. -/
def BeforePixels (p : Phase) : Prop := p = .idle ∨ p = .parse ∨ p = .inflate ∨ p = .doneHeader

/-- What the invariant says in them. -/
structure Blank (s : State) : Prop where
  err : s.err = none
  valid : s.payloadValid = false
  payload : s.payload = []
  px : s.px = 0
  pix : s.pix = []
  pixValid : s.pixValid = false

theorem Inv.blank (h : Inv s) (hs : BeforePixels s.phase) : Blank s := by
  have ⟨he, hd, hx⟩ : s.phase ≠ .error ∧ s.phase ≠ .done ∧ s.phase ≠ .extract := by
    rcases hs with e | e | e | e <;> simp [e]
  exact ⟨by simpa [he] using h.latch.latched, by simpa [hd] using h.payload.valid_iff, h.payload.empty hx hd,
    h.payload.px_zero hx hd he, (h.pixels.empty hs).1, (h.pixels.empty hs).2⟩

/-- The machine goes from one of these phases to another where its entry conditions hold (40 R150, R162, R165). -/
theorem Inv.changePhase (h : Inv s) (hs : BeforePixels s.phase) {p : Phase} (hp : BeforePixels p)
    (hpos : p = .parse → s.pos ≤ s.inLen.toNat) (hist : p = .inflate → s.ist = .zhdr)
    (hv : p = .inflate ∨ p = .doneHeader → s.hdrValid = true)
    (hin : p.busy = true → exceedsCap s.inLen.toNat s.inCap = false) : Inv { s with phase := p } := by
  have b := h.blank hs
  have ⟨he, hd, hx, hu⟩ : p ≠ .error ∧ p ≠ .done ∧ p ≠ .extract ∧ p ≠ .unfilter := by
    rcases hp with rfl | rfl | rfl | rfl <;> simp
  exact {
    cursor := { h.cursor with pos_le := hpos }
    latch := ⟨by simp [he, b.err]⟩
    payload := ⟨by simp [hd, b.valid], by simp [hd], fun _ _ => b.payload, h.payload.ceiling, by simp [hx],
      by simp [hx], fun _ _ _ => b.px⟩
    pixels := ⟨fun _ => ⟨b.pix, b.pixValid⟩, by simp [hu], by simp [hx, hd], by simp [b.pixValid]⟩
    tables := { h.tables with
                clseq := fun e => by simp [hist e], codes := fun e => by simp [hist e]
                not_idone := fun e => by simp [hist e] }
    descriptor := { h.descriptor with valid := by simpa [hu, hx, hd] using hv }
    spaces := { h.spaces with in_le := hin } }

/-! ### PARSE -/

/-- Between two operations of PARSE. -/
structure Parsing (s : State) : Prop where
  inv : Inv s
  phase : s.phase = .parse

theorem Parsing.setPos (h : Parsing s) {p : Nat} (hp : p ≤ s.inLen.toNat) : Parsing { s with pos := p } :=
  ⟨⟨{ h.inv.cursor with pos_le := fun _ => hp }, { h.inv.latch with }, { h.inv.payload with }, { h.inv.pixels with },
    { h.inv.tables with }, { h.inv.descriptor with }, { h.inv.spaces with }⟩, h.phase⟩

/-- Z may only grow, so that the bit cursor stays within it. -/
theorem Inv.appendZ (h : Inv s) (data : List Byte) : Inv { s with z := s.z ++ data } :=
  ⟨{ h.cursor with bitPos_le := by have := h.cursor.bitPos_le; simp only [List.length_append]; omega },
    { h.latch with }, { h.payload with }, { h.pixels with }, { h.tables with }, { h.descriptor with },
    { h.spaces with }⟩

theorem Inv.setPal (h : Inv s) {p : List Rgb} (hv : s.hdrValid = true) (hc : s.colorType = .palette)
    (hl : p.length ≤ 2 ^ s.bitDepth.toNat) : Inv { s with pal := some p } :=
  ⟨{ h.cursor with }, { h.latch with }, { h.payload with }, { h.pixels with }, { h.tables with },
    { h.descriptor with palette := fun _ e => by cases e; exact ⟨hv, hc, hl⟩ }, { h.spaces with }⟩

/-- The descriptor may be written until the header is valid: before that no palette and no geometry rests on it. -/
theorem Parsing.setDescriptor (h : Parsing s) (hv : s.hdrValid = false) (w ht : BitVec 32) (bd : Byte) (ct : ColorType)
    {cm fm im : Byte} (hm : cm = 0 ∧ fm = 0 ∧ (im = 0 ∨ im = 1)) :
    Parsing { s with
      width := w, height := ht, bitDepth := bd, colorType := ct, compression := cm, filter := fm, interlace := im } where
  phase := h.phase
  inv := by
    have hp := h.phase
    have b := h.inv.blank (by simp [BeforePixels, hp])
    exact ⟨{ h.inv.cursor with }, { h.inv.latch with }, { h.inv.payload with },
      { h.inv.pixels with rows := by simp [hp], whole := by simp [b.pixValid] }, { h.inv.tables with },
      ⟨hm, by simp [hv], h.inv.descriptor.valid, fun p e => by simpa [hv] using (h.inv.descriptor.palette p e).1⟩,
      { h.inv.spaces with }⟩

/-- A legal header may be marked valid (40 R162). -/
theorem Inv.validate (h : Inv s) (hv : s.hdrValid = false)
    (hl : bitDepthLegal s.bitDepth = true ∧ depthAllowed s.colorType s.bitDepth = true) :
    Inv { s with hdrValid := true } :=
  ⟨{ h.cursor with }, { h.latch with }, { h.payload with }, { h.pixels with }, { h.tables with },
    ⟨h.descriptor.methods, fun _ => hl, fun _ => rfl, fun p e => by simpa [hv] using (h.descriptor.palette p e).1⟩,
    { h.spaces with }⟩

/-! ### INFLATE -/

/-- The registers of INFLATE may be written as long as the cursor stays within Z, OUT within its capacity and the tables
legal; what is legal depends on the phase and the sub-state. -/
theorem Inv.setInflate (h : Inv s) {bitPos : Nat} {ist : InflateState} {lit dist cl : Option HuffTable}
    {hlit hdist hclen : Nat} {clLen : List (BitVec 3)} {lens : List (BitVec 4)} {out : List Byte}
    (hp : bitPos ≤ 8 * s.z.length)
    (ht : TablesInv { s with
      ist := ist, litTab := lit, distTab := dist, clTab := cl, hlit := hlit, hdist := hdist
      clLen := clLen, lens := lens })
    (ho : exceedsCap out.length s.outCap = false) :
    Inv { s with
      bitPos := bitPos, ist := ist, litTab := lit, distTab := dist, clTab := cl, hlit := hlit, hdist := hdist
      hclen := hclen, clLen := clLen, lens := lens, out := out } :=
  ⟨{ h.cursor with bitPos_le := hp }, { h.latch with }, { h.payload with }, { h.pixels with }, { ht with },
    { h.descriptor with }, { h.spaces with out_le := ho }⟩

/-- The sub-states that read a header use no table, so they may be entered from any state. -/
theorem Inv.setIst (h : Inv s) {bitPos : Nat} (hp : bitPos ≤ 8 * s.z.length) {y : InflateState}
    (hy : y = .zhdr ∨ y = .bhdr) : Inv { s with bitPos := bitPos, ist := y } :=
  h.setInflate hp
    { h.tables with
      clseq := by rcases hy with rfl | rfl <;> simp, codes := by rcases hy with rfl | rfl <;> simp
      not_idone := by rcases hy with rfl | rfl <;> simp } h.spaces.out_le

/-- The end of PARSE (40 R165). -/
theorem Parsing.enterInflate (h : Parsing s) (hv : s.hdrValid = true) :
    Inv { s with phase := .inflate, ist := .zhdr, bitPos := 0 } :=
  (h.inv.setIst (Nat.zero_le _) (.inl rfl)).changePhase (.inr (.inl h.phase)) (.inr (.inr (.inl rfl))) (by simp)
    (fun _ => rfl) (fun _ => hv) fun _ => h.inv.spaces.in_le (by simp [h.phase, Phase.busy])

/-- Between two operations of INFLATE, in a given sub-state. -/
structure Inflating (x : InflateState) (s : State) : Prop where
  inv : Inv s
  phase : s.phase = .inflate
  ist : s.ist = x

variable {x : InflateState}

theorem Inflating.setBitPos (h : Inflating x s) {p : Nat} (hp : p ≤ 8 * s.z.length) :
    Inflating x { s with bitPos := p } :=
  ⟨h.inv.setInflate hp { h.inv.tables with } h.inv.spaces.out_le, h.phase, h.ist⟩

theorem Inflating.appendOut (h : Inflating x s) {b : Byte} (hc : exceedsCap (s.out.length + 1) s.outCap = false) :
    Inflating x { s with out := s.out ++ [b] } :=
  ⟨h.inv.setInflate h.inv.cursor.bitPos_le { h.inv.tables with } (by simpa using hc), h.phase, h.ist⟩

/-- The registers of a dynamic header, read before the sub-state that uses them (42 R245). -/
theorem Inflating.setHeader (h : Inflating .bhdr s) {hlit hdist : Nat} (hclen : Nat) {cl : List (BitVec 3)}
    (hl : hlit ≤ 288) (hd : hdist ≤ 32) (hcl : cl.length = 19) :
    Inflating .bhdr { s with hlit := hlit, hdist := hdist, hclen := hclen, clLen := cl } where
  inv := h.inv.setInflate h.inv.cursor.bitPos_le
    { h.inv.tables with
      clseq := fun _ e => absurd (h.ist.symm.trans e) (by decide)
      codes := fun _ e => absurd (h.ist.symm.trans e) (by decide)
      hlit_le := hl, hdist_le := hd, clLen_size := hcl } h.inv.spaces.out_le
  phase := h.phase
  ist := h.ist

/-- The tables may be built in any sub-state, and the sub-state that decodes with them entered (42 R244, R250). -/
theorem Inflating.enterCodes (h : Inflating x s) {lit dist : HuffTable} (hl : TableOk 288 lit) (hd : TableOk 32 dist)
    (lens : List (BitVec 4)) :
    Inv { s with lens := lens, litTab := some lit, distTab := some dist, ist := .codes } :=
  h.inv.setInflate h.inv.cursor.bitPos_le
    { h.inv.tables with
      lit := fun _ e => by cases e; exact hl, dist := fun _ e => by cases e; exact hd
      clseq := by simp, codes := by simp, not_idone := by simp } h.inv.spaces.out_le

/-- The code-length table built, the empty sequence begins; it is never full at once (42 R245). -/
theorem Inflating.enterClseq (h : Inflating .bhdr s) {cl : HuffTable} (hc : TableOk 19 cl)
    (hpos : 0 < s.hlit + s.hdist) : Inv { s with clTab := some cl, lens := [], ist := .clseq } :=
  h.inv.setInflate h.inv.cursor.bitPos_le
    { h.inv.tables with
      cl := fun _ e => by cases e; exact hc
      clseq := fun _ _ => ⟨rfl, hpos⟩, codes := by simp, not_idone := by simp } h.inv.spaces.out_le

/-- The code-length sequence grows while it is not full (42 R246). -/
theorem Inflating.setLens (h : Inflating .clseq s) {lens : List (BitVec 4)} (hl : lens.length < s.hlit + s.hdist) :
    Inv { s with lens := lens } :=
  h.inv.setInflate h.inv.cursor.bitPos_le
    { h.inv.tables with clseq := fun hp e => ⟨(h.inv.tables.clseq hp e).1, hl⟩ } h.inv.spaces.out_le

/-- A fault at the end of the code-length sequence, the sequence full and perhaps one table built (42 R250). -/
theorem Inflating.fault_building (h : Inflating x s) (lens : List (BitVec 4)) {lit : Option HuffTable}
    (hl : ∀ t, lit = some t → TableOk 288 t) (d : FaultDetail) (i j : Nat) :
    Inv (faulted { s with lens := lens, litTab := lit } d i j) :=
  (h.inv.fault d i j).setInflate h.inv.cursor.bitPos_le
    { (h.inv.fault d i j).tables with
      lit := hl, clseq := by simp [faulted], codes := by simp [faulted], not_idone := by simp [faulted] }
    h.inv.spaces.out_le

/-! ### UNFILTER -/

/-- The interlace fault of the entry to UNFILTER (43 R320). -/
theorem Inflating.fault_entering (h : Inflating x s) (d : FaultDetail) (i j : Nat) :
    Inv (faulted { s with ist := .idone, row := 0 } d i j) :=
  have g := h.inv.fault d i j
  ⟨{ g.cursor with }, { g.latch with }, { g.payload with }, { g.pixels with rows := by simp [faulted] },
    { g.tables with clseq := by simp [faulted], codes := by simp [faulted], not_idone := by simp [faulted] },
    { g.descriptor with }, { g.spaces with }⟩

/-- From INFLATE or UNFILTER to r rows done: UNFILTER goes on while r is below the height, and EXTRACT follows at the
height, at once where that is 0 (42 R258, 43 R331). -/
theorem Inv.rowsDone (h : Inv s) (hs : s.phase = .inflate ∨ s.phase = .unfilter) {ist : InflateState} {p : Phase}
    {v : Bool} {r bpp cpr : Nat} {pix : List Byte}
    (hend : p = .unfilter ∧ v = false ∧ r < s.height.toNat ∨ p = .extract ∧ v = true ∧ r = s.height.toNat)
    (hlen : pix.length = r * cpr) (hb : bpp = bytesPerPixel s.colorType s.bitDepth) (hc : cpr = bpp * s.width.toNat) :
    Inv { s with ist := ist, row := r, bpp := bpp, cpr := cpr, pix := pix, pixValid := v, phase := p } := by
  have ⟨he, hd, hx, hbusy⟩ : s.phase ≠ .error ∧ s.phase ≠ .done ∧ s.phase ≠ .extract ∧ s.phase.busy = true := by
    rcases hs with e | e <;> simp [e, Phase.busy]
  have ⟨hp, hpd⟩ : (p = .unfilter ∨ p = .extract) ∧ p ≠ .done := by rcases hend with ⟨rfl, -⟩ | ⟨rfl, -⟩ <;> simp
  have herr : s.err = none := by simpa [he] using h.latch.latched
  have hvalid : s.payloadValid = false := by simpa [hd] using h.payload.valid_iff
  have hempty := h.payload.empty hx hd
  have hpx := h.payload.px_zero hx hd he
  have hhdr := h.descriptor.valid (hs.imp_right .inl)
  exact {
    cursor := ⟨h.cursor.bitPos_le, by rintro rfl; simp at hp⟩
    latch := ⟨by rcases hp with rfl | rfl <;> simp [herr]⟩
    payload := ⟨by simp [hpd, hvalid], fun e => absurd e hpd, fun _ _ => hempty, h.payload.ceiling, fun _ _ => hempty,
      fun _ e => absurd hpx e, fun _ _ _ => hpx⟩
    pixels := by
      rcases hend with ⟨rfl, rfl, hr⟩ | ⟨rfl, rfl, rfl⟩
      · exact ⟨by simp, fun _ => ⟨rfl, hr, hlen, hb, hc⟩, by simp, by simp⟩
      · exact ⟨by simp, by simp, fun _ => rfl, fun _ => ⟨hlen, hb, hc⟩⟩
    tables := by
      have t := h.tables
      rcases hp with rfl | rfl <;> exact { t with clseq := by simp, codes := by simp, not_idone := by simp }
    descriptor := { h.descriptor with valid := fun _ => hhdr }
    spaces := { h.spaces with in_le := fun _ => h.spaces.in_le hbusy } }

/-! ### EXTRACT -/

/-- Between two operations of EXTRACT. -/
structure Extracting (s : State) : Prop where
  inv : Inv s
  phase : s.phase = .extract

/-- A step of the walk: the payload is complete with S.plen bytes, and short of them the walk goes on (44 R368,
R370, R373). -/
theorem Extracting.walk (h : Extracting s) {plen : BitVec 32} {px py : Nat} {payload : List Byte} {v : Bool} {p : Phase}
    (hc : plen.toNat ≤ Config.payloadCeiling) (hx : px ≠ 0)
    (hend : p = .extract ∧ v = false ∧ payload.length < plen.toNat ∨
      p = .done ∧ v = true ∧ payload.length = plen.toNat) :
    Inv { s with plen := plen, px := px, py := py, payload := payload, payloadValid := v, phase := p } := by
  have hp := h.phase
  have herr : s.err = none := by simpa [hp] using h.inv.latch.latched
  have hpv := h.inv.pixels.valid (.inl hp)
  have hin := h.inv.spaces.in_le (by simp [hp, Phase.busy])
  have hhdr := h.inv.descriptor.valid (by simp [hp])
  rcases hend with ⟨rfl, rfl, hl⟩ | ⟨rfl, rfl, hl⟩ <;> exact {
    cursor := ⟨h.inv.cursor.bitPos_le, by simp⟩
    latch := ⟨by simp [herr]⟩
    payload := ⟨by simp, by simp [hl], by simp, hc, by simp [hx], by simp [hl], by simp⟩
    pixels := ⟨by simp, by simp, fun _ => hpv, h.inv.pixels.whole⟩
    tables := { h.inv.tables with clseq := by simp, codes := by simp, not_idone := by simp }
    descriptor := { h.inv.descriptor with valid := fun _ => hhdr }
    spaces := { h.inv.spaces with in_le := fun _ => hin } }

/-- A fault of the walk, the column and row already those of the pixel (44 R372). -/
theorem Inv.fault_walking (h : Inv s) (px py : Nat) (d : FaultDetail) (i j : Nat) :
    Inv (faulted { s with px := px, py := py } d i j) :=
  have g := h.fault d i j
  ⟨{ g.cursor with }, { g.latch with },
    { g.payload with before_plen := by simp [faulted], after_plen := by simp [faulted], px_zero := by simp [faulted] },
    { g.pixels with }, { g.tables with }, { g.descriptor with }, { g.spaces with }⟩

/-! ### The tables HuffBuild makes -/

/-- A table over an array of at most n lengths, none above 15, is legal over n symbols (41 R205, R207). -/
theorem huffTable_ok {lengths : List Nat} {n : Nat} (hn : lengths.length ≤ n) (hl : ∀ l ∈ lengths, l ≤ 15) :
    TableOk n (huffTable lengths) where
  maxLen_le := maxLength_le hl
  size := huffTable_size lengths
  entry := by
    intro c hc
    obtain ⟨i, -, hi⟩ := List.mem_map.1 (show some c ∈ List.map _ (List.range _) from hc)
    obtain ⟨code, hmem, -⟩ := entryAt_some hi
    obtain ⟨h1, h2, hsym⟩ := assignFrom_mem (show (c, code) ∈ assignFrom _ _ _ _ from hmem)
    have := (List.getElem?_eq_some_iff.1 hsym).1
    exact ⟨h1, show c.length ≤ maxLength lengths by omega, by omega⟩

/-- An array of at most n registers, none of which can hold a length above 15, makes a legal table. -/
theorem huffTable_toNat_ok {w n : Nat} (hw : 2 ^ w ≤ 16) {lengths : List (BitVec w)} (hn : lengths.length ≤ n) :
    TableOk n (huffTable (lengths.map BitVec.toNat)) :=
  huffTable_ok (by simpa using hn) fun l hl => by
    obtain ⟨b, -, rfl⟩ := List.mem_map.1 hl
    have := b.isLt
    omega

theorem fixedLit_ok : TableOk 288 fixedLit :=
  huffTable_ok (by simp [fixedLitLengths, -List.reduceReplicate]) fun l hl => by
    simp only [fixedLitLengths, List.mem_append, List.mem_replicate, -List.reduceReplicate] at hl
    omega

theorem fixedDist_ok : TableOk 32 fixedDist :=
  huffTable_ok (by simp [fixedDistLengths, -List.reduceReplicate]) fun l hl => by
    have := List.eq_of_mem_replicate hl
    omega

end Sys2Proof
end

section
/-! The invariant through a step: every operation of a stage, then what the fetch finds, of the engine or of the host.
An operation is taken from a state between two operations of its stage (`Parsing`, `Inflating`, `Extracting`). -/

namespace Sys2Proof

open Sys2Proof.Machine

variable {s t : State} {x : InflateState}

/-- An operation that keeps the invariant however it ends keeps it in the state it answers. -/
theorem Inv.of_outcome {r : Res Unit} (h : r.Ends Inv Inv) (e : r.outcome = .next t) : Inv t :=
  (h.of_outcome e).elim id id

/-! ### PARSE -/

theorem chunkFrame_parsing (h : Parsing s) : (chunkFrame s).Ends Parsing Inv := by
  rcases chunkFrame_cases s with ⟨n, ty, d, hc, e⟩ | ⟨-, e⟩ | ⟨-, -, e⟩ | ⟨-, -, e⟩ <;> rw [e]
  · exact h.setPos hc.whole
  all_goals exact h.inv.fault _ _ _

/-- A chunk after IHDR: what follows its frame is shown for any frame, its data as long as its LENGTH says (40 R152,
R153). -/
theorem inv_of_chunkAfterHeader (h : Parsing s) {f : Chunk → State → Res Unit}
    (hf : ∀ c u, Parsing u → u.hdrValid = true → c.data.length = c.length → (f c u).Ends Inv Inv)
    (e : ((chunkAfterHeader s).bind f).outcome = .next t) : Inv t := by
  refine Inv.of_outcome ?_ e
  have hc := chunkFrame_parsing h
  rcases chunkFrame_cases s with ⟨n, ty, d, ha, e⟩ | ⟨-, e⟩ | ⟨-, -, e⟩ | ⟨-, -, e⟩ <;>
    rw [e] at hc <;> simp only [chunkAfterHeader, e, Res.bind_ok, Res.bind_raised]
  · split
    · exact hf _ _ hc ‹_› (by simp [← ha.data_eq])
    · exact hc.inv.fault _ _ _
  all_goals exact hc

/-- Between two setters of IHDR, before the header is valid. -/
structure Describing (s : State) : Prop extends Parsing s where
  hdrValid : s.hdrValid = false

/-- Once the depth and the colour type are set and allowed together (40 R157, R158). -/
structure Described (s : State) : Prop extends Describing s where
  depth : bitDepthLegal s.bitDepth = true
  allowed : depthAllowed s.colorType s.bitDepth = true

theorem Describing.set (h : Describing s) (w ht : BitVec 32) (bd : Byte) (ct : ColorType) {cm fm im : Byte}
    (hm : cm = 0 ∧ fm = 0 ∧ (im = 0 ∨ im = 1)) :
    Describing { s with
      width := w, height := ht, bitDepth := bd, colorType := ct, compression := cm, filter := fm, interlace := im } :=
  ⟨h.toParsing.setDescriptor h.hdrValid w ht bd ct hm, h.hdrValid⟩

theorem setBitDepth_describing (h : Describing s) (a : Nat) (bd : Byte) :
    (setBitDepth a bd s).Ends (fun u => Describing u ∧ bitDepthLegal u.bitDepth = true) Inv := by
  unfold setBitDepth
  split
  · exact ⟨h.set s.width s.height bd s.colorType h.inv.descriptor.methods, ‹_›⟩
  · exact h.inv.fault _ _ _

theorem setColorType_described (h : Describing s) (hd : bitDepthLegal s.bitDepth = true) (a : Nat) (ct : Byte) :
    (setColorType a ct s).Ends Described Inv := by
  unfold setColorType
  split
  · exact h.inv.fault _ _ _
  · split
    · exact ⟨h.set s.width s.height s.bitDepth _ h.inv.descriptor.methods, hd, ‹_›⟩
    · exact h.inv.fault _ _ _

/-- The last three setters leave the depth and the colour type. -/
theorem Described.setMethods (h : Described s) {cm fm im : Byte} (hm : cm = 0 ∧ fm = 0 ∧ (im = 0 ∨ im = 1)) :
    Described { s with compression := cm, filter := fm, interlace := im } :=
  ⟨h.set s.width s.height s.bitDepth s.colorType hm, h.depth, h.allowed⟩

theorem setCompression_described (h : Described s) (a : Nat) (cm : Byte) :
    (setCompression a cm s).Ends Described Inv := by
  unfold setCompression
  split
  · exact h.setMethods ⟨‹_›, h.inv.descriptor.methods.2⟩
  · exact h.inv.fault _ _ _

theorem setFilter_described (h : Described s) (a : Nat) (fm : Byte) : (setFilter a fm s).Ends Described Inv := by
  unfold setFilter
  split
  · exact h.setMethods ⟨h.inv.descriptor.methods.1, ‹_›, h.inv.descriptor.methods.2.2⟩
  · exact h.inv.fault _ _ _

theorem setInterlace_described (h : Described s) (a : Nat) (im : Byte) : (setInterlace a im s).Ends Described Inv := by
  unfold setInterlace
  split
  · exact h.setMethods ⟨h.inv.descriptor.methods.1, h.inv.descriptor.methods.2.1, ‹_›⟩
  · exact h.inv.fault _ _ _

theorem setDescriptor_described (h : Describing s) (a : Nat) (data : List Byte) :
    (setDescriptor a data s).Ends Described Inv := by
  refine (setBitDepth_describing ?_ a _).bind fun _ u ⟨hu, hd⟩ => ?_
  · exact h.set _ _ s.bitDepth s.colorType h.inv.descriptor.methods
  exact (setColorType_described hu hd a _).bind fun _ _ hu => (setCompression_described hu a _).bind fun _ _ hu =>
    (setFilter_described hu a _).bind fun _ _ hu => setInterlace_described hu a _

/-- The end of IHDR (40 R162). -/
theorem Described.finish (h : Described s) {p : Phase} (hp : p = .doneHeader ∨ p = s.phase) :
    Inv { s with hdrValid := true, phase := p } := by
  have hph := h.phase
  refine (h.inv.validate h.hdrValid ⟨h.depth, h.allowed⟩).changePhase (.inr (.inl hph)) ?_
    (fun _ => h.inv.cursor.pos_le hph) ?_ (fun _ => rfl) fun _ => h.inv.spaces.in_le (by simp [hph, Phase.busy])
  all_goals rcases hp with rfl | rfl <;> simp [BeforePixels, hph]

theorem execSig_inv (h : Parsing s) (e : execSig s = .next t) : Inv t := by
  refine Inv.of_outcome ?_ e
  rcases memRead_cases 0 0 8 s with ⟨hl, e⟩ | ⟨-, e⟩ <;> rw [e]
  · rw [Res.bind_ok]
    split
    · exact (h.setPos hl).inv
    · exact h.inv.fault _ _ _
  · exact h.inv.fault _ _ _

theorem execIhdr_inv (h : Parsing s) (e : execIhdr s = .next t) : Inv t := by
  refine Inv.of_outcome ((chunkFrame_parsing h).bind fun c u hu => ?_) e
  split
  · exact hu.inv.fault _ _ _
  next hv =>
  split
  · exact hu.inv.fault _ _ _
  refine (setDescriptor_described ⟨hu, by simpa using hv⟩ _ _).bind fun _ v hd => hd.finish ?_
  split
  · exact .inl rfl
  · exact .inr rfl

/-- A palette of a legal length is within 2^bitDepth entries (40 R163). -/
theorem paletteEntries_length_le {data : List Byte} {n m : Nat} (hl : data.length = n) (h3 : n % 3 = 0)
    (hm : n ≤ m * 3) : (paletteEntries data).length ≤ m := by
  rw [(paletteEntries_spec (n / 3) data (by omega)).1]
  omega

/-- A chunk item keeps the invariant. -/
theorem exec_chunk_inv {i : Instr} (hi : i.alphabet = .chunk) (h : Parsing s) (e : exec i s = .next t) : Inv t := by
  cases i <;> simp only [Instr.alphabet, reduceCtorEq] at hi <;> simp only [exec] at e
  case ihdr => exact execIhdr_inv h e
  case plte =>
    refine inv_of_chunkAfterHeader h (fun c u hu hv hl => ?_) e
    split
    · exact hu.inv.fault _ _ _
    split
    · exact hu.inv.fault _ _ _
    next hc =>
    split
    · exact hu.inv.fault _ _ _
    next h3 =>
    split
    · exact hu.inv.fault _ _ _
    · exact hu.inv.setPal hv (by simpa using hc) (paletteEntries_length_le hl (by omega) (by omega))
  case idat => exact inv_of_chunkAfterHeader h (fun c u hu _ _ => by exact hu.inv.appendZ _) e
  case iend =>
    refine inv_of_chunkAfterHeader h (fun c u hu hv _ => ?_) e
    split
    · exact hu.inv.fault _ _ _
    · exact hu.enterInflate hv
  case skip => exact inv_of_chunkAfterHeader h (fun c u hu _ _ => by exact hu.inv) e

/-! ### The shared operations of INFLATE -/

theorem getBits_inflating (h : Inflating x s) (n : Nat) : (getBits n s).Ends (Inflating x) Inv := by
  rcases getBits_cases n s with ⟨hle, e⟩ | ⟨-, e⟩ <;> rw [e]
  · exact h.setBitPos hle
  · exact h.inv.fault _ _ _

theorem huffDecode_inflating (h : Inflating x s) (table : Option HuffTable) :
    (huffDecode table s).Ends (Inflating x) Inv := by
  rcases huffDecode_cases table s with ⟨_, _, hc, e⟩ | ⟨-, e⟩ | ⟨_, _, -, -, e⟩ <;> rw [e]
  · exact h.setBitPos hc.fits
  all_goals exact h.inv.fault _ _ _

theorem appendOut_inflating (h : Inflating x s) (b : Byte) : (appendOut b s).Ends (Inflating x) Inv := by
  rcases appendOut_cases b s with ⟨hc, e⟩ | ⟨_, -, -, e⟩ <;> rw [e]
  · exact h.appendOut hc
  · exact h.inv.fault _ _ _

theorem copyBack_inflating (d n : Nat) (h : Inflating x s) : (copyBack d n s).Ends (Inflating x) Inv := by
  induction n generalizing s with
  | zero => exact h
  | succ n ih => exact (appendOut_inflating h _).bind fun _ _ hu => ih hu

theorem copyStored_inflating (n : Nat) (h : Inflating x s) : (copyStored n s).Ends (Inflating x) Inv := by
  induction n generalizing s with
  | zero => exact h
  | succ n ih =>
    exact (getBits_inflating h 8).bind fun _ _ hu => (appendOut_inflating hu _).bind fun _ _ hv => ih hv

/-- The end of a block, UNFILTER's entry included (42 R240, R258, 43 R320, R321). -/
theorem endBlock_inv (h : Inflating x s) : (endBlock s).Ends Inv Inv := by
  suffices hb : ∀ t, BlockEnded s t → Inv t by
    obtain ⟨t, e, ht⟩ := endBlock_ended s
    cases hr : endBlock s <;> rw [hr] at e <;> cases e <;> exact hb _ ht
  intro t ht
  have hv := (h.inv.blank (.inr (.inr (.inl h.phase)))).pixValid
  have hpix := (h.inv.blank (.inr (.inr (.inl h.phase)))).pix
  unfold BlockEnded at ht
  split at ht
  · subst ht; exact h.inv.setIst h.inv.cursor.bitPos_le (.inr rfl)
  split at ht
  · subst ht; exact h.fault_entering _ _ _
  split at ht
  next hh =>
    subst ht
    exact h.inv.rowsDone (.inl h.phase) (.inr ⟨rfl, rfl, by simp [hh, unfilterEntered]⟩)
      (by simp [unfilterEntered, hpix]) rfl rfl
  next hh =>
    subst ht
    exact h.inv.rowsDone (.inl h.phase) (.inl ⟨rfl, hv, Nat.pos_of_ne_zero fun e => hh (BitVec.eq_of_toNat_eq e)⟩)
      (by simp [unfilterEntered, hpix]) rfl rfl

/-! ### zlib and block headers -/

theorem readZlibHeader_inflating (h : Inflating x s) : (readZlibHeader s).Ends (Inflating x) Inv :=
  (getBits_inflating h 8).bind fun _ _ hu => (getBits_inflating hu 8).bind fun _ _ hv => hv

theorem Inflating.setBlock (h : Inflating x s) (f : Bool) (b : BitVec 2) :
    Inflating x { s with bfinal := f, btype := b } :=
  ⟨h.inv.setUnread, h.phase, h.ist⟩

theorem readBlockHeader_inflating (h : Inflating x s) : (readBlockHeader s).Ends (Inflating x) Inv :=
  (getBits_inflating h 1).bind fun v u hu =>
    (getBits_inflating (hu.setBlock (v == 1) u.btype) 2).bind fun _ w hw => hw.setBlock w.bfinal _

theorem takeBlockHeader_inflating (h : Inflating x s) (f : Bool) (b : BitVec 2) :
    (takeBlockHeader f b s).Ends (Inflating x) Inv :=
  (readBlockHeader_inflating h).bind fun _ _ hu => hu.setBlock f b

theorem storedBody_inv (h : Inflating x s) : (storedBody s).Ends Inv Inv := by
  have ha : Inflating x s.alignToByte := h.setBitPos (by have := h.inv.cursor.bitPos_le; omega)
  refine (getBits_inflating ha 16).bind fun len u hu => (getBits_inflating hu 16).bind fun nlen v hv => ?_
  split
  · exact hv.inv.fault _ _ _
  · exact (copyStored_inflating len hv).bind fun _ _ hw => endBlock_inv hw

/-- What follows a field of n bits is shown for every value of n bits and every position. -/
theorem bind_getBits_inflating {α : Type} {P : State → Prop} {n : Nat} {f : Nat → State → Res α} (h : Inflating x s)
    (hf : ∀ v p, v < 2 ^ n → Inflating x { s with bitPos := p } → (f v { s with bitPos := p }).Ends P Inv) :
    ((getBits n s).bind f).Ends P Inv := by
  rcases getBits_cases n s with ⟨hle, e⟩ | ⟨-, e⟩ <;> rw [e]
  · exact hf _ _ (bitsAt_lt _ _ _) (h.setBitPos hle)
  · exact h.inv.fault _ _ _

/-- The code-length code lengths leave the counts (42 R245). -/
theorem readClLengths_inflating (l : List Nat) (h : Inflating .bhdr s) (hl : 0 < s.hlit) :
    (readClLengths l s).Ends (fun u => Inflating .bhdr u ∧ 0 < u.hlit) Inv := by
  induction l generalizing s with
  | nil => exact ⟨h, hl⟩
  | cons a l ih =>
    refine bind_getBits_inflating h fun v p _ hu => ih ?_ hl
    exact hu.setHeader _ hu.inv.tables.hlit_le hu.inv.tables.hdist_le (by simpa using h.inv.tables.clLen_size)

/-- A dynamic header: its counts are within the ranges of its fields, and the table is over 19 symbols (42 R245). -/
theorem dynamicHeader_inv (h : Inflating .bhdr s) : (dynamicHeader s).Ends Inv Inv := by
  refine bind_getBits_inflating h fun lit p hlit hu => ?_
  have h1 := hu.setHeader (hlit := lit + 257) s.hclen (by omega) hu.inv.tables.hdist_le hu.inv.tables.clLen_size
  refine bind_getBits_inflating h1 fun dist p hdist hu => ?_
  have h2 := hu.setHeader (hdist := dist + 1) s.hclen hu.inv.tables.hlit_le (by omega) hu.inv.tables.clLen_size
  refine bind_getBits_inflating h2 fun n p _ hu => ?_
  have h3 := hu.setHeader (cl := List.replicate 19 0) (n + 4) hu.inv.tables.hlit_le hu.inv.tables.hdist_le (by simp)
  refine (readClLengths_inflating _ h3 (Nat.succ_pos _)).bind fun _ u ⟨hu, hpos⟩ => ?_
  unfold huffBuild
  split
  · exact hu.inv.fault _ _ _
  · exact hu.enterClseq (huffTable_toNat_ok (by decide) (Nat.le_of_eq hu.inv.tables.clLen_size)) (by omega)

/-! ### Code-length items -/

/-- The end of the code-length sequence: each table is over no more symbols than its count says (42 R250). -/
theorem buildTables_inv (h : Inflating .clseq s) (lens : List (BitVec 4)) :
    (buildTables { s with lens := lens }).Ends Inv Inv := by
  have hl := huffTable_toNat_ok (n := 288) (by decide)
    ((List.length_take_le s.hlit lens).trans h.inv.tables.hlit_le)
  have hd := huffTable_toNat_ok (n := 32) (by decide)
    ((List.length_take_le s.hdist (lens.drop s.hlit)).trans h.inv.tables.hdist_le)
  unfold buildTables huffBuild
  dsimp only
  split
  · exact h.fault_building lens h.inv.tables.lit _ _ _
  rw [Res.bind_ok]
  split
  · exact h.fault_building lens (fun _ e => by cases e; exact hl) _ _ _
  · exact h.enterCodes hl hd lens

theorem appendLens_inv (h : Inflating .clseq s) {lens : List (BitVec 4)}
    (hl : s.lens.length + lens.length ≤ s.hlit + s.hdist) : (appendLens lens s).Ends Inv Inv := by
  unfold appendLens
  dsimp only
  split
  · exact buildTables_inv h _
  next hne => exact h.setLens (by rw [List.length_append] at hne ⊢; omega)

theorem repeatLen_inv (h : Inflating .clseq s) (p r : Nat) (l : BitVec 4) : (repeatLen p l r s).Ends Inv Inv := by
  unfold repeatLen
  split
  · exact h.inv.fault _ _ _
  · exact appendLens_inv h (by rw [List.length_replicate]; omega)

/-- A code-length item keeps the invariant. -/
theorem exec_cl_inv {i : Instr} (hi : i.alphabet = .cl) (h : Inflating .clseq s) (e : exec i s = .next t) : Inv t := by
  cases i <;> simp only [Instr.alphabet, reduceCtorEq] at hi <;> simp only [exec] at e <;>
    refine Inv.of_outcome ((huffDecode_inflating h _).bind fun _ u hu => ?_) e
  case clen => exact appendLens_inv hu (hu.inv.tables.clseq hu.phase hu.ist).2
  case repprev =>
    split
    · exact hu.inv.fault _ _ _
    · exact (getBits_inflating hu 2).bind fun _ _ hv => repeatLen_inv hv _ _ _
  case repzero => exact (getBits_inflating hu 3).bind fun _ _ hv => repeatLen_inv hv _ _ _
  case repzerol => exact (getBits_inflating hu 7).bind fun _ _ hv => repeatLen_inv hv _ _ _

/-! ### The other items of INFLATE -/

theorem exec_zlib_inv {i : Instr} (hi : i.alphabet = .zlib) (h : Inflating x s) (e : exec i s = .next t) : Inv t := by
  cases i <;> simp only [Instr.alphabet, reduceCtorEq] at hi <;> simp only [exec] at e <;>
    refine Inv.of_outcome ((readZlibHeader_inflating h).bind fun _ u hu => ?_) e
  case zhdr => exact hu.inv.setIst hu.inv.cursor.bitPos_le (.inr rfl)
  case zhdrBad => exact hu.inv.fault _ _ _

theorem exec_bhdr_inv {i : Instr} (hi : i.alphabet = .bhdr) (h : Inflating .bhdr s) (e : exec i s = .next t) :
    Inv t := by
  cases i <;> simp only [Instr.alphabet, reduceCtorEq] at hi <;> simp only [exec] at e <;>
    refine Inv.of_outcome ((takeBlockHeader_inflating h _ _).bind fun _ u hu => ?_) e
  case blkStored => exact storedBody_inv hu
  case blkFixed => exact hu.enterCodes fixedLit_ok fixedDist_ok u.lens
  case blkDynamic => exact dynamicHeader_inv hu
  case blkInvalid => exact hu.inv.fault _ _ _

/-- A distance and its copy (42 R254, R255). -/
theorem finishReference_inflating (h : Inflating x s) (p d n : Nat) :
    (finishReference p d n s).Ends (Inflating x) Inv := by
  refine Res.Ends.bind (P := Inflating x) ?_ fun _ _ hu => copyBack_inflating _ _ hu
  unfold distanceOf
  split
  · exact h.inv.fault _ _ _
  · refine (getBits_inflating h _).bind fun _ _ hu => ?_
    dsimp only
    split
    · exact hu.inv.fault _ _ _
    · exact hu

theorem lengthOp_inflating (h : Inflating x s) (c : Nat) : (lengthOp c s).Ends (Inflating x) Inv := by
  unfold lengthOp
  generalize lengthRow c = row
  exact (huffDecode_inflating h _).bind fun _ _ hu => (getBits_inflating hu _).bind fun _ _ hv =>
    (huffDecode_inflating hv _).bind fun _ _ hw => finishReference_inflating hw _ _ _

/-- A literal/length item keeps the invariant. -/
theorem exec_ll_inv {i : Instr} (hi : i.alphabet = .ll) (h : Inflating x s) (e : exec i s = .next t) : Inv t := by
  cases hc : i.lengthCode with
  | some code =>
    rw [exec_of_lengthCode s hc] at e
    exact ((lengthOp_inflating h code).of_outcome e).elim (·.inv) id
  | none =>
    cases i <;> simp only [Instr.alphabet, Instr.lengthCode, reduceCtorEq] at hi hc <;> simp only [exec] at e
    case lit =>
      exact (((huffDecode_inflating h _).bind fun _ _ hu => appendOut_inflating hu _).of_outcome e).elim (·.inv) id
    case eob => exact Inv.of_outcome ((huffDecode_inflating h _).bind fun _ _ hu => endBlock_inv hu) e
    case llInvalid =>
      exact Inv.of_outcome ((huffDecode_inflating h _).bind fun _ u hu => by exact hu.inv.fault _ _ _) e

/-! ### UNFILTER and EXTRACT -/

theorem fetchRow_inv (h : Inv s) : (fetchRow s).Ends Inv Inv := by
  rcases fetchRow_cases s with ⟨-, e⟩ | ⟨-, e⟩ <;> rw [e]
  · exact h
  · exact h.fault _ _ _

theorem bytesPerPixel_pos (ct : ColorType) (bd : Byte) : 1 ≤ bytesPerPixel ct bd := Nat.le_max_left _ _

/-- A row makes PIX one row longer, and the last one ends UNFILTER (43 R322, R331). -/
theorem rowOp_inv (h : Inv s) (hp : s.phase = .unfilter) (pred : Byte → Byte → Byte → Byte)
    (e : (rowOp pred s).outcome = .next t) : Inv t := by
  obtain ⟨hv, hrow, hlen, hb, hc⟩ := h.pixels.rows hp
  rcases fetchRow_cases s with ⟨hw, -⟩ | ⟨-, e'⟩
  swap
  · rw [rowOp, e'] at e; cases e; exact h.fault _ _ _
  obtain ⟨u, e', hu⟩ := rowOp_appended pred s hw
  cases e'.symm.trans e
  have hrec := (reconRow_recon pred s.bpp (rowAbove s) (filteredRow s) (hb ▸ bytesPerPixel_pos _ _)).size
  rw [filteredRow_length s hw] at hrec
  have hnew : (s.pix ++ reconRow pred s.bpp (rowAbove s) (filteredRow s) []).length = (s.row + 1) * s.cpr := by
    rw [List.length_append, hlen, hrec, Nat.succ_mul]
  unfold RowAppended at hu
  split at hu <;> subst hu
  · exact h.rowsDone (.inr hp) (.inl ⟨hp, hv, ‹_›⟩) hnew hb hc
  · exact h.rowsDone (.inr hp) (.inr ⟨rfl, rfl, by omega⟩) hnew hb hc

/-- A row item keeps the invariant. -/
theorem exec_filter_inv {i : Instr} (hi : i.alphabet = .filter) (h : Inv s) (hp : s.phase = .unfilter)
    (e : exec i s = .next t) : Inv t := by
  cases i <;> simp only [Instr.alphabet, reduceCtorEq] at hi <;> simp only [exec] at e
  case filtInvalid => exact Inv.of_outcome ((fetchRow_inv h).bind fun _ _ hu => by exact hu.fault _ _ _) e
  all_goals exact rowOp_inv h hp _ e

/-- Everything PLEN can do: a fault, a payload of length 0 complete at once, or the walk begun (44 R368, R369, R373). -/
theorem execPlen_next (e : execPlen s = .next t) :
    (∃ d i j, t = faulted s d i j) ∨
    t = { s with plen := 0, px := 1, py := 0, payloadValid := true, phase := .done } ∨
    ∃ n, 0 < n ∧ n ≤ Config.payloadCeiling ∧ t = { s with plen := BitVec.ofNat 32 n, px := 1, py := 0 } := by
  rcases takePixel_cases 0 0 s with ⟨c, hc, -⟩ | ⟨f, hf, -⟩
  · obtain ⟨n, hn⟩ : ∃ n, channelsValue c = n := ⟨_, rfl⟩
    obtain ⟨hbig, hzero, hlen⟩ := execPlen_cases s c n hc hn
    rcases Nat.lt_or_ge Config.payloadCeiling n with hgt | hle
    · cases (hbig hgt).symm.trans e
      exact .inl ⟨_, _, _, rfl⟩
    rcases Nat.eq_zero_or_pos n with h0 | hpos
    · cases (hzero h0).symm.trans e
      exact .inr (.inl rfl)
    · cases (hlen hpos hle).symm.trans e
      exact .inr (.inr ⟨n, hpos, hle, rfl⟩)
  · cases (execPlen_fault s f hf).symm.trans e
    exact .inl ⟨_, _, _, rfl⟩

/-- Everything PIXEL can do: a fault at a pixel, or the channels that are missing appended (44 R370 to R373). -/
theorem execPixel_next (e : execPixel s = .next t) :
    (∃ x y d i j, t = faulted { s with px := x, py := y } d i j) ∨
    ∃ x y c, t = endExtract { s with
      px := x + 1, py := y
      payload := s.payload ++ (channelsBytes c).take (min 4 (s.plen.toNat - s.payload.length)) } := by
  obtain ⟨x, y, hxy⟩ : ∃ x y, (x, y) = if s.px < s.width.toNat then (s.px, s.py) else (0, s.py + 1) := ⟨_, _, rfl⟩
  cases hg : s.getPixel x y with
  | error f =>
    cases (execPixel_fault s x y f hxy hg).symm.trans e
    exact .inl ⟨_, _, _, _, _, rfl⟩
  | ok c =>
    cases (execPixel_ok s x y c hxy hg).symm.trans e
    exact .inr ⟨_, _, _, rfl⟩

/-- PLEN, run at the start of the walk. -/
theorem execPlen_inv (h : Extracting s) (hx : s.px = 0) (e : execPlen s = .next t) : Inv t := by
  have hpay := h.inv.payload.before_plen h.phase hx
  have hv : s.payloadValid = false := by simpa [h.phase] using h.inv.payload.valid_iff
  rcases execPlen_next e with ⟨d, i, j, rfl⟩ | rfl | ⟨n, hpos, hle, rfl⟩
  · exact h.inv.fault _ _ _
  · exact h.walk (Nat.zero_le _) (by simp) (.inr ⟨rfl, rfl, by simp [hpay]⟩)
  · have hn : (BitVec.ofNat 32 n).toNat = n := by
      rw [BitVec.toNat_ofNat]
      exact Nat.mod_eq_of_lt (Nat.lt_of_le_of_lt hle (by decide))
    exact h.walk (by rw [hn]; exact hle) (by simp) (.inl ⟨h.phase, hv, by rw [hn, hpay]; exact hpos⟩)

/-- PIXEL, run after PLEN, while the payload is short: it takes no more than what is missing. -/
theorem execPixel_inv (h : Extracting s) (hx : s.px ≠ 0) (e : execPixel s = .next t) : Inv t := by
  have hshort := h.inv.payload.after_plen h.phase hx
  have hv : s.payloadValid = false := by simpa [h.phase] using h.inv.payload.valid_iff
  rcases execPixel_next e with ⟨x, y, d, i, j, rfl⟩ | ⟨x, y, c, rfl⟩
  · exact h.inv.fault_walking _ _ _ _ _
  have hle : (s.payload ++ (channelsBytes c).take (min 4 (s.plen.toNat - s.payload.length))).length ≤ s.plen.toNat := by
    rw [List.length_append, List.length_take]; omega
  unfold endExtract
  split
  · exact h.walk h.inv.payload.ceiling (Nat.succ_ne_zero _) (.inr ⟨rfl, rfl, ‹_›⟩)
  next hne =>
    exact h.walk h.inv.payload.ceiling (Nat.succ_ne_zero _) (.inl ⟨h.phase, hv, Nat.lt_of_le_of_ne hle hne⟩)

/-! ### The fetch -/

theorem decodeChunkType_alphabet (w : BitVec 32) : (decodeChunkType w).alphabet = .chunk := by
  unfold decodeChunkType
  split_ifs <;> rfl

theorem decodeBlockHeader_alphabet (v : Nat) : (decodeBlockHeader v).alphabet = .bhdr := by
  unfold decodeBlockHeader
  dsimp only
  split <;> rfl

theorem decodeFilterTag_alphabet (tag : Byte) : (decodeFilterTag tag).alphabet = .filter := by
  unfold decodeFilterTag
  split_ifs <;> rfl

theorem lengthItems_alphabet : ∀ i ∈ lengthItems, i.alphabet = .ll := by decide

theorem distanceItems_alphabet : ∀ i ∈ distanceItems, i.alphabet = .dist := by decide

/-- The decoder answers items of the alphabet it reads (30 R128). -/
theorem decode_alphabet {a : Alphabet} {v : Nat} {i : Instr} (e : decode a v = .ok i) : i.alphabet = a := by
  cases a <;> simp only [decode] at e
  case ll =>
    split at e
    · cases e; rfl
    split at e
    · cases e; rfl
    split at e
    next hi => cases e; exact lengthItems_alphabet _ (List.mem_of_getElem? hi)
    · split at e <;> cases e; rfl
  case dist =>
    split at e
    next hi => cases e; exact distanceItems_alphabet _ (List.mem_of_getElem? hi)
    · split at e <;> cases e; rfl
  case seq => cases e
  case chunk => split at e <;> cases e; exact decodeChunkType_alphabet _
  case bhdr => split at e <;> cases e; exact decodeBlockHeader_alphabet _
  case filter => split at e <;> cases e; exact decodeFilterTag_alphabet _
  all_goals split_ifs at e <;> cases e <;> rfl

/-- What the fetch finds keeps the invariant: the state it answers, and every state its item answers. -/
def KeepsInv : Fetched → Prop
  | .item i u => ∀ t, exec i u = .next t → Inv t
  | .done u => Inv u
  | .fault _ | .refused _ => True

theorem fetchValue_keeps {P : State → Prop} {a : Alphabet} {r : Res Nat} (hr : r.Ends P Inv)
    (hi : ∀ i t, i.alphabet = a → exec i s = .next t → Inv t) : KeepsInv (fetchValue a s r) := by
  cases r with
  | raised u => exact hr
  | ok v u =>
    unfold fetchValue
    dsimp only
    split
    next i hd => exact fun t e => hi i t (decode_alphabet hd) e
    · trivial

theorem fetchInflate_keeps (h : Inv s) (hp : s.phase = .inflate) : KeepsInv (fetchInflate s) := by
  have hin (x : InflateState) (hx : s.ist = x) : Inflating x s := ⟨h, hp, hx⟩
  unfold fetchInflate
  cases hx : s.ist with
  | zhdr => exact fetchValue_keeps (readZlibHeader_inflating (hin _ hx)) fun _ _ hi => exec_zlib_inv hi (hin _ hx)
  | bhdr => exact fetchValue_keeps (readBlockHeader_inflating (hin _ hx)) fun _ _ hi => exec_bhdr_inv hi (hin _ hx)
  | clseq => exact fetchValue_keeps (huffDecode_inflating (hin _ hx) _) fun _ _ hi => exec_cl_inv hi (hin _ hx)
  | codes =>
    dsimp only
    rw [h.tables.no_pending]
    exact fetchValue_keeps (huffDecode_inflating (hin _ hx) _) fun _ _ hi => exec_ll_inv hi (hin _ hx)
  | idone => exact absurd hx (h.tables.not_idone hp)

theorem readChunkType_inv (h : Inv s) : (readChunkType s).Ends Inv Inv := by
  unfold readChunkType chunkHead
  rcases memRead_cases s.pos s.pos 8 s with ⟨-, e⟩ | ⟨-, e⟩ <;> rw [e]
  · exact h
  · exact h.fault _ _ _

theorem engineTurn_keeps (h : Inv s) : KeepsInv (engineTurn s) := by
  unfold engineTurn
  cases hp : s.phase with
  | parse =>
    dsimp only
    split
    · exact fun _ e => execSig_inv ⟨h, hp⟩ e
    · exact fetchValue_keeps (readChunkType_inv h) fun _ _ hi => exec_chunk_inv hi ⟨h, hp⟩
  | inflate => exact fetchInflate_keeps h hp
  | unfilter =>
    dsimp only
    rw [if_pos (h.pixels.rows hp).2.1]
    exact fetchValue_keeps ((fetchRow_inv h).bind fun _ _ hu => by exact hu) fun _ _ hi => exec_filter_inv hi h hp
  | extract =>
    dsimp only
    split
    · exact fun _ e => execPlen_inv ⟨h, hp⟩ ‹_› e
    · exact fun _ e => execPixel_inv ⟨h, hp⟩ ‹_› e
  | idle | done | doneHeader | error => exact h

/-! ### The host's turn -/

/-- START: a reset state that enters PARSE, or faults at once (40 R150). -/
theorem execStart_inv {ho : Bool} (h : Inv s) (e : execStart ho s = .next t) : Inv t := by
  have hreset : Inv { s.startReset with headerOnly := ho } := Inv.resetWith h.spaces.input_wf
  unfold execStart at e
  dsimp only at e
  split_ifs at e with hb hc <;> cases e
  · exact h
  · exact hreset.fault _ _ _
  · exact hreset.changePhase (.inl rfl) (.inr (.inl rfl)) (fun _ => Nat.zero_le _) (by simp) (by simp)
      fun _ => by simpa using hc

theorem execPixelRead_inv (h : Inv s) (e : execPixelRead s = .next t) : Inv t := by
  unfold execPixelRead at e
  split at e
  · cases e; exact h
  split at e <;> cases e <;> exact h.setUnread

/-- A plain register write: IN_LEN outside the busy phases, and fields the invariant does not read (10 R46 to R54). -/
theorem writeRegister_inv (h : Inv s) (offset : Nat) (w : Word) : Inv (s.writeRegister offset w) := by
  unfold State.writeRegister
  split_ifs with h0 hb h14 hb
  · exact h
  · exact h.setUnread
  · exact h
  · exact h.setInput (by simpa using hb) w h.spaces.input_wf
  · exact h.setUnread
  · exact h.setUnread
  · exact h

theorem writeWindow_inv (h : Inv s) {w : Window} {a : Nat} {b : Byte} (e : s.writeWindow w a b = .ok t) : Inv t := by
  unfold State.writeWindow at e
  split at e
  · split_ifs at e with hb
    cases e
    exact h.setInput (by simpa using hb) s.inLen (Memory.wf_write _ _ _ h.spaces.input_wf)
  all_goals cases e

theorem commandAlphabet_cases {offset : Nat} {a : Alphabet} (e : commandAlphabet offset = some a) :
    a = .ctrl ∨ a = .pixCmd := by
  unfold commandAlphabet at e
  split_ifs at e <;> cases e <;> simp

/-- A host command keeps the invariant. -/
theorem exec_command_inv {i : Instr} (hi : i.alphabet = .ctrl ∨ i.alphabet = .pixCmd) (h : Inv s)
    (e : exec i s = .next t) : Inv t := by
  cases i <;> simp only [Instr.alphabet, reduceCtorEq, or_self] at hi <;> simp only [exec] at e
  case start => exact execStart_inv h e
  case pixelRead => exact execPixelRead_inv h e

theorem fetchRegisterWrite_keeps (h : Inv s) (offset width : Nat) (w : Word) :
    KeepsInv (fetchRegisterWrite offset width w s) := by
  unfold fetchRegisterWrite
  split
  · trivial
  split
  · exact writeRegister_inv h offset w
  next a ha =>
  split
  next i hd =>
    exact fun t e => exec_command_inv (decode_alphabet hd ▸ commandAlphabet_cases ha) h e
  · exact writeRegister_inv h offset w

theorem hostTurn_keeps (h : Inv s) (ev : HostEvent) : KeepsInv (hostTurn ev s) := by
  unfold hostTurn
  cases ev with
  | pass => exact engineTurn_keeps h
  | writeReg offset width w => exact fetchRegisterWrite_keeps h offset width w
  | readReg offset width =>
    dsimp only
    split
    · exact h.setUnread
    · trivial
  | writeWindow w a b =>
    dsimp only
    split
    · exact writeWindow_inv h ‹_›
    · trivial
  | readWindow w a =>
    dsimp only
    split
    · exact h.setUnread
    · trivial
  | powerOn => exact Inv.resetWith rfl

/-- Settles O56: the fetch answers a state that keeps the invariant, or an item of the alphabet of the stage, whose
operations keep it. -/
theorem stepKeepsInvariant : Obligations.StepKeepsInvariant := by
  intro s t h e
  have hf : KeepsInv (fetch s) := by
    unfold fetch
    split
    · exact engineTurn_keeps h
    · exact hostTurn_keeps h.setUnread _
  unfold step at e
  split at e
  next hi => rw [hi] at hf; exact hf t e
  next hd => rw [hd] at hf; cases e; exact hf
  all_goals cases e

end Sys2Proof
end

section
/-! Who writes what: the frame of an engine item, as what survives the writes of its family. `Ran` is an item that goes
on, `Stopped` one that has latched a fault; the lemmas of Laws/Frames.lean carry them through the operations. -/

namespace Sys2Proof

open Sys2Proof.Machine

/-- What an item leaves as it was, whether it goes on or faults: a clause names the items that may write its fields. -/
structure Kept (i : Instr) (s t : State) : Prop where
  descriptor : i ≠ .ihdr →
    t.width = s.width ∧ t.height = s.height ∧ t.bitDepth = s.bitDepth ∧ t.colorType = s.colorType ∧
      t.compression = s.compression ∧ t.filter = s.filter ∧ t.interlace = s.interlace ∧ t.hdrValid = s.hdrValid
  pal : i ≠ .plte → t.pal = s.pal
  z : i ≠ .idat → t.z = s.z
  pos : i.alphabet ≠ .sig → i.alphabet ≠ .chunk → t.pos = s.pos
  bitPos : i ≠ .iend → i.alphabet ∉ [.zlib, .bhdr, .cl, .ll, .dist] → t.bitPos = s.bitPos
  ist : i ≠ .iend → i ≠ .eob → i.alphabet ∉ [.zlib, .bhdr, .cl] → t.ist = s.ist
  block : i.alphabet ≠ .bhdr → t.bfinal = s.bfinal ∧ t.btype = s.btype
  codes : (∀ f, i ≠ .blkFixed f) → i.alphabet ≠ .cl → t.litTab = s.litTab ∧ t.distTab = s.distTab
  header : (∀ f, i ≠ .blkDynamic f) →
    t.clTab = s.clTab ∧ t.hlit = s.hlit ∧ t.hdist = s.hdist ∧ t.hclen = s.hclen ∧ t.clLen = s.clLen
  lens : (∀ f, i ≠ .blkDynamic f) → i.alphabet ≠ .cl → t.lens = s.lens
  pendLen : i.alphabet ≠ .dist → t.pendLen = s.pendLen
  out : i.alphabet ≠ .ll → i.alphabet ≠ .dist → (∀ f, i ≠ .blkStored f) → t.out = s.out
  geometry : i ≠ .eob → (∀ f, i ≠ .blkStored f) →
    t.bpp = s.bpp ∧ t.cpr = s.cpr ∧ (i.alphabet ≠ .filter → t.row = s.row ∧ t.pixValid = s.pixValid)
  pix : i.alphabet ≠ .filter → t.pix = s.pix
  walk : i.alphabet ≠ .seq → t.plen = s.plen ∧ t.px = s.px ∧ t.py = s.py
  out_grows : s.out <+: t.out
  pix_grows : s.pix <+: t.pix

/-- From s to t an item may go that has raised no fault. -/
structure Ran (i : Instr) (s t : State) : Prop extends Kept i s t where
  err : t.err = s.err
  payload_grows : s.payload <+: t.payload
  payload : i.alphabet ≠ .seq → t.payload = s.payload ∧ t.payloadValid = s.payloadValid
  phase : i ≠ .ihdr → i ≠ .iend → i ≠ .eob → (∀ f, i ≠ .blkStored f) → i.alphabet ∉ [.filter, .seq] →
    t.phase = s.phase

/-- From s to t an item may go that has raised one (60 R403). -/
structure Stopped (i : Instr) (s t : State) : Prop extends Kept i s t where
  phase : t.phase = .error
  payload : t.payload = []
  payloadValid : t.payloadValid = false

variable {i : Instr} {s0 s t : State}

theorem Ran.refl (i : Instr) (s : State) : Ran i s s := by
  constructor
  · constructor <;> simp
  all_goals simp

theorem Ran.fault (h : Ran i s0 s) (d : FaultDetail) (m n : Nat) : Stopped i s0 (faulted s d m n) :=
  ⟨{ h.toKept with }, rfl, rfl, rfl⟩

/-! ### The writes shared by several families -/

theorem ran_bitsKeep (hi : i.alphabet ∈ [.zlib, .bhdr, .cl, .ll, .dist]) (s0 : State) :
    BitsKeep (Ran i s0) (Stopped i s0) where
  cursor _ _ h := { h with bitPos := fun _ hn => absurd hi hn }
  fault _ d m n h := h.fault d m n

theorem ran_outKeeps (hb : i.alphabet ∈ [.zlib, .bhdr, .cl, .ll, .dist])
    (hi : i.alphabet = .ll ∨ i.alphabet = .dist ∨ ∃ f, i = .blkStored f) (s0 : State) :
    OutKeeps (Ran i s0) (Stopped i s0) where
  toBitsKeep := ran_bitsKeep hb s0
  out _ _ h := { h with
    out := fun h1 h2 h3 => by
      rcases hi with hi | hi | ⟨f, hi⟩
      exacts [absurd hi h1, absurd hi h2, absurd hi (h3 f)]
    out_grows := h.out_grows.trans (List.prefix_append _ _) }

theorem ran_blockEndKeeps (hi : i = .eob ∨ ∃ f, i = .blkStored f) (s0 : State) : BlockEndKeeps (Ran i s0) where
  next _ _ h := { h with
    ist := fun _ h1 h2 => by rcases hi with rfl | ⟨f, rfl⟩ <;> simp [Instr.alphabet] at h1 h2 }
  enter _ _ _ _ _ _ h := { h with
    geometry := fun h1 h2 => by
      rcases hi with hi | ⟨f, hi⟩
      exacts [absurd hi h1, absurd hi (h2 f)]
    phase := fun _ _ h1 h2 => by
      rcases hi with hi | ⟨f, hi⟩
      exacts [absurd hi h1, absurd hi (h2 f)] }

theorem ran_chunkKeeps (hi : i.alphabet = .chunk) (s0 : State) : ChunkKeeps (Ran i s0) (Stopped i s0) where
  cursor _ _ h := { h with pos := fun _ hn => absurd hi hn }
  fault _ d m n h := h.fault d m n

/-! ### The families -/

theorem exec_bhdr_ran (hi : i.alphabet = .bhdr) (e : exec i s = .next t) : Ran i s t ∨ Stopped i s t := by
  have k := ran_bitsKeep (i := i) (by simp [hi]) s
  have hw : ∀ u f b, Ran i s u → Ran i s { u with bfinal := f, btype := b } := fun u f b h =>
    { h with block := fun hn => absurd hi hn }
  have h := Ran.refl i s
  cases i <;> simp only [Instr.alphabet, reduceCtorEq] at hi
  case blkStored f =>
    exact exec_blkStored_keeps (ran_outKeeps (by simp [Instr.alphabet]) (.inr (.inr ⟨f, rfl⟩)) s)
      (ran_blockEndKeeps (.inr ⟨f, rfl⟩) s) hw h e
  case blkFixed =>
    exact exec_blkFixed_keeps k hw (fun _ _ _ _ h => { h with codes := by simp, ist := by simp [Instr.alphabet] }) h e
  case blkDynamic =>
    exact exec_blkDynamic_keeps k hw (fun _ _ _ _ _ _ _ _ h =>
      { h with header := by simp, lens := by simp, ist := by simp [Instr.alphabet] }) h e
  case blkInvalid => exact exec_blkInvalid_keeps k hw h e

/-- The items of INFLATE. -/
theorem exec_inflate_ran (hi : i.alphabet ∈ [.zlib, .bhdr, .cl, .ll, .dist]) (e : exec i s = .next t) :
    Ran i s t ∨ Stopped i s t := by
  have k := ran_bitsKeep hi s
  have h := Ran.refl i s
  simp only [List.mem_cons, List.not_mem_nil, or_false] at hi
  rcases hi with hi | hi | hi | hi | hi
  · exact exec_zlib_keeps k (fun _ _ h => { h with ist := by simp [hi] }) hi h e
  · exact exec_bhdr_ran hi e
  · exact exec_cl_keeps k
      (fun _ _ _ _ _ h => { h with lens := by simp [hi], codes := by simp [hi], ist := by simp [hi] }) hi h e
  · by_cases hne : i = .eob
    · subst hne; exact exec_eob_keeps k (ran_blockEndKeeps (.inl rfl) s) h e
    · exact exec_ll_keeps (ran_outKeeps (by simp [hi]) (.inl hi) s) hi hne h e
  · exact exec_dist_keeps (ran_outKeeps (by simp [hi]) (.inr (.inl hi)) s)
      (fun _ h => { h with pendLen := by simp [hi] }) hi h e

/-- The items of PARSE. -/
theorem exec_parse_ran (hi : i.alphabet = .sig ∨ i.alphabet = .chunk) (e : exec i s = .next t) :
    Ran i s t ∨ Stopped i s t := by
  have h := Ran.refl i s
  have hc : i.alphabet = .chunk → (chunkAfterHeader s).Ends (Ran i s) (Stopped i s) := fun hi =>
    chunkAfterHeader_keeps (ran_chunkKeeps hi s) h
  cases i <;> simp only [Instr.alphabet, reduceCtorEq, or_self, or_false, false_or] at hi <;> simp only [exec] at e
  case sig =>
    refine Res.Ends.of_outcome (Res.Ends.bind (P := Ran .sig s) ?_ fun v u h => ?_) e
    · rcases memRead_cases 0 0 8 s with ⟨-, e⟩ | ⟨-, e⟩ <;> rw [e]
      · exact h
      · exact h.fault _ _ _
    · split
      · exact { h with pos := by simp [Instr.alphabet] }
      · exact h.fault _ _ _
  case ihdr =>
    have k := ran_chunkKeeps (i := .ihdr) rfl s
    refine Res.Ends.of_outcome ((chunkFrame_keeps k h).bind fun c u h => ?_) e
    split
    · exact h.fault _ _ _
    split
    · exact h.fault _ _ _
    refine (setDescriptor_keeps k (fun _ _ _ _ _ _ _ _ h => { h with descriptor := by simp }) h _ _).bind
      fun _ u h => ?_
    exact { h with descriptor := by simp, phase := by simp }
  case plte =>
    refine Res.Ends.of_outcome ((hc rfl).bind fun c u h => ?_) e
    split
    · exact h.fault _ _ _
    split
    · exact h.fault _ _ _
    split
    · exact h.fault _ _ _
    split
    · exact h.fault _ _ _
    · exact { h with pal := by simp }
  case idat =>
    refine Res.Ends.of_outcome ((hc rfl).bind fun c u h => ?_) e
    exact { h with z := by simp }
  case iend =>
    refine Res.Ends.of_outcome ((hc rfl).bind fun c u h => ?_) e
    split
    · exact h.fault _ _ _
    · exact { h with phase := by simp, ist := by simp, bitPos := by simp }
  case skip => exact Res.Ends.of_outcome ((hc rfl).bind fun c u h => by exact h) e

theorem fetchRow_ran (i : Instr) (s : State) : (fetchRow s).Ends (Ran i s) (Stopped i s) := by
  have h := Ran.refl i s
  rcases fetchRow_cases s with ⟨-, e⟩ | ⟨-, e⟩ <;> rw [e]
  · exact h
  · exact h.fault _ _ _

theorem rowOp_ran (hi : i.alphabet = .filter) (pred : Byte → Byte → Byte → Byte) (s : State) :
    (rowOp pred s).Ends (Ran i s) (Stopped i s) := by
  refine (fetchRow_ran i s).bind fun v u h => ?_
  have hg := h.pix_grows.trans (List.prefix_append _ (reconRow pred u.bpp u.previousRow v.2 []))
  obtain ⟨hb, hc, -⟩ := h.geometry (by rintro rfl; cases hi) (by rintro f rfl; cases hi)
  unfold endUnfilter
  dsimp only [Res.ends_ok]
  split <;> exact { h with
    geometry := fun _ _ => ⟨hb, hc, by simp [hi]⟩
    pix := by simp [hi]
    pix_grows := hg
    phase := by simp [hi] }

/-- The items of UNFILTER. -/
theorem exec_filter_ran (hi : i.alphabet = .filter) (e : exec i s = .next t) : Ran i s t ∨ Stopped i s t := by
  have hr := rowOp_ran hi
  cases i <;> simp only [Instr.alphabet, reduceCtorEq] at hi <;> simp only [exec] at e
  case filtInvalid => exact Res.Ends.of_outcome ((fetchRow_ran _ s).bind fun _ _ h => by exact h.fault _ _ _) e
  all_goals exact Res.Ends.of_outcome (hr _ s) e

theorem Ran.walk_step (h : Ran i s0 s) (hi : i.alphabet = .seq) (plen : BitVec 32) (px py : Nat) {payload : List Byte}
    (v : Bool) (p : Phase) (hg : s0.payload <+: payload) :
    Ran i s0 { s with plen := plen, px := px, py := py, payload := payload, payloadValid := v, phase := p } :=
  { h with walk := by simp [hi], payload_grows := hg, payload := by simp [hi], phase := by simp [hi] }

/-- The items of EXTRACT. -/
theorem exec_seq_ran (hi : i.alphabet = .seq) (e : exec i s = .next t) : Ran i s t ∨ Stopped i s t := by
  have h := Ran.refl i s
  have ha := hi
  cases i <;> simp only [Instr.alphabet, reduceCtorEq] at hi <;> simp only [exec] at e
  case plen =>
    rcases execPlen_next e with ⟨d, m, n, rfl⟩ | rfl | ⟨n, -, -, rfl⟩
    · exact .inr (h.fault _ _ _)
    all_goals exact .inl (h.walk_step ha _ _ _ _ _ h.payload_grows)
  case pixel =>
    rcases execPixel_next e with ⟨x, y, d, m, n, rfl⟩ | ⟨x, y, c, rfl⟩
    · exact .inr ((h.walk_step ha s.plen x y s.payloadValid s.phase h.payload_grows).fault _ _ _)
    · unfold endExtract
      split <;> exact .inl (h.walk_step ha _ _ _ _ _ (List.prefix_append _ _))

/-- An engine item leaves what its family does not write, whether it goes on or faults. -/
theorem exec_ran (hi : i.isEngine = true) (e : exec i s = .next t) : Ran i s t ∨ Stopped i s t := by
  cases ha : i.alphabet with
  | ctrl | pixCmd => cases i <;> simp [Instr.alphabet, Instr.isEngine] at ha hi
  | sig => exact exec_parse_ran (.inl ha) e
  | chunk => exact exec_parse_ran (.inr ha) e
  | zlib | bhdr | cl | ll | dist => exact exec_inflate_ran (by simp [ha]) e
  | filter => exact exec_filter_ran ha e
  | seq => exact exec_seq_ran ha e

/-- A list that has only grown holds its old bytes. -/
theorem byteAt_of_prefix {a b : List Byte} (h : a <+: b) (k : Nat) (hk : k < a.length) : byteAt b k = byteAt a k := by
  obtain ⟨c, rfl⟩ := h
  exact byteAt_append_left a c k hk

/-- Settles O51: the frame of each family, with or without a fault. -/
theorem engineWritesByFamily : Obligations.EngineWritesByFamily := by
  intro i s t hi e
  have hr := exec_ran hi e
  have k : Kept i s t := hr.elim (·.toKept) (·.toKept)
  refine ⟨k.descriptor, k.pal, k.z, k.pos, k.bitPos, k.ist, k.block, k.codes, k.header, k.lens, k.pendLen, k.out,
    k.geometry, k.pix, k.walk, ?_, ?_, byteAt_of_prefix k.out_grows, byteAt_of_prefix k.pix_grows⟩
  · exact hr.symm.imp (fun h => ⟨h.phase, h.payload, h.payloadValid⟩) fun h => ⟨h.payload_grows, h.err, h.payload⟩
  · exact fun h1 h2 h3 h4 h5 => hr.imp (fun h => h.phase h1 h2 h3 h4 h5) (·.phase)

end Sys2Proof
end

section
/-! The register port: what a host access of REG does in a step, and what each register reads as. -/

namespace Sys2Proof

open Sys2Proof.Machine

variable {s : State} {rest : List HostEvent} {offset width : Nat} {w : Word}

/-! ### Accesses -/

/-- A step whose turn is the host's makes the host's access, taken off the schedule (log 1). -/
theorem fetch_of_host {ev : HostEvent} (h : s.host = ev :: rest) :
    fetch s = hostTurn ev { s with host := rest } := by
  simp only [fetch, h]

/-- A step whose fetch leaves nothing to run answers its state. -/
theorem step_of_done {t : State} (h : fetch s = .done t) : step s = .next t := by
  simp only [step, h]

theorem step_of_refused {r : Refusal} (h : fetch s = .refused r) : step s = .refused r := by
  simp only [step, h]

theorem registerAccessOk_eq_false (h : width ≠ 4 ∨ offset % 4 ≠ 0) : registerAccessOk offset width = false := by
  rcases h with h | h <;> simp [registerAccessOk, h]

theorem registerAccessOk_aligned (h : offset % 4 = 0) : registerAccessOk offset 4 = true := by
  simp [registerAccessOk, h]

/-- From 0x48 on every register is reserved and reads 0 (10 R54). -/
theorem readRegister_reserved (s : State) (h : 0x48 ≤ offset) : s.readRegister offset = 0 := by
  have hne : ∀ k, k < 0x48 → offset ≠ k := fun k hk e => by omega
  simp [State.readRegister, hne]

/-- Settles O9: the whole and aligned check comes before every access (10 R54, 20 R91). -/
theorem registerAccesses : Obligations.RegisterAccesses := by
  intro s offset width w rest
  refine ⟨fun hbad => ⟨fun h => ?_, fun h => ?_⟩, fun h ha => ⟨?_, fun hoff => ?_⟩⟩
  · exact step_of_refused (by rw [fetch_of_host h]; simp [hostTurn, fetchRegisterWrite, registerAccessOk_eq_false hbad])
  · exact step_of_refused (by rw [fetch_of_host h]; simp [hostTurn, registerAccessOk_eq_false hbad])
  · refine step_of_done ?_
    rw [fetch_of_host h]
    simp only [hostTurn, registerAccessOk_aligned ha, if_true]
    rfl
  · exact readRegister_reserved s hoff

/-- A word with bit 0 clear is no command of the register it is written to (10 R46, R53). -/
theorem decode_command_clear (h : w.getLsbD 0 = false) {a : Alphabet} (ha : a = .ctrl ∨ a = .pixCmd) :
    decode a w.toNat = .error .noCommand := by
  have hlt : ¬ 2 ^ 32 ≤ w.toNat := Nat.not_le.2 w.isLt
  have hbit : w.toNat % 2 ≠ 1 := by
    simpa [BitVec.getLsbD, Nat.testBit_zero] using h
  rcases ha with rfl | rfl <;> simp only [decode, if_neg hlt, if_neg hbit]

/-- A whole aligned write that is no command is a plain register write (10 R46 to R54). -/
theorem step_writeReg_plain (h : s.host = .writeReg offset 4 w :: rest) (ha : offset % 4 = 0)
    (hc : commandAlphabet offset = none ∨ w.getLsbD 0 = false) :
    step s = .next (({ s with host := rest } : State).writeRegister offset w) := by
  refine step_of_done ?_
  rw [fetch_of_host h]
  simp only [hostTurn, fetchRegisterWrite, registerAccessOk_aligned ha, Bool.true_eq_false, if_false]
  cases hcmd : commandAlphabet offset with
  | none => rfl
  | some a =>
    have hw : w.getLsbD 0 = false := hc.resolve_left (by simp [hcmd])
    simp only [decode_command_clear hw (commandAlphabet_cases hcmd)]

/-- Settles O11: none of these writes is a command, so each is a plain write of its register. -/
theorem registerWrites : Obligations.RegisterWrites := by
  intro s w rest
  refine ⟨fun h hb => ?_, fun h hb => ?_, fun h hw hb => ?_, fun h hw hb => ?_, fun h _ => ?_, fun h _ => ?_,
    fun h hw => ?_, fun offset h ha hr => ?_⟩
  · rw [step_writeReg_plain h rfl (.inl rfl)]; simp [State.writeRegister, hb]
  · rw [step_writeReg_plain h rfl (.inl rfl)]; simp [State.writeRegister, hb]
  · rw [step_writeReg_plain h rfl (.inr hw)]; simp [State.writeRegister, hb]
  · rw [step_writeReg_plain h rfl (.inr hw)]; simp [State.writeRegister, hb]
  · rw [step_writeReg_plain h rfl (.inl rfl)]; rfl
  · rw [step_writeReg_plain h rfl (.inl rfl)]; rfl
  · rw [step_writeReg_plain h rfl (.inr hw)]; rfl
  · have hne : offset ≠ 0x00 ∧ offset ≠ 0x14 ∧ offset ≠ 0x34 ∧ offset ≠ 0x38 ∧ offset ≠ 0x3C := by omega
    obtain ⟨h0, h14, h34, h38, h3c⟩ := hne
    rw [step_writeReg_plain h ha (.inl (by simp [commandAlphabet, h0, h3c]))]
    simp [State.writeRegister, h0, h14, h34, h38]

/-! ### Views -/

/-- Settles O5: every field of the reset state is its reset value, so every register reads 0; FORMAT2's derived fields
wait for a valid header (log 11). -/
theorem resetLeavesIdleAndZero : Obligations.ResetLeavesIdleAndZero := by
  refine ⟨rfl, rfl, rfl, ⟨rfl, rfl, rfl, rfl, rfl, rfl⟩,
    ⟨rfl, rfl, rfl, rfl, rfl, rfl, rfl, rfl, rfl, rfl, rfl, rfl, rfl⟩, ⟨rfl, rfl, rfl, rfl, rfl, rfl⟩,
    ⟨rfl, rfl, rfl, rfl⟩, fun offset => ?_, fun s rest h => ?_⟩
  · have hviews : State.reset.ctrlView = 0 ∧ State.reset.statusView = 0 ∧ State.reset.errView = 0 ∧
        State.reset.errInfo0 = 0 ∧ State.reset.errInfo1 = 0 ∧ State.reset.formatView = 0 ∧
        State.reset.format2View = 0 ∧ State.reset.palCountView = 0 := by decide
    simp [State.readRegister, hviews]
  · exact step_of_done (fetch_of_host h)

theorem Phase.code_le (p : Phase) : p.code ≤ 7 := by cases p <;> decide

/-- BUSY is set exactly for the phase codes 1 to 4 (10 R45, R47). -/
theorem Phase.busy_eq (p : Phase) : p.busy = decide (1 ≤ p.code ∧ p.code ≤ 4) := by cases p <;> decide

theorem FaultDetail.view_lt (d : FaultDetail) : d.cls.code + 256 * d.code < 2 ^ 32 := by cases d <;> decide

theorem ColorType.view_lt (c : ColorType) : 256 * c.colors + 2048 * c.hasAlpha.toNat < 2 ^ 13 := by cases c <;> decide

/-- A register whose value fits 32 bits reads as that value. -/
theorem toNat_word {n : Nat} (h : n < 2 ^ 32) : (BitVec.ofNat 32 n).toNat = n := by
  rw [BitVec.toNat_ofNat, Nat.mod_eq_of_lt h]

theorem ofNat_word (w : Word) : BitVec.ofNat 32 w.toNat = w := by simp

theorem readRegister_ctrl (s : State) : (s.readRegister 0x00).toNat = 2 * s.headerOnly.toNat := by
  have := s.headerOnly.toNat_le
  refine toNat_word (n := s.ctrlView) ?_
  simp only [State.ctrlView]
  omega

theorem readRegister_status (s : State) : (s.readRegister 0x04).toNat =
    s.phase.code + 16 * s.hdrValid.toNat + 32 * s.pixValid.toNat + 64 * s.payloadValid.toNat
      + 128 * (decide (1 ≤ s.phase.code ∧ s.phase.code ≤ 4)).toNat + 256 * s.plteSeen.toNat := by
  rw [← Phase.busy_eq]
  have := Phase.code_le s.phase
  have := s.hdrValid.toNat_le
  have := s.pixValid.toNat_le
  have := s.payloadValid.toNat_le
  have := s.phase.busy.toNat_le
  have := s.plteSeen.toNat_le
  refine toNat_word (n := s.statusView) ?_
  simp only [State.statusView]
  omega

theorem readRegister_err (s : State) {f : FaultRecord} (h : s.err = some f) :
    (s.readRegister 0x08).toNat = f.detail.cls.code + 256 * f.detail.code := by
  have hv : s.errView = f.detail.cls.code + 256 * f.detail.code := by simp only [State.errView, h]; rfl
  exact (congrArg _ (congrArg _ hv)).trans (toNat_word (FaultDetail.view_lt f.detail))

theorem toNat_append_byte {n : Nat} (a : BitVec n) (b : Byte) : (a ++ b).toNat = 256 * a.toNat + b.toNat := by
  rw [BitVec.toNat_append, ← Nat.shiftLeft_add_eq_or_of_lt b.isLt, Nat.shiftLeft_eq, Nat.mul_comm]

/-- FORMAT is its four bytes side by side (10 R51). -/
theorem readRegister_format (s : State) :
    s.readRegister 0x20 = s.filter ++ s.compression ++ s.colorType.code ++ s.bitDepth := by
  refine BitVec.eq_of_toNat_eq ?_
  have h0 := s.bitDepth.isLt
  have h1 := s.colorType.code.isLt
  have h2 := s.compression.isLt
  have h3 := s.filter.isLt
  refine (toNat_word (n := s.formatView) ?_).trans ?_ <;> simp only [State.formatView]
  · omega
  · simp only [toNat_append_byte]
    omega

theorem readRegister_format2 (s : State) (hv : s.hdrValid = true) : (s.readRegister 0x24).toNat =
    s.interlace.toNat + 256 * s.colorType.colors + 2048 * s.colorType.hasAlpha.toNat := by
  have := s.interlace.isLt
  have := ColorType.view_lt s.colorType
  refine (toNat_word (n := s.format2View) ?_).trans ?_ <;> simp only [State.format2View, hv, if_true]
  all_goals omega

theorem readRegister_palCount (s : State) {p : List Rgb} (hp : s.pal = some p) (hl : p.length ≤ 256) :
    (s.readRegister 0x28).toNat = p.length + 2 ^ 31 := by
  refine (toNat_word (n := s.palCountView) ?_).trans ?_ <;>
    simp only [State.palCountView, State.palette, State.plteSeen, hp, Option.getD_some, Option.isSome_some,
      Bool.toNat_true]
  all_goals omega

/-- Settles O10: each view fits its register, but for the natural numbers that are shown mod 2^32. -/
theorem registerViews : Obligations.RegisterViews := by
  intro s
  refine ⟨readRegister_ctrl s, readRegister_status s, Phase.code_le _, fun h => ?_, fun f h => ?_,
    ofNat_word _, ofNat_word _, ofNat_word _, readRegister_format s, readRegister_format2 s,
    fun p => readRegister_palCount s, fun h => ?_, BitVec.toNat_ofNat _ _, ofNat_word _, ofNat_word _, ofNat_word _, rfl,
    ofNat_word _, toNat_word (n := s.pixStatus.toNat) ?_⟩
  · simp [State.readRegister, State.errView, State.errInfo0, State.errInfo1, h]
  · refine ⟨readRegister_err s h, ?_, ?_⟩ <;> simp [State.readRegister, State.errInfo0, State.errInfo1, h]
  · simp [State.readRegister, State.palCountView, State.palette, State.plteSeen, h]
  · have := s.pixStatus.isLt
    omega

end Sys2Proof
end

section
/-! The byte windows: what a host access of IN, OUT, PIX or PAYLOAD does in a step, and that no engine item touches what
belongs to the host. -/

namespace Sys2Proof

open Sys2Proof.Machine

variable {s t : State} {rest : List HostEvent} {w : Window} {a : Nat} {b : Byte}

/-! ### Writes of IN -/

/-- IN after a write: the byte written at its address, every other byte as before (20 R80). -/
theorem inByte_write (s : State) (rest : List HostEvent) (a : Nat) (b : Byte) (k : Nat) :
    ({ s with host := rest, input := Memory.write s.input a b } : State).inByte k =
      if k = a then b else s.inByte k := by
  unfold State.inByte
  dsimp only
  split
  next h => rw [h, Memory.read_write_same, Option.getD_some]
  next h => rw [Memory.read_write_other _ _ _ _ h]

/-- A write of IN in a busy phase is refused (70 R454). -/
theorem step_writeInput_busy (h : s.host = .writeWindow .input a b :: rest) (hb : s.phase.busy = true) :
    step s = .refused .inputWriteWhileBusy :=
  step_of_refused (by rw [fetch_of_host h]; simp only [hostTurn, State.writeWindow, hb, if_true])

/-- A write of IN within IN_CAP outside the busy phases writes the cell and nothing else (20 R80). -/
theorem step_writeInput (h : s.host = .writeWindow .input a b :: rest) (hb : s.phase.busy = false)
    (hc : exceedsCap (a + 1) s.inCap = false) :
    step s = .next { s with host := rest, input := Memory.write s.input a b } :=
  step_of_done (by
    rw [fetch_of_host h]
    simp only [hostTurn, State.writeWindow, State.inAddressOk, hb, hc, Bool.false_eq_true, if_false, Bool.not_false,
      if_true])

/-- Settles O12: the write is one cell of IN, which the read after it finds. -/
theorem inputWindowWrites : Obligations.InputWindowWrites := by
  intro s a b rest h
  refine ⟨step_writeInput_busy h, fun hb hc => ⟨_, step_writeInput h hb hc, ?_, fun k hk => ?_, rfl⟩⟩
  · rw [inByte_write, if_pos rfl]
  · rw [inByte_write, if_neg hk]

/-! ### Window reads -/

/-- A window read that finds a byte returns it on the bus and changes nothing else (20 R80; log 2). -/
theorem step_readWindow_some (h : s.host = .readWindow w a :: rest) (hr : s.readWindow w a = some b) :
    step s = .next { s with host := rest, busData := b.setWidth 32 } := by
  have hr' : ({ s with host := rest } : State).readWindow w a = some b := by rw [← hr]; cases w <;> rfl
  exact step_of_done (by rw [fetch_of_host h]; simp only [hostTurn, hr'])

/-- A window read that finds none is refused (60 R410; log 13). -/
theorem step_readWindow_none (h : s.host = .readWindow w a :: rest) (hr : s.readWindow w a = none) :
    step s = .refused .windowAddress := by
  have hr' : ({ s with host := rest } : State).readWindow w a = none := by rw [← hr]; cases w <;> rfl
  exact step_of_refused (by rw [fetch_of_host h]; simp only [hostTurn, hr'])

theorem getElem?_eq_byteAt {l : List Byte} (h : a < l.length) : l[a]? = some (byteAt l a) := by
  simp [byteAt, h]

/-- IN has a byte to read below IN_LEN, within IN_CAP (20 R80, 10 R50). -/
theorem readWindow_input (s : State) (a : Nat) : s.readWindow .input a =
    if a < s.inLen.toNat ∧ exceedsCap (a + 1) s.inCap = false then some (s.inByte a) else none := by
  simp [State.readWindow, State.inReadable, State.inAddressOk]

/-- Settles O59: the read finds a byte exactly inside the length of its space. -/
theorem windowReadsReturnBytes : Obligations.WindowReadsReturnBytes := by
  intro s w a rest _ h
  refine ⟨?inside, ?_, ?_, ?_, fun hl => step_readWindow_none h ?past, ?pastCap⟩
  case inside =>
    rintro hl rfl hc
    exact step_readWindow_some h (by rw [readWindow_input, if_pos ⟨hl, hc⟩])
  case past =>
    cases w with
    | input => rw [readWindow_input, if_neg fun hin => Nat.not_lt.2 hl hin.1]
    | output | pixels | payload => exact List.getElem?_eq_none hl
  case pastCap =>
    rintro rfl hc
    exact step_readWindow_none h (by rw [readWindow_input, if_neg (by simp [hc])])
  all_goals
    rintro hl rfl
    exact step_readWindow_some h (getElem?_eq_byteAt hl)

/-! ### What belongs to the host -/

/-- The host's side of a state, the engine's fields at reset: what START keeps, and the pixel port. -/
def hostSide (s : State) : State :=
  { s.startReset with pixX := s.pixX, pixY := s.pixY, pixData := s.pixData, pixStatus := s.pixStatus }

/-- No stage writes a field of the host's side: each frame has them all. -/
theorem exec_hostSide {i : Instr} (hi : i.isEngine = true) (e : exec i s = .next t) : hostSide t = hostSide s := by
  have inflate (h : InflateFrame s t) : hostSide t = hostSide s := (congrArg hostSide h.1 :)
  cases ha : i.alphabet with
  | ctrl | pixCmd => cases i <;> simp [Instr.alphabet, Instr.isEngine] at ha hi
  | sig => exact (congrArg hostSide (exec_parseFrame (.inl ha) e) :)
  | chunk => exact (congrArg hostSide (exec_parseFrame (.inr ha) e) :)
  | zlib | bhdr | cl | ll | dist => exact inflate (exec_inflateFrame (by simp [ha]) e)
  | filter => exact (congrArg hostSide (exec_unfilterFrame ha e).1 :)
  | seq => exact (congrArg hostSide (exec_extractFrame ha e) :)

/-- A field of the host's side is the same where the host's sides are. -/
theorem eq_of_hostSide {α : Type} (h : hostSide t = hostSide s) (f : State → α) (hf : ∀ u, f (hostSide u) = f u) :
    f t = f s := by
  rw [← hf t, h, hf]

/-- Settles O50: the fields named are those of the host's side, and IN reads through two of them. -/
theorem engineLeavesHostSide : Obligations.EngineLeavesHostSide := by
  intro i s t hi e
  have field {α : Type} := eq_of_hostSide (α := α) (exec_hostSide hi e)
  exact ⟨fun a => field (·.inByte a) fun _ => rfl, field State.input fun _ => rfl, field State.inLen fun _ => rfl,
    field State.headerOnly fun _ => rfl, field State.pixX fun _ => rfl, field State.pixY fun _ => rfl,
    field State.pixData fun _ => rfl, field State.pixStatus fun _ => rfl, field State.inCap fun _ => rfl,
    field State.outCap fun _ => rfl, field State.sampleFnPresent fun _ => rfl, field State.host fun _ => rfl,
    field State.busData fun _ => rfl, field State.boots fun _ => rfl⟩

end Sys2Proof
end

section
/-! The order of the stages: which phase an engine item, and so a step with no host access due, may lead to. -/

namespace Sys2Proof

open Sys2Proof.Machine

variable {s t : State} {p : Phase}

/-- The phases a stage may end in without a fault; INFLATE may end UNFILTER too (20 R95; log 10). -/
def stageEnds : Phase → List Phase
  | .parse => [.inflate, .doneHeader]
  | .inflate => [.unfilter, .extract]
  | .unfilter => [.extract]
  | .extract => [.done]
  | .idle | .done | .doneHeader | .error => []

/-- The state is in a phase that may come after p: p itself, an end of its stage, or ERROR. -/
def Follows (p : Phase) (s : State) : Prop := s.phase = p ∨ s.phase ∈ stageEnds p ∨ s.phase = .error

theorem Follows.stay (h : s.phase = p) : Follows p s := .inl h

theorem Follows.ended (q : Phase) (h : s.phase = q) (hq : q ∈ stageEnds p) : Follows p s := .inr (.inl (h ▸ hq))

theorem Follows.fault {d : FaultDetail} {i j : Nat} : Follows p (faulted s d i j) := .inr (.inr rfl)

theorem Follows.of_outcome {r : Res Unit} (h : r.Ends (Follows p) (Follows p)) (e : r.outcome = .next t) :
    Follows p t :=
  (Res.Ends.of_outcome h e).elim id id

theorem phase_bitsKeep (p : Phase) : BitsKeep (·.phase = p) (Follows p) where
  cursor _ _ h := h
  fault _ _ _ _ _ := .fault

theorem phase_outKeeps (p : Phase) : OutKeeps (·.phase = p) (Follows p) where
  toBitsKeep := phase_bitsKeep p
  out _ _ h := h

theorem phase_chunkKeeps (p : Phase) : ChunkKeeps (·.phase = p) (Follows p) where
  cursor _ _ h := h
  fault _ _ _ _ _ := .fault

/-! ### The items, by stage -/

/-- From PARSE, IHDR may end the run and IEND the stage; no other item does (40 R162, R165). -/
theorem exec_parse_follows {i : Instr} (hi : i.alphabet = .sig ∨ i.alphabet = .chunk) (hp : s.phase = .parse)
    (e : exec i s = .next t) : Follows .parse t := by
  have k := phase_chunkKeeps .parse
  by_cases hihdr : i = .ihdr
  · subst hihdr
    refine Follows.of_outcome ((chunkFrame_keeps k hp).bind fun c u h => ?_) e
    split
    · exact .fault
    split
    · exact .fault
    refine (setDescriptor_keeps k (fun _ _ _ _ _ _ _ _ h => h) h _ _).bind fun _ u h => ?_
    dsimp only [Res.ends_ok]
    split
    · exact .ended .doneHeader rfl (by decide)
    · exact .stay h
  by_cases hiend : i = .iend
  · subst hiend
    refine Follows.of_outcome ((chunkAfterHeader_keeps k hp).bind fun c u _ => ?_) e
    split
    · exact .fault
    · exact .ended .inflate rfl (by decide)
  · rcases exec_parse_ran hi e with h | h
    · refine .stay ((h.phase hihdr hiend ?_ ?_ ?_).trans hp)
      · rintro rfl; simp [Instr.alphabet] at hi
      · rintro f rfl; simp [Instr.alphabet] at hi
      · rcases hi with hi | hi <;> simp [hi]
    · exact .inr (.inr h.phase)

/-- The end of UNFILTER goes on in its phase or enters EXTRACT (43 R331). -/
theorem endUnfilter_follows (h : Follows p s) (hp : .extract ∈ stageEnds p) : Follows p (endUnfilter s) := by
  unfold endUnfilter
  split
  · exact h
  · exact .ended .extract rfl hp

theorem enterUnfilter_follows (s : State) : (enterUnfilter s).Ends (Follows .inflate) (Follows .inflate) := by
  unfold enterUnfilter
  dsimp only
  split
  · exact .fault
  · exact endUnfilter_follows (.ended .unfilter rfl (by decide)) (by decide)

theorem endBlock_follows (h : s.phase = .inflate) : (endBlock s).Ends (Follows .inflate) (Follows .inflate) := by
  unfold endBlock
  split
  · exact enterUnfilter_follows _
  · exact .stay h

theorem storedBody_follows (h : s.phase = .inflate) : (storedBody s).Ends (Follows .inflate) (Follows .inflate) := by
  have k := phase_outKeeps .inflate
  unfold storedBody
  dsimp only
  have ha : s.alignToByte.phase = .inflate := h
  refine (getBits_keeps k.toBitsKeep ha _).bind fun len u h => (getBits_keeps k.toBitsKeep h _).bind fun nlen u h => ?_
  split
  · exact .fault
  · exact (copyStored_keeps k len h).bind fun _ _ h => endBlock_follows h

/-- From INFLATE, only the two items that end a block may end the stage (42 R243, R252). -/
theorem exec_inflate_follows {i : Instr} (hi : i.alphabet ∈ [.zlib, .bhdr, .cl, .ll, .dist])
    (hp : s.phase = .inflate) (e : exec i s = .next t) : Follows .inflate t := by
  have k := phase_bitsKeep .inflate
  by_cases heob : i = .eob
  · subst heob
    exact Follows.of_outcome ((huffDecode_keeps k hp _).bind fun _ _ h => endBlock_follows h) e
  by_cases hst : ∃ f, i = .blkStored f
  · obtain ⟨f, rfl⟩ := hst
    exact Follows.of_outcome
      ((takeBlockHeader_keeps k (fun _ _ _ h => h) hp _ _).bind fun _ _ h => storedBody_follows h) e
  · rcases exec_inflate_ran hi e with h | h
    · refine .stay ((h.phase ?_ ?_ heob (fun f hf => hst ⟨f, hf⟩) ?_).trans hp)
      · rintro rfl; simp [Instr.alphabet] at hi
      · rintro rfl; simp [Instr.alphabet] at hi
      · intro hf
        simp only [List.mem_cons, List.not_mem_nil, or_false] at hf
        rcases hf with hf | hf <;> simp [hf] at hi
    · exact .inr (.inr h.phase)

theorem rowOp_follows (hp : s.phase = .unfilter) (pred : Byte → Byte → Byte → Byte) :
    (rowOp pred s).Ends (Follows .unfilter) (Follows .unfilter) := by
  unfold rowOp
  rcases fetchRow_cases s with ⟨-, e⟩ | ⟨-, e⟩ <;> rw [e]
  · exact endUnfilter_follows (.stay hp) (by decide)
  · exact .fault

/-- From UNFILTER, a row may end the stage (43 R331). -/
theorem exec_filter_follows {i : Instr} (hi : i.alphabet = .filter) (hp : s.phase = .unfilter)
    (e : exec i s = .next t) : Follows .unfilter t := by
  cases i <;> simp only [Instr.alphabet, reduceCtorEq] at hi <;> simp only [exec] at e
  case filtInvalid =>
    unfold execFiltInvalid at e
    rcases fetchRow_cases s with ⟨-, hf⟩ | ⟨-, hf⟩ <;> rw [hf] at e <;> cases e <;> exact .fault
  all_goals exact Follows.of_outcome (rowOp_follows hp _) e

/-- From EXTRACT, either step may complete the payload (44 R369, R373). -/
theorem exec_seq_follows {i : Instr} (hi : i.alphabet = .seq) (hp : s.phase = .extract)
    (e : exec i s = .next t) : Follows .extract t := by
  cases i <;> simp only [Instr.alphabet, reduceCtorEq] at hi <;> simp only [exec] at e
  case plen =>
    rcases execPlen_next e with ⟨d, i, j, rfl⟩ | rfl | ⟨n, -, -, rfl⟩
    · exact .fault
    · exact .ended .done rfl (by decide)
    · exact .stay hp
  case pixel =>
    rcases execPixel_next e with ⟨x, y, d, i, j, rfl⟩ | ⟨x, y, c, rfl⟩
    · exact .fault
    · unfold endExtract
      split
      · exact .ended .done rfl (by decide)
      · exact .stay hp

/-! ### The engine's turn -/

/-- What a step answers for what it fetches. -/
def Machine.Fetched.outcome : Fetched → Host.Outcome State Fault Refusal
  | .item i u => exec i u
  | .done u => .next u
  | .fault r => .fault r
  | .refused r => .refused r

theorem step_eq_outcome (s : State) : step s = (fetch s).outcome := by
  unfold step Fetched.outcome
  cases fetch s <;> rfl

/-- A value read ahead leads where a fault of the reading or an item of the alphabet does. -/
theorem fetchValue_follows {P : State → Prop} {a : Alphabet} {r : Res Nat} (hr : r.Ends P (Follows p))
    (hi : ∀ i, i.alphabet = a → exec i s = .next t → Follows p t)
    (e : (fetchValue a s r).outcome = .next t) : Follows p t := by
  cases r with
  | raised u => cases e; exact hr
  | ok v u =>
    unfold fetchValue at e
    dsimp only at e
    split at e
    next i hd => exact hi i (decode_alphabet hd) e
    · cases e

theorem readBlockHeader_follows (hp : s.phase = p) : (readBlockHeader s).Ends (·.phase = p) (Follows p) := by
  have k := phase_bitsKeep p
  exact (getBits_keeps k hp _).bind fun f u h =>
    (getBits_keeps k (s := { u with bfinal := f == 1 }) h _).bind fun _ _ h => h

theorem fetchInflate_follows (hp : s.phase = .inflate) (e : (fetchInflate s).outcome = .next t) :
    Follows .inflate t := by
  have k := phase_bitsKeep .inflate
  have hi : ∀ a ∈ [Alphabet.zlib, .bhdr, .cl, .ll, .dist], ∀ i : Instr, i.alphabet = a → exec i s = .next t →
      Follows .inflate t := fun a ha i hi e => exec_inflate_follows (hi ▸ ha) hp e
  unfold fetchInflate at e
  cases hx : s.ist <;> rw [hx] at e <;> dsimp only at e
  case zhdr => exact fetchValue_follows (readZlibHeader_keeps k hp) (hi _ (by simp)) e
  case bhdr => exact fetchValue_follows (readBlockHeader_follows hp) (hi _ (by simp)) e
  case clseq => exact fetchValue_follows (huffDecode_keeps k hp _) (hi _ (by simp)) e
  case codes =>
    split at e <;> exact fetchValue_follows (huffDecode_keeps k hp _) (hi _ (by simp)) e
  case idone =>
    have h := enterUnfilter_follows s
    split at e <;> next hr => rw [hr] at h; cases e; exact h

theorem readChunkType_follows (hp : s.phase = p) : (readChunkType s).Ends (·.phase = p) (Follows p) := by
  unfold readChunkType chunkHead
  rcases memRead_cases s.pos s.pos 8 s with ⟨-, e⟩ | ⟨-, e⟩ <;> rw [e]
  · exact hp
  · exact .fault

theorem readTag_follows (hp : s.phase = p) : (readTag s).Ends (·.phase = p) (Follows p) := by
  unfold readTag
  rcases fetchRow_cases s with ⟨-, e⟩ | ⟨-, e⟩ <;> rw [e]
  · exact hp
  · exact .fault

/-- The engine's turn stays in its phase, ends its stage, or faults. -/
theorem engineTurn_follows (e : (engineTurn s).outcome = .next t) : Follows s.phase t := by
  unfold engineTurn at e
  cases hp : s.phase <;> rw [hp] at e <;> dsimp only at e
  case parse =>
    split at e
    · exact exec_parse_follows (i := .sig) (.inl rfl) hp e
    · exact fetchValue_follows (readChunkType_follows hp) (fun _ hi => exec_parse_follows (.inr hi) hp) e
  case inflate => exact fetchInflate_follows hp e
  case unfilter =>
    split at e
    · exact fetchValue_follows (readTag_follows hp) (fun _ hi => exec_filter_follows hi hp) e
    · cases e
      exact endUnfilter_follows (.stay hp) (by decide)
  case extract =>
    split at e
    · exact exec_seq_follows (i := .plen) rfl hp e
    · exact exec_seq_follows (i := .pixel) rfl hp e
  all_goals cases e; exact .stay hp

/-- Settles O54: with no host access due the step is the engine's turn. -/
theorem stagesRunInOrder : Obligations.StagesRunInOrder := by
  intro s t hhost e
  have h : Follows s.phase t := engineTurn_follows (by rw [← e, step_eq_outcome, fetch, hhost])
  refine ⟨fun hp => ?_, fun hp => ?_, fun hp => ?_, fun hp => ?_⟩ <;>
    simpa [hp, Follows, stageEnds, or_assoc] using h

end Sys2Proof
end

section
/-! The encoding: over the well-formed items the decoder and the encoder undo each other. -/

namespace Sys2Proof

/-! ### The decoder on a value that is an operand -/

theorem decode_chunk_toNat (t : BitVec 32) : decode .chunk t.toNat = .ok (decodeChunkType t) := by
  simp only [decode, if_neg (Nat.not_le.2 t.isLt), BitVec.ofNat_toNat, BitVec.setWidth_eq]

theorem decode_zlib_toNat (h : BitVec 16) :
    decode .zlib h.toNat = .ok (if zlibHeaderOk h then .zhdr h else .zhdrBad h) := by
  simp only [decode, if_neg (Nat.not_le.2 h.isLt), BitVec.ofNat_toNat, BitVec.setWidth_eq]
  split_ifs <;> rfl

theorem decode_cl_toNat (n : BitVec 4) : decode .cl n.toNat = .ok (.clen n) := by
  simp only [decode, if_pos (show n.toNat < 16 from n.isLt), BitVec.ofNat_toNat, BitVec.setWidth_eq]

theorem decode_ll_toNat (b : Byte) : decode .ll b.toNat = .ok (.lit b) := by
  simp only [decode, if_pos (show b.toNat < 256 from b.isLt), BitVec.ofNat_toNat, BitVec.setWidth_eq]

theorem decode_ll_invalid : ∀ low : BitVec 1, decode .ll (286 + low.toNat) = .ok (.llInvalid low) := by decide

theorem decode_dist_invalid : ∀ low : BitVec 1, decode .dist (30 + low.toNat) = .ok (.distInvalid low) := by decide

theorem decode_filter_toNat (tag : Byte) : decode .filter tag.toNat = .ok (decodeFilterTag tag) := by
  simp only [decode, if_neg (show ¬ 256 ≤ tag.toNat from Nat.not_le.2 tag.isLt), BitVec.ofNat_toNat,
    BitVec.setWidth_eq]

/-! ### From an item to its value and back -/

/-- A type SKIP admits is none of the recognised ones (30 R113). -/
theorem decodeChunkType_of_wf {t : BitVec 32} (h : (Instr.skip t).wf = true) : decodeChunkType t = .skip t := by
  simp only [Instr.wf, Bool.and_eq_true, bne_iff_ne] at h
  obtain ⟨⟨⟨hihdr, hplte⟩, hidat⟩, hiend⟩ := h
  simp only [decodeChunkType, if_neg hihdr, if_neg hplte, if_neg hidat, if_neg hiend]

/-- A tag FILT_INVALID admits is none of the five filters' (30 R126). -/
theorem decodeFilterTag_of_wf {tag : Byte} (h : (Instr.filtInvalid tag).wf = true) :
    decodeFilterTag tag = .filtInvalid tag := by
  have hne (k : Byte) (hk : k.toNat < 5) : tag ≠ k := by
    rintro rfl
    exact absurd (of_decide_eq_true h) (Nat.not_le.2 hk)
  simp only [decodeFilterTag, if_neg (hne 0 (by decide)), if_neg (hne 1 (by decide)), if_neg (hne 2 (by decide)),
    if_neg (hne 3 (by decide)), if_neg (hne 4 (by decide))]

/-- Settles O1: an item with an operand by the decoder's lemma on it, any other by its one value. -/
theorem decodeEncodeRoundTrip : Obligations.DecodeEncodeRoundTrip := by
  intro i v hwf he
  cases i <;> cases he
  case skip t => exact (decode_chunk_toNat t).trans (congrArg _ (decodeChunkType_of_wf hwf))
  case zhdr h => exact (decode_zlib_toNat h).trans (congrArg _ (if_pos hwf))
  case zhdrBad h => exact (decode_zlib_toNat h).trans (congrArg _ (if_neg (by simpa [Instr.wf] using hwf)))
  case clen n => exact decode_cl_toNat n
  case lit b => exact decode_ll_toNat b
  case llInvalid low => exact decode_ll_invalid low
  case distInvalid low => exact decode_dist_invalid low
  case filtInvalid tag => exact (decode_filter_toNat tag).trans (congrArg _ (decodeFilterTag_of_wf hwf))
  case start f | blkStored f | blkFixed f | blkDynamic f | blkInvalid f => cases f <;> rfl
  all_goals rfl

/-- Settles O3: each word is the encoding of its item, so the round trip reads it back. -/
theorem sampleWordsDecode : Obligations.SampleWordsDecode := by
  have trip := decodeEncodeRoundTrip
  exact ⟨trip (.start true) _ rfl rfl, trip .pixelRead _ rfl rfl, trip .sig _ rfl rfl, trip .plte _ rfl rfl,
    trip (.zhdr 0x7801#16) _ rfl rfl, trip (.blkDynamic true) _ rfl rfl, trip .repzero _ rfl rfl,
    trip .len265 _ rfl rfl, trip .dist29 _ rfl rfl, trip .filtPaeth _ rfl rfl⟩

/-! ### From a value to its item and back -/

/-- The value is the encoding of the item, whose operand is one its row admits (30 R134). -/
def Encodes (i : Instr) (v : Nat) : Prop := i.wf = true ∧ encode i = some v

theorem decodeChunkType_encodes (t : BitVec 32) : Encodes (decodeChunkType t) t.toNat := by
  unfold decodeChunkType
  split_ifs with hihdr hplte hidat hiend
  · exact hihdr ▸ ⟨rfl, rfl⟩
  · exact hplte ▸ ⟨rfl, rfl⟩
  · exact hidat ▸ ⟨rfl, rfl⟩
  · exact hiend ▸ ⟨rfl, rfl⟩
  · exact ⟨by simp [Instr.wf, hihdr, hplte, hidat, hiend], rfl⟩

theorem decodeBlockHeader_encodes {v : Nat} (h : v < 8) : Encodes (decodeBlockHeader v) v := by
  interval_cases v <;> exact ⟨rfl, rfl⟩

theorem decodeFilterTag_encodes (tag : Byte) : Encodes (decodeFilterTag tag) tag.toNat := by
  unfold decodeFilterTag
  split_ifs with h0 h1 h2 h3 h4
  · exact h0 ▸ ⟨rfl, rfl⟩
  · exact h1 ▸ ⟨rfl, rfl⟩
  · exact h2 ▸ ⟨rfl, rfl⟩
  · exact h3 ▸ ⟨rfl, rfl⟩
  · exact h4 ▸ ⟨rfl, rfl⟩
  · exact ⟨decide_eq_true (by bv_omega), rfl⟩

theorem lengthItems_encodes {k : Nat} {i : Instr} (h : lengthItems[k]? = some i) : Encodes i (257 + k) := by
  have all : ∀ k : Fin 29, (lengthItems.get k).wf = true ∧ encode (lengthItems.get k) = some (257 + k.val) := by
    decide
  obtain ⟨hk, rfl⟩ := List.getElem?_eq_some_iff.1 h
  exact all ⟨k, hk⟩

theorem distanceItems_encodes {d : Nat} {i : Instr} (h : distanceItems[d]? = some i) : Encodes i d := by
  have all : ∀ d : Fin 30, (distanceItems.get d).wf = true ∧ encode (distanceItems.get d) = some d.val := by
    decide
  obtain ⟨hd, rfl⟩ := List.getElem?_eq_some_iff.1 h
  exact all ⟨d, hd⟩

/-- A code-length symbol is a length or one of the three repeat codes (30 R119). -/
theorem decode_cl_encodes {v : Nat} {i : Instr} (e : decode .cl v = .ok i) : Encodes i v := by
  simp only [decode] at e
  split_ifs at e with hlen h16 h17 h18 <;> cases e
  · exact ⟨rfl, congrArg some (Nat.mod_eq_of_lt hlen)⟩
  · exact h16 ▸ ⟨rfl, rfl⟩
  · exact h17 ▸ ⟨rfl, rfl⟩
  · exact h18 ▸ ⟨rfl, rfl⟩

/-- A literal/length symbol is a byte, the end of the block, a length code or one of the two codes above them
(30 R120, R121). -/
theorem decode_ll_encodes {v : Nat} {i : Instr} (e : decode .ll v = .ok i) : Encodes i v := by
  simp only [decode] at e
  split at e
  next hlit =>
    cases e
    exact ⟨rfl, congrArg some (Nat.mod_eq_of_lt hlit)⟩
  split at e
  next heob =>
    cases e
    exact heob ▸ ⟨rfl, rfl⟩
  split at e
  next hi =>
    cases e
    have hv : 257 + (v - 257) = v := by omega
    exact hv ▸ lengthItems_encodes hi
  next hi =>
    split_ifs at e with hlt
    cases e
    have hge : 29 ≤ v - 257 := List.getElem?_eq_none_iff.1 hi
    obtain rfl | rfl : v = 286 ∨ v = 287 := by omega
    · exact ⟨rfl, rfl⟩
    · exact ⟨rfl, rfl⟩

/-- A distance symbol is a distance code or one of the two above them (30 R122). -/
theorem decode_dist_encodes {v : Nat} {i : Instr} (e : decode .dist v = .ok i) : Encodes i v := by
  simp only [decode] at e
  split at e
  next hi =>
    cases e
    exact distanceItems_encodes hi
  next hi =>
    split_ifs at e with hlt
    cases e
    have hge : 30 ≤ v := List.getElem?_eq_none_iff.1 hi
    obtain rfl | rfl : v = 30 ∨ v = 31 := by omega
    · exact ⟨rfl, rfl⟩
    · exact ⟨rfl, rfl⟩

/-- A value the decoder accepts where it checks the width alone is a word of that width. -/
theorem exists_toNat_eq_of_guard {n v : Nat} {i : Instr} {r : Except Reject Instr}
    (e : (if 2 ^ n ≤ v then .error .tooWide else r) = .ok i) : ∃ w : BitVec n, w.toNat = v := by
  split_ifs at e with hv
  exact ⟨.ofNatLT v (Nat.not_le.1 hv), rfl⟩

/-- What the decoder accepts of any alphabet but the two commands is the value of the item it answers. -/
theorem decode_encodes {a : Alphabet} {v : Nat} {i : Instr} (e : decode a v = .ok i) (hctrl : a ≠ .ctrl)
    (hpix : a ≠ .pixCmd) : Encodes i v := by
  cases a with
  | ctrl => exact absurd rfl hctrl
  | pixCmd => exact absurd rfl hpix
  | sig =>
    simp only [decode] at e
    split_ifs at e with hv
    cases e
    exact hv ▸ ⟨rfl, rfl⟩
  | chunk =>
    obtain ⟨t, rfl⟩ := exists_toNat_eq_of_guard (n := 32) e
    cases (decode_chunk_toNat t).symm.trans e
    exact decodeChunkType_encodes t
  | zlib =>
    obtain ⟨h, rfl⟩ := exists_toNat_eq_of_guard (n := 16) e
    cases (decode_zlib_toNat h).symm.trans e
    split_ifs with hok
    · exact ⟨hok, rfl⟩
    · exact ⟨by simpa [Instr.wf] using hok, rfl⟩
  | bhdr =>
    simp only [decode] at e
    split_ifs at e with hv
    cases e
    exact decodeBlockHeader_encodes (Nat.not_le.1 hv)
  | cl => exact decode_cl_encodes e
  | ll => exact decode_ll_encodes e
  | dist => exact decode_dist_encodes e
  | filter =>
    obtain ⟨tag, rfl⟩ := exists_toNat_eq_of_guard (n := 8) e
    cases (decode_filter_toNat tag).symm.trans e
    exact decodeFilterTag_encodes tag
  | seq => cases e

/-- The commands have no operand their rows refuse (10 R46, R53). -/
theorem decode_command_wf {a : Alphabet} {v : Nat} {i : Instr} (e : decode a v = .ok i)
    (ha : a = .ctrl ∨ a = .pixCmd) : i.wf = true := by
  rcases ha with rfl | rfl
  all_goals
    simp only [decode] at e
    split_ifs at e
    cases e
    rfl

/-- Settles O2: the command words, whose upper bits are ignored, apart. -/
theorem decodedItemsReencode : Obligations.DecodedItemsReencode := by
  intro a v i e
  refine ⟨?_, decode_alphabet e, fun hctrl hpix => (decode_encodes e hctrl hpix).2⟩
  by_cases ha : a = .ctrl ∨ a = .pixCmd
  · exact decode_command_wf e ha
  · obtain ⟨hctrl, hpix⟩ := not_or.1 ha
    exact (decode_encodes e hctrl hpix).1

end Sys2Proof
end

section
/-! The tables of the length and distance codes: ranges that follow one another leave no gap. -/

namespace Sys2Proof

open Sys2Proof.Machine

/-- Ranges that each begin where the one before ends cover all from the first base to the end of the last. -/
theorem exists_range_of_adjacent {base size : Nat → Nat} :
    ∀ m : Nat, (∀ k, k < m → base (k + 1) = base k + size k) →
      ∀ n, base 0 ≤ n → n < base m + size m → ∃ k e, k ≤ m ∧ e < size k ∧ n = base k + e
  | 0, _, n, hlo, hhi => ⟨0, n - base 0, Nat.le_refl 0, by omega, by omega⟩
  | m + 1, hadj, n, hlo, hhi => by
    by_cases hn : base (m + 1) ≤ n
    · exact ⟨m + 1, n - base (m + 1), Nat.le_refl _, by omega, by omega⟩
    · have hlast := hadj m (Nat.lt_succ_self m)
      obtain ⟨k, e, hk, he, rfl⟩ :=
        exists_range_of_adjacent m (fun k hk => hadj k (Nat.lt_succ_of_lt hk)) n hlo (by omega)
      exact ⟨k, e, Nat.le_succ_of_le hk, he, rfl⟩

/-! ### Length codes (30 R121) -/

theorem lengthRow_adjacent : ∀ k, k < 27 →
    (lengthRow (257 + (k + 1))).base = (lengthRow (257 + k)).base + 2 ^ (lengthRow (257 + k)).extra := by decide

theorem lengthRow_extra : ∀ k, k < 28 → (lengthRow (257 + k)).extra = if k < 8 then 0 else (k - 4) / 4 := by decide

theorem lengthRow_bounds : ∀ k, k < 29 →
    3 ≤ (lengthRow (257 + k)).base ∧ (lengthRow (257 + k)).base + 2 ^ (lengthRow (257 + k)).extra ≤ 259 := by
  decide

/-- The codes up to 284 reach 258 already. -/
theorem length_in_range_iff (n : Nat) : (3 ≤ n ∧ n ≤ 258) ↔
    ∃ c e, 257 ≤ c ∧ c ≤ 285 ∧ e < 2 ^ (lengthRow c).extra ∧ n = (lengthRow c).base + e := by
  constructor
  · rintro ⟨hlo, hhi⟩
    obtain ⟨k, e, hk, he, rfl⟩ := exists_range_of_adjacent (base := fun k => (lengthRow (257 + k)).base)
      (size := fun k => 2 ^ (lengthRow (257 + k)).extra) 27 lengthRow_adjacent n hlo (Nat.lt_succ_of_le hhi)
    exact ⟨257 + k, e, by omega, by omega, he, rfl⟩
  · rintro ⟨c, e, hc, hc', he, rfl⟩
    obtain ⟨k, rfl⟩ := Nat.exists_eq_add_of_le hc
    obtain ⟨hlo, hhi⟩ := lengthRow_bounds k (by omega)
    omega

/-! ### Distance codes (30 R122) -/

theorem distanceRow_adjacent : ∀ d, d < 29 →
    (distanceRow (d + 1)).base = (distanceRow d).base + 2 ^ (distanceRow d).extra := by decide

theorem distanceRow_extra : ∀ d, d < 30 → (distanceRow d).extra = if d < 2 then 0 else d / 2 - 1 := by decide

theorem distanceRow_bounds : ∀ d, d < 30 →
    1 ≤ (distanceRow d).base ∧ (distanceRow d).base + 2 ^ (distanceRow d).extra ≤ 32769 := by decide

theorem distance_in_range_iff (n : Nat) : (1 ≤ n ∧ n ≤ 32768) ↔
    ∃ d e, d ≤ 29 ∧ e < 2 ^ (distanceRow d).extra ∧ n = (distanceRow d).base + e := by
  constructor
  · rintro ⟨hlo, hhi⟩
    exact exists_range_of_adjacent 29 distanceRow_adjacent n hlo (Nat.lt_succ_of_le hhi)
  · rintro ⟨d, e, hd, he, rfl⟩
    obtain ⟨hlo, hhi⟩ := distanceRow_bounds d (by omega)
    omega

/-- Settles O42: the rows by the tables, the two ranges by their having no gap. -/
theorem lengthAndDistanceRanges : Obligations.LengthAndDistanceRanges := by
  refine ⟨length_in_range_iff, distance_in_range_iff, fun c hc hc' => ?_, rfl, fun c hc hc' => ?_, rfl,
    fun d hd => distanceRow_extra d (Nat.lt_succ_of_le hd), rfl, distanceRow_adjacent⟩
  · obtain ⟨k, rfl⟩ := Nat.exists_eq_add_of_le hc
    rw [lengthRow_extra k (by omega)]
    split_ifs <;> omega
  · obtain ⟨k, rfl⟩ := Nat.exists_eq_add_of_le hc
    exact lengthRow_adjacent k (by omega)

end Sys2Proof
end

section
/-! The step and the decoder: what is read and decoded is what the step runs. -/

namespace Sys2Proof

open Sys2Proof.Machine

variable {s : State} {i : Instr}

/-- A step whose fetch finds an item runs it on the state the fetch answers. -/
theorem step_of_item {u : State} (h : fetch s = .item i u) : step s = exec i u := by
  simp only [step, h]

/-- With no host access due the step runs what the engine's turn finds (log 1). -/
theorem step_of_engineTurn {u : State} (hhost : s.host = []) (h : engineTurn s = .item i u) : step s = exec i u :=
  step_of_item (by simp only [fetch, hhost, h])

/-- A value read ahead that decodes leaves the state as it was before the reading. -/
theorem fetchValue_of_decode {a : Alphabet} {v : Nat} {u : State} {r : Res Nat} (hr : r = .ok v u)
    (hd : decode a v = .ok i) : fetchValue a s r = .item i s := by
  simp only [hr, fetchValue, hd]

/-- In INFLATE the sub-state gives the alphabet and the table (42 R240). -/
theorem step_of_fetchInflate (hhost : s.host = []) (hp : s.phase = .inflate) (h : fetchInflate s = .item i s) :
    step s = exec i s :=
  step_of_engineTurn hhost (by simp only [engineTurn, hp, h])

/-- A word written to a command's register that decodes is that command (10 R46, R53). -/
theorem step_writeReg_command {offset : Nat} {w : Word} {rest : List HostEvent} {a : Alphabet}
    (h : s.host = .writeReg offset 4 w :: rest) (ha : offset % 4 = 0) (hc : commandAlphabet offset = some a)
    (hd : decode a w.toNat = .ok i) : step s = exec i { s with host := rest } := by
  refine step_of_item ?_
  rw [fetch_of_host h]
  simp only [hostTurn, fetchRegisterWrite, registerAccessOk_aligned ha, Bool.true_eq_false, if_false, hc, hd]

/-- Settles O4: each decoding context reads its alphabet, and what decodes is run. -/
theorem stepRunsDecodedItem : Obligations.StepRunsDecodedItem := by
  refine ⟨?chunk, ?zlib, ?bhdr, ?cl, ?ll, ?dist, ?filter, ?sig, ?plen, ?pixel, ?ctrl, ?pixCmd⟩
  case chunk =>
    intro s u v i hhost hp hpos hr hd
    exact step_of_engineTurn hhost (by simp only [engineTurn, hp, if_neg hpos, fetchValue_of_decode hr hd])
  case zlib | bhdr | cl =>
    intro s u v i hhost hp hx hr hd
    exact step_of_fetchInflate hhost hp (by simp only [fetchInflate, hx, fetchValue_of_decode hr hd])
  case ll =>
    intro s u v i hhost hp hx hn hr hd
    exact step_of_fetchInflate hhost hp (by simp only [fetchInflate, hx, hn, fetchValue_of_decode hr hd])
  case dist =>
    intro s u v n i hhost hp hx hn hr hd
    exact step_of_fetchInflate hhost hp (by simp only [fetchInflate, hx, hn, fetchValue_of_decode hr hd])
  case filter =>
    intro s u v i hhost hp hrow hr hd
    exact step_of_engineTurn hhost (by simp only [engineTurn, hp, if_pos hrow, fetchValue_of_decode hr hd])
  case sig =>
    intro s hhost hp hpos
    exact step_of_engineTurn hhost (by simp only [engineTurn, hp, if_pos hpos])
  case plen =>
    intro s hhost hp hpx
    exact step_of_engineTurn hhost (by simp only [engineTurn, hp, if_pos hpx])
  case pixel =>
    intro s hhost hp hpx
    exact step_of_engineTurn hhost (by simp only [engineTurn, hp, if_neg hpx])
  case ctrl | pixCmd =>
    intro s w rest i h hd
    exact step_writeReg_command h rfl rfl hd

end Sys2Proof
end

section
/-! START and the signature, and what a chunk item does with its frame: a frame that is whole is handed to the item, one
that is cut off faults before the item looks at it. -/

namespace Sys2Proof

open Sys2Proof.Machine

variable {s : State} {i : Instr} {n : Nat} {type : BitVec 32} {data : List Byte}

/-- Settles O7: the state START begins with is the reset state with the fields START keeps (10 R57, 70 R451). -/
theorem startBeginsRun : Obligations.StartBeginsRun := by
  intro ho s
  refine ⟨fun hb => if_pos hb, fun hb => ?_⟩
  have hidle : ¬ s.phase.busy = true := by simp [hb]
  refine ⟨fun hc => ?_, fun cap hcap hlt => ?_⟩
  · have hfits : ¬ exceedsCap s.inLen.toNat s.inCap = true := by simp [hc]
    exact (if_neg hidle).trans (if_neg hfits)
  · have hover : exceedsCap s.inLen.toNat s.inCap = true := by simpa [exceedsCap, hcap] using hlt
    refine (if_neg hidle).trans ((if_pos hover).trans ?_)
    simp only [State.startReset, hcap, Option.getD_some]
    rfl

/-! ### The signature -/

theorem be_singleton (b : Byte) : be [b] = b.toNat := by simp [be]

/-- Byte sequences of one length are equal where their big-endian values are (00 R12). -/
theorem be_injective {a b : List Byte} (hlen : a.length = b.length) (h : be a = be b) : a = b := by
  induction a using List.reverseRecOn generalizing b with
  | nil => exact (List.length_eq_zero_iff.1 hlen.symm).symm
  | append_singleton a x ih =>
    obtain rfl | ⟨b, y, rfl⟩ := b.eq_nil_or_concat'
    · simp at hlen
    have hx := x.isLt
    have hy := y.isLt
    simp only [be_append, be_singleton, List.length_singleton, Nat.pow_one] at h
    have hlast : x = y := BitVec.eq_of_toNat_eq (by omega)
    rw [hlast, ih (by simpa using hlen) (by omega)]

/-- Eight bytes have the value of the signature only where they are its bytes (30 R111). -/
theorem be_eq_signature_iff (hlen : data.length = 8) :
    be data = signatureValue ↔ data = [0x89, 0x50, 0x4E, 0x47, 0x0D, 0x0A, 0x1A, 0x0A] :=
  ⟨fun h => be_injective hlen (h.trans (by decide)), fun h => h ▸ by decide⟩

/-- Settles O13: the read of 8 bytes faults first, then the comparison (40 R151). -/
theorem signatureChecked : Obligations.SignatureChecked := by
  intro s
  have hsig := be_eq_signature_iff (inBytes_length s 0 8)
  refine ⟨fun hlen hb => ?_, fun hlen => ?_, fun hlen hb => ?_⟩
  · simp only [exec, execSig, memRead_ok 0 0 8 s (by omega), Res.bind_ok, if_pos (hsig.2 hb), Res.outcome_ok]
  · simp only [exec, execSig, memRead_fault 0 0 8 s (by omega), Res.bind_raised, Res.outcome_raised]
  · simp only [exec, execSig, memRead_ok 0 0 8 s (by omega), Res.bind_ok, if_neg (mt hsig.1 hb), raiseFault_eq,
      Res.outcome_raised]

/-! ### Items and their bodies -/

/-- The state an operation leaves, passed through g. -/
def Machine.Res.mapState {α : Type} (g : State → State) : Res α → Res α
  | .ok v s => .ok v (g s)
  | .raised s => .raised (g s)

theorem Machine.Res.bind_assoc {α β γ : Type} (r : Res α) (f : α → State → Res β) (g : β → State → Res γ) :
    (r.bind f).bind g = r.bind fun v s => (f v s).bind g := by
  cases r <;> rfl

/-- The operation neither reads nor writes the cells of IN. -/
def IgnoresInput {α : Type} (f : State → Res α) : Prop :=
  ∀ s m, f { s with input := m } = (f s).mapState ({ · with input := m })

theorem IgnoresInput.bind {α β : Type} {r : State → Res α} {f : α → State → Res β} (hr : IgnoresInput r)
    (hf : ∀ v, IgnoresInput (f v)) : IgnoresInput fun s => (r s).bind f := by
  intro s m
  have e := hr s m
  cases h : r s with
  | ok v u => simp only [e, h, Res.mapState, Res.bind_ok, hf v u m]
  | raised u => simp only [e, h, Res.mapState, Res.bind_raised]

theorem IgnoresInput.fault {α : Type} (d : FaultDetail) (j k : Nat) :
    IgnoresInput (raiseFault d j k : State → Res α) := fun _ _ => rfl

theorem IgnoresInput.ite {α : Type} {c : State → Prop} [DecidablePred c] {f g : State → Res α}
    (hc : ∀ s m, c { s with input := m } ↔ c s) (hf : IgnoresInput f) (hg : IgnoresInput g) :
    IgnoresInput fun s => if c s then f s else g s := by
  intro s m
  by_cases h : c s
  · simp only [if_pos h, if_pos ((hc s m).2 h), hf s m]
  · simp only [if_neg h, if_neg (mt (hc s m).1 h), hg s m]

/-- A check before a write or a fault, on what is not IN. -/
theorem IgnoresInput.check {c : State → Prop} [DecidablePred c] {w : State → State} {d : FaultDetail} {j k : Nat}
    (hc : ∀ s m, c { s with input := m } ↔ c s) (hw : ∀ s m, w { s with input := m } = { w s with input := m }) :
    IgnoresInput fun s => if c s then .ok () (w s) else raiseFault d j k s :=
  .ite hc (fun s m => congrArg (Res.ok ()) (hw s m)) (.fault d j k)

theorem setColorType_ignoresInput (a : Nat) (ct : Byte) : IgnoresInput (setColorType a ct) := by
  unfold setColorType
  cases colorTypeOf ct with
  | none => exact .fault _ _ _
  | some c => exact .check (fun _ _ => Iff.rfl) fun _ _ => rfl

/-- The setters of IHDR look at the bytes they are given and at the bit depth alone (40 R155 to R161). -/
theorem setDescriptor_ignoresInput (a : Nat) (data : List Byte) : IgnoresInput (setDescriptor a data) := by
  have depth (bd : Byte) : IgnoresInput (setBitDepth a bd) := .check (fun _ _ => Iff.rfl) fun _ _ => rfl
  have compression (cm : Byte) : IgnoresInput (setCompression a cm) := .check (fun _ _ => Iff.rfl) fun _ _ => rfl
  have filter (fm : Byte) : IgnoresInput (setFilter a fm) := .check (fun _ _ => Iff.rfl) fun _ _ => rfl
  have interlace (im : Byte) : IgnoresInput (setInterlace a im) := .check (fun _ _ => Iff.rfl) fun _ _ => rfl
  exact .bind (fun s m => depth _ { s with width := _, height := _ } m) fun _ =>
    (setColorType_ignoresInput _ _).bind fun _ => (compression _).bind fun _ => (filter _).bind fun _ => interlace _

/-- A chunk item other than IHDR is its frame with the order check, then a body that takes the chunk from the frame and
not from IN (40 R152, R153). -/
theorem exec_chunkAfterHeader (hi : i.alphabet = .chunk) (hne : i ≠ .ihdr) :
    ∃ body : Chunk → State → Res Unit,
      (∀ s, exec i s = ((chunkAfterHeader s).bind body).outcome) ∧ ∀ c, IgnoresInput (body c) := by
  cases i <;> simp only [Instr.alphabet, reduceCtorEq] at hi
  case ihdr => exact absurd rfl hne
  case plte =>
    exact ⟨_, fun _ => rfl, fun c => .ite (fun _ _ => Iff.rfl) (.fault _ _ _) <|
      .ite (fun _ _ => Iff.rfl) (.fault _ _ _) <| .ite (fun _ _ => Iff.rfl) (.fault _ _ _) <|
      .ite (fun _ _ => Iff.rfl) (.fault _ _ _) fun _ _ => rfl⟩
  case iend => exact ⟨_, fun _ => rfl, fun c => .ite (fun _ _ => Iff.rfl) (.fault _ _ _) fun _ _ => rfl⟩
  case idat | skip => exact ⟨_, fun _ => rfl, fun _ _ _ => rfl⟩

/-- Every chunk item is its frame, then a body that takes the chunk from the frame and not from IN (40 R152). -/
theorem exec_chunkFrame (hi : i.alphabet = .chunk) :
    ∃ body : Chunk → State → Res Unit,
      (∀ s, exec i s = ((chunkFrame s).bind body).outcome) ∧ ∀ c, IgnoresInput (body c) := by
  by_cases hne : i = .ihdr
  · subst hne
    exact ⟨_, fun _ => rfl, fun c => .ite (fun _ _ => Iff.rfl) (.fault _ _ _) <|
      .ite (fun _ _ => Iff.rfl) (.fault _ _ _) <| (setDescriptor_ignoresInput _ _).bind fun _ _ _ => rfl⟩
  · obtain ⟨body, he, hb⟩ := exec_chunkAfterHeader hi hne
    exact ⟨fun c s => (if s.hdrValid then .ok c s else raiseFault .chunkOrder c.start 0 s : Res Chunk).bind body,
      fun s => by rw [he, chunkAfterHeader, Res.bind_assoc],
      fun c => .bind (.ite (fun _ _ => Iff.rfl) (fun _ _ => rfl) (.fault _ _ _)) hb⟩

/-! ### Order, truncation and the CRC -/

/-- No type but IHDR's decodes to IHDR (30 R113). -/
theorem ne_ihdr_of_decode (hd : decode .chunk type.toNat = .ok i) (ht : type ≠ chunkTypeIhdr) : i ≠ .ihdr := by
  rintro rfl
  have hv := (decode_encodes hd (by decide) (by decide)).2
  exact ht (BitVec.eq_of_toNat_eq (Option.some.inj hv).symm)

/-- Settles O20: the order check follows the frame in every item but IHDR (40 R153). -/
theorem chunkBeforeIhdrFaults : Obligations.ChunkBeforeIhdrFaults := by
  intro s n type data i h hv ht hd
  obtain ⟨body, he, -⟩ := exec_chunkAfterHeader (decode_alphabet hd) (ne_ihdr_of_decode hd ht)
  rw [he, chunkAfterHeader_order h hv, Res.bind_raised, Res.outcome_raised]

/-- A head that is cut off faults while the step reads the type, before there is an item (40 R152). -/
theorem step_of_truncatedHead (hhost : s.host = []) (hp : s.phase = .parse) (hpos : s.pos ≠ 0)
    (h : s.pos + 8 > s.inLen.toNat) : step s = .next (faulted s .truncatedInput s.pos s.pos) := by
  refine step_of_done ?_
  simp only [fetch, hhost, engineTurn, hp, if_neg hpos, readChunkType, chunkHead, memRead_fault _ _ _ _ h,
    Res.bind_raised, fetchValue]

/-- A frame that raises a fault ends the item with it. -/
theorem exec_of_chunkFrame_raised {u : State} (hi : i.alphabet = .chunk) (h : chunkFrame s = .raised u) :
    exec i s = .next u := by
  obtain ⟨body, he, -⟩ := exec_chunkFrame hi
  rw [he, h, Res.bind_raised, Res.outcome_raised]

theorem ChunkAt.whole_length (h : ChunkAt s n type data) : s.pos + 12 + be (s.inBytes s.pos 4) ≤ s.inLen.toNat :=
  h.length_eq ▸ h.whole

/-- Settles O21: of the three reads of a frame the first that is not whole faults (40 R152). -/
theorem truncatedChunkFaults : Obligations.TruncatedChunkFaults := by
  intro s i hhost hp hpos
  refine ⟨step_of_truncatedHead hhost hp hpos, fun hi hhead hdata => exec_of_chunkFrame_raised hi ?data,
    fun hi hdata hcrc => exec_of_chunkFrame_raised hi ?crc⟩
  case data =>
    rcases chunkFrame_cases s with ⟨_, _, _, h, -⟩ | ⟨hlt, -⟩ | ⟨-, -, e⟩ | ⟨hle, -, -⟩
    · exact absurd h.whole_length (by omega)
    · exact absurd hlt (by omega)
    · exact e
    · exact absurd hle (by omega)
  case crc =>
    rcases chunkFrame_cases s with ⟨_, _, _, h, -⟩ | ⟨hlt, -⟩ | ⟨-, hlt, -⟩ | ⟨-, -, e⟩
    · exact absurd h.whole_length (by omega)
    · exact absurd hlt (by omega)
    · exact absurd hlt (by omega)
    · exact e

/-- A chunk stands where it stood when no byte of its head and data changes (40 R152). -/
theorem ChunkAt.setInput (h : ChunkAt s n type data) {m : Memory}
    (hm : ∀ a, a < s.pos + 8 + n → ({ s with input := m } : State).inByte a = s.inByte a) :
    ChunkAt { s with input := m } n type data where
  whole := h.whole
  length_eq := by rw [← h.length_eq]; exact congrArg be (inBytes_congr s _ s.pos 4 fun k _ hk => hm k (by omega))
  type_eq := by rw [← h.type_eq]; exact congrArg be (inBytes_congr s _ (s.pos + 4) 4 fun k _ hk => hm k (by omega))
  data_eq := by rw [← h.data_eq]; exact inBytes_congr _ _ _ _ fun k _ hk => hm k hk

/-- Settles O22: the frame hands the same chunk to a body that does not look at IN (40 R167). -/
theorem crcBytesAreIgnored : Obligations.CrcBytesAreIgnored := by
  intro s m i n type data hi h hm
  obtain ⟨body, he, hb⟩ := exec_chunkFrame hi
  have h' : ChunkAt { s with input := m } n type data := h.setInput fun a ha => hm a (.inl ha)
  have hbody := hb ⟨s.pos, n, type, data⟩ { s with pos := s.pos + 12 + n } m
  rw [he, he, chunkFrame_ok h, chunkFrame_ok h', Res.bind_ok, Res.bind_ok]
  dsimp only at hbody ⊢
  rw [hbody]
  cases body ⟨s.pos, n, type, data⟩ { s with pos := s.pos + 12 + n } with
  | ok v t => exact ⟨t, rfl, rfl⟩
  | raised t => exact ⟨t, rfl, rfl⟩

end Sys2Proof
end

section
/-! The chunks by type: IHDR and its fields, PLTE, IDAT, IEND and SKIP. -/

namespace Sys2Proof

open Sys2Proof.Machine

variable {s : State} {n : Nat} {type : BitVec 32} {data : List Byte}

/-! ### IHDR -/

theorem ChunkAt.data_length (h : ChunkAt s n type data) : data.length = n := by
  rw [← h.data_eq, inBytes_length]

/-- Four bytes of a field, one by one (30 R114). -/
theorem take_four_drop {k : Nat} (h : k + 4 ≤ data.length) :
    (data.drop k).take 4 = [byteAt data k, byteAt data (k + 1), byteAt data (k + 2), byteAt data (k + 3)] := by
  have cons (j : Nat) (hj : j < data.length) : data.drop j = byteAt data j :: data.drop (j + 1) := by
    rw [List.drop_eq_getElem_cons hj, byteAt, List.getD_eq_getElem _ _ hj]
  rw [cons k (by omega), cons (k + 1) (by omega), cons (k + 2) (by omega), cons (k + 3) (by omega)]
  rfl

/-- The first two checks of IHDR, then the setters (40 R154). -/
theorem exec_ihdr (h : ChunkAt s n type data) :
    exec .ihdr s = (if s.hdrValid then .raised (faulted { s with pos := s.pos + 12 + n } .chunkOrder s.pos 0)
      else if n ≠ 13 then .raised (faulted { s with pos := s.pos + 12 + n } .invalidField s.pos 7)
      else (setDescriptor s.pos data { s with pos := s.pos + 12 + n }).bind fun _ u =>
        .ok () { u with hdrValid := true, phase := if u.headerOnly then .doneHeader else u.phase } :
      Res Unit).outcome := by
  simp only [exec, execIhdr, chunkFrame_ok h, Res.bind_ok, raiseFault_eq]

theorem setColorType_ok {a : Nat} {b : Byte} {ct : ColorType} (hc : colorTypeOf b = some ct)
    (hd : depthAllowed ct s.bitDepth = true) : setColorType a b s = .ok () { s with colorType := ct } := by
  simp only [setColorType, hc, if_pos hd]

/-- Colour types outside the five, and those the bit depth does not go with, fault alike (40 R158). -/
theorem setColorType_fault {a : Nat} {b : Byte}
    (h : ¬ ∃ ct, colorTypeOf b = some ct ∧ depthAllowed ct s.bitDepth = true) :
    setColorType a b s = .raised (faulted s .invalidField a 3) := by
  unfold setColorType
  cases hc : colorTypeOf b with
  | none => rfl
  | some ct => exact if_neg fun hd => h ⟨ct, hc, hd⟩

/-- A depth some colour type goes with is one of the depths (40 R157, R158). -/
theorem bitDepthLegal_of_allowed {ct : ColorType} {bd : Byte} (h : depthAllowed ct bd = true) :
    bitDepthLegal bd = true := by
  cases ct <;> simp only [depthAllowed, bitDepthLegal, Bool.or_eq_true] at h ⊢ <;> tauto

/-- The setters on seven legal fields (40 R155 to R161). -/
theorem setDescriptor_ok {a : Nat} {ct : ColorType} (hlen : data.length = 13)
    (hc : colorTypeOf (byteAt data 9) = some ct) (hd : depthAllowed ct (byteAt data 8) = true)
    (hcm : byteAt data 10 = 0) (hfm : byteAt data 11 = 0) (him : byteAt data 12 = 0 ∨ byteAt data 12 = 1) :
    setDescriptor a data s = .ok () { s with
      width := BitVec.ofNat 32 (be [byteAt data 0, byteAt data 1, byteAt data 2, byteAt data 3])
      height := BitVec.ofNat 32 (be [byteAt data 4, byteAt data 5, byteAt data 6, byteAt data 7])
      bitDepth := byteAt data 8, colorType := ct, compression := 0, filter := 0, interlace := byteAt data 12 } := by
  have hw := take_four_drop (data := data) (k := 0) (by omega)
  have hh := take_four_drop (data := data) (k := 4) (by omega)
  rw [List.drop_zero] at hw
  simp only [setDescriptor, setBitDepth, bitDepthLegal_of_allowed hd, setColorType_ok hc, hd, setCompression, hcm,
    setFilter, hfm, setInterlace, him, Res.bind_ok, reduceIte, hw, hh, Nat.reduceAdd]

/-- Settles O14: the frame, the two checks and the setters of IHDR all go on. -/
theorem ihdrAcceptsHeader : Obligations.IhdrAcceptsHeader := by
  intro s data ct h hv _ hc hd hcm hfm him
  rw [exec_ihdr h, if_neg (by simp [hv]), if_neg (by simp),
    setDescriptor_ok h.data_length hc hd hcm hfm him]
  rfl

/-- A setter of IHDR has refused field k of the chunk at a, in a state reached from s: what was set before it stays. -/
structure FieldRefused (s : State) (a k : Nat) (t : State) : Prop where
  phase : t.phase = .error
  err : t.err = some ⟨.invalidField, a, k⟩
  hdrValid : t.hdrValid = s.hdrValid
  pos : t.pos = s.pos

/-- Each setter is reached only where the fields before it are legal (40 R155 to R161). -/
theorem setDescriptor_refuses (s : State) (a : Nat) (data : List Byte) :
    let combined := ∃ ct, colorTypeOf (byteAt data 9) = some ct ∧ depthAllowed ct (byteAt data 8) = true
    let refusesAt := fun k => (setDescriptor a data s).Ends (fun _ => False) (FieldRefused s a k)
    (¬ bitDepthLegal (byteAt data 8) = true → refusesAt 2) ∧
    (bitDepthLegal (byteAt data 8) = true → ¬ combined → refusesAt 3) ∧
    (combined → byteAt data 10 ≠ 0 → refusesAt 4) ∧
    (combined → byteAt data 10 = 0 → byteAt data 11 ≠ 0 → refusesAt 5) ∧
    (combined → byteAt data 10 = 0 → byteAt data 11 = 0 → byteAt data 12 ≠ 0 → byteAt data 12 ≠ 1 → refusesAt 6) := by
  dsimp only [setDescriptor, setBitDepth]
  refine ⟨fun hbd => ?_, fun hbd hct => ?_, fun ⟨ct, hc, hd⟩ hcm => ?_, fun ⟨ct, hc, hd⟩ hcm hfm => ?_,
    fun ⟨ct, hc, hd⟩ hcm hfm h0 h1 => ?_⟩
  · rw [if_neg hbd]
    exact ⟨rfl, rfl, rfl, rfl⟩
  · rw [if_pos hbd, Res.bind_ok, setColorType_fault hct]
    exact ⟨rfl, rfl, rfl, rfl⟩
  all_goals rw [if_pos (bitDepthLegal_of_allowed hd), Res.bind_ok, setColorType_ok hc hd, Res.bind_ok, setCompression]
  · rw [if_neg hcm]
    exact ⟨rfl, rfl, rfl, rfl⟩
  · rw [if_pos hcm, Res.bind_ok, setFilter, if_neg hfm]
    exact ⟨rfl, rfl, rfl, rfl⟩
  · rw [if_pos hcm, Res.bind_ok, setFilter, if_pos hfm, Res.bind_ok, setInterlace, if_neg (not_or.2 ⟨h0, h1⟩)]
    exact ⟨rfl, rfl, rfl, rfl⟩

/-- A first IHDR of 13 bytes ends where its setters refuse a field (40 R154). -/
theorem exec_ihdr_refused {k : Nat} (h : ChunkAt s n type data) (hv : s.hdrValid = false) (hn : n = 13)
    (hr : (setDescriptor s.pos data { s with pos := s.pos + 12 + n }).Ends (fun _ => False)
      (FieldRefused { s with pos := s.pos + 12 + n } s.pos k)) :
    ∃ t, exec .ihdr s = .next t ∧ t.phase = .error ∧ t.err = some ⟨.invalidField, s.pos, k⟩ ∧ t.hdrValid = false ∧
      t.pos = s.pos + 12 + n := by
  rw [exec_ihdr h, if_neg (by simp [hv]), if_neg (by simp [hn])]
  generalize setDescriptor s.pos data { s with pos := s.pos + 12 + n } = r at hr ⊢
  cases r with
  | ok v u => exact absurd hr id
  | raised u =>
    obtain ⟨hphase, herr, hvalid, hpos⟩ := hr
    exact ⟨u, rfl, hphase, herr, hvalid.trans hv, hpos⟩

/-- Settles O15: the two checks of IHDR in turn, then the setter that refuses its field. -/
theorem ihdrRejectsFields : Obligations.IhdrRejectsFields := by
  intro s n data h
  obtain ⟨depth, colour, compression, filter, interlace⟩ :=
    setDescriptor_refuses { s with pos := s.pos + 12 + n } s.pos data
  have refused {k : Nat} (hv : s.hdrValid = false) (hn : n = 13) := exec_ihdr_refused (k := k) h hv hn
  refine ⟨fun hv => ?_, fun hv hn => ?_, fun hv hn hbd => refused hv hn (depth hbd),
    fun hv hn hbd hct => refused hv hn (colour hbd hct), fun hv hn hct hcm => refused hv hn (compression hct hcm),
    fun hv hn hct hcm hfm => refused hv hn (filter hct hcm hfm),
    fun hv hn hct hcm hfm h0 h1 => refused hv hn (interlace hct hcm hfm h0 h1)⟩
  · rw [exec_ihdr h, if_pos hv, Res.outcome_raised]
  · rw [exec_ihdr h, if_neg (by simp [hv]), if_pos hn, Res.outcome_raised]

/-! ### The chunks after IHDR -/

/-- The checks of PLTE in turn (40 R163). -/
theorem exec_plte (h : ChunkAt s n type data) (hv : s.hdrValid = true) :
    let moved := { s with pos := s.pos + 12 + n }
    exec .plte s = (if s.pal.isSome then .raised (faulted moved .chunkOrder s.pos 0)
      else if s.colorType ≠ .palette then .raised (faulted moved .invalidPalette s.pos 0)
      else if n % 3 ≠ 0 then .raised (faulted moved .invalidPalette s.pos 1)
      else if n > 2 ^ s.bitDepth.toNat * 3 then .raised (faulted moved .invalidPalette s.pos 2)
      else .ok () { moved with pal := some (paletteEntries data) } : Res Unit).outcome := by
  simp only [exec, execPlte, chunkAfterHeader_ok h hv, Res.bind_ok, raiseFault_eq]
  rfl

/-- Settles O16: the checks in turn, then the entries of three bytes each. -/
theorem plteAcceptsPalette : Obligations.PlteAcceptsPalette := by
  intro s n data h hv
  dsimp only
  rw [exec_plte h hv]
  have hlen := h.data_length
  refine ⟨fun hp => ?_, fun hp hct => ?_, fun hp hct h3 => ?_, fun hp hct h3 hover => ?_, fun hp hct h3 hle => ?_⟩
  · rw [if_pos (Option.isSome_iff_ne_none.2 hp), Res.outcome_raised]
  all_goals rw [if_neg (by simp [hp])]
  · rw [if_pos hct, Res.outcome_raised]
  all_goals rw [if_neg (not_not.2 hct)]
  · rw [if_pos h3, Res.outcome_raised]
  all_goals rw [if_neg (not_not.2 h3)]
  · rw [if_pos hover, Res.outcome_raised]
  · rw [if_neg (Nat.not_lt.2 hle)]
    exact ⟨_, rfl, paletteEntries_spec (n / 3) data (by omega)⟩

/-- Settles O17: the order check passes and the data goes to Z whatever its length (40 R164). -/
theorem idatAppendsData : Obligations.IdatAppendsData := by
  intro s n data h hv
  simp only [exec, execIdat, chunkAfterHeader_ok h hv, Res.bind_ok, Res.outcome_ok]

/-- The one check of IEND (40 R165). -/
theorem exec_iend (h : ChunkAt s n type data) (hv : s.hdrValid = true) :
    let moved := { s with pos := s.pos + 12 + n }
    exec .iend s = (if s.colorType = .palette ∧ s.pal.isSome = false then
        .raised (faulted moved .invalidPalette s.pos 3)
      else .ok () { moved with phase := .inflate, ist := .zhdr, bitPos := 0 } : Res Unit).outcome := by
  simp only [exec, execIend, chunkAfterHeader_ok h hv, Res.bind_ok, raiseFault_eq]
  rfl

/-- Settles O18: a palette may be missing only from an image of another colour type (40 R165). -/
theorem iendEndsParse : Obligations.IendEndsParse := by
  intro s n data h hv
  dsimp only
  rw [exec_iend h hv]
  refine ⟨fun hp => ?_, fun hct hp => ?_⟩
  · have hnot : ¬ (s.colorType = .palette ∧ s.pal.isSome = false) := by simpa [imp_iff_not_or] using hp
    rw [if_neg hnot, Res.outcome_ok]
  · rw [if_pos ⟨hct, by simp [hp]⟩, Res.outcome_raised]

/-- Settles O19: SKIP is the frame with the order check and no more (40 R166). -/
theorem skipMovesCursorOnly : Obligations.SkipMovesCursorOnly := by
  intro s n type data _ h hv
  simp only [exec, execSkip, chunkAfterHeader_ok h hv, Res.bind_ok, Res.outcome_ok]

end Sys2Proof
end

section
/-! The decode tables: the code of each symbol in closed form (41 R207), where the codes lie in the code space, and what
that makes of the entries of a table. -/

namespace Sys2Proof

open Sys2Proof.Machine

variable {lengths : List Nat} {l s c i : Nat} {e : CodeEntry}

/-! ### Every code has its own place -/

theorem assignCodes_length (h : (e, c) ∈ assignCodes lengths) : 1 ≤ e.length ∧ e.length ≤ maxLength lengths := by
  obtain ⟨h1, h2, -⟩ := assignFrom_mem h
  omega

/-- Every symbol with a length has a code (41 R207). -/
theorem assignCodes_complete (hs : lengths[s]? = some l) (hl : 1 ≤ l) : ∃ c, (⟨l, s⟩, c) ∈ assignCodes lengths := by
  have := le_maxLength (List.mem_of_getElem? hs)
  exact assignFrom_complete hs hl (by omega)

/-- The intervals of an array that is not over-subscribed lie within the code space (41 R206, R207). -/
theorem assignCodes_interval (hk : overSubscribed lengths = false) (h : (e, c) ∈ assignCodes lengths) :
    (c + 1) * 2 ^ (maxLength lengths - e.length) ≤ 2 ^ maxLength lengths := by
  have hkraft : kraftSum (maxLength lengths) lengths ≤ 2 ^ maxLength lengths := by simpa [overSubscribed] using hk
  obtain ⟨-, hend⟩ := assignFrom_interval (Nat.add_comm _ _) h
  rw [kraftFrom_one _ _ fun _ => le_maxLength, Nat.zero_mul, Nat.zero_add] at hend
  exact hend.trans hkraft

/-- A code fits its length. -/
theorem assignCodes_lt (hk : overSubscribed lengths = false) (h : (e, c) ∈ assignCodes lengths) : c < 2 ^ e.length := by
  have hend := assignCodes_interval hk h
  rw [← Nat.add_sub_of_le (assignCodes_length h).2, Nat.pow_add, Nat.add_sub_cancel_left] at hend
  exact Nat.le_of_mul_le_mul_right hend (Nat.two_pow_pos _)

/-- The interval of one code ends where or before that of another begins (41 R207). -/
def CodeBefore (M : Nat) (x y : CodeEntry × Nat) : Prop :=
  (x.2 + 1) * 2 ^ (M - x.1.length) ≤ y.2 * 2 ^ (M - y.1.length)

theorem assignCodes_disjoint {x y : CodeEntry × Nat} (hx : x ∈ assignCodes lengths) (hy : y ∈ assignCodes lengths)
    (hne : x ≠ y) : CodeBefore (maxLength lengths) x y ∨ CodeBefore (maxLength lengths) y x := by
  have hall : (assignCodes lengths).Pairwise (CodeBefore (maxLength lengths)) := assignFrom_pairwise (Nat.add_comm _ _)
  obtain ⟨j, hj, rfl⟩ := List.getElem_of_mem hx
  obtain ⟨k, hk, rfl⟩ := List.getElem_of_mem hy
  rw [List.pairwise_iff_getElem] at hall
  rcases Nat.lt_trichotomy j k with h | rfl | h
  · exact .inl (hall j k hj hk h)
  · exact absurd rfl hne
  · exact .inr (hall k j hk hj h)

/-- A code and a longer one that begins with it share a part of the code space. -/
theorem not_codeBefore_of_prefix {e' : CodeEntry} {c' M : Nat} (hle : e.length ≤ e'.length) (hM : e'.length ≤ M)
    (hc : c = c' / 2 ^ (e'.length - e.length)) : ¬ CodeBefore M (e, c) (e', c') ∧ ¬ CodeBefore M (e', c') (e, c) := by
  have hlow : c * 2 ^ (e'.length - e.length) ≤ c' := hc ▸ Nat.div_mul_le_self _ _
  have hhigh : c' < (c + 1) * 2 ^ (e'.length - e.length) :=
    hc ▸ Nat.lt_mul_of_div_lt (Nat.lt_succ_self _) (Nat.two_pow_pos _)
  have hsplit : 2 ^ (M - e.length) = 2 ^ (e'.length - e.length) * 2 ^ (M - e'.length) := by
    rw [← Nat.pow_add]; congr 1; omega
  simp only [CodeBefore, hsplit, ← Nat.mul_assoc, Nat.not_le]
  exact ⟨Nat.mul_lt_mul_of_pos_right hhigh (Nat.two_pow_pos _),
    Nat.mul_lt_mul_of_pos_right (Nat.lt_succ_of_le hlow) (Nat.two_pow_pos _)⟩

/-- An index matches one code only: of two, the shorter would be the head of the longer (41 R208). -/
theorem assignCodes_matches_unique {x y : CodeEntry × Nat} (hk : overSubscribed lengths = false)
    (hx : x ∈ assignCodes lengths) (hy : y ∈ assignCodes lengths) (hxi : matchesIndex i x) (hyi : matchesIndex i y) :
    x = y := by
  wlog hle : x.1.length ≤ y.1.length generalizing x y
  · exact (this hy hx hyi hxi (Nat.le_of_not_le hle)).symm
  have hhead := prefix_of_same_index hle (assignCodes_lt hk hx) (assignCodes_lt hk hy) hxi hyi
  obtain ⟨hxy, hyx⟩ := not_codeBefore_of_prefix hle (assignCodes_length hy).2 hhead
  by_contra hne
  exact (assignCodes_disjoint hx hy hne).elim hxy hyx

/-! ### Entries -/

@[simp] theorem huffTable_maxLen (lengths : List Nat) : (huffTable lengths).maxLen = maxLength lengths := rfl

/-- An index that matches a code holds its entry. -/
theorem huffTable_entry_of_code (hk : overSubscribed lengths = false) (h : (e, c) ∈ assignCodes lengths)
    (hi : i < 2 ^ (huffTable lengths).maxLen) (hm : matchesIndex i (e, c)) :
    (huffTable lengths).entries[i]? = some (some e) := by
  obtain ⟨e', he'⟩ := entryAt_isSome h hm
  obtain ⟨c', h', hm'⟩ := entryAt_some he'
  obtain ⟨rfl, -⟩ := Prod.mk.inj (assignCodes_matches_unique hk h h' hm hm')
  rw [huffTable_entry _ _ hi, he']

/-- Settles O27: the code exists and fits, and no other code matches an index that it matches. -/
theorem canonicalCodesDecode : Obligations.CanonicalCodesDecode := by
  intro lengths hk s l hs hl
  obtain ⟨c, hc⟩ := assignCodes_complete hs hl
  exact ⟨c, hc, assignCodes_lt hk hc, fun i hi hm => huffTable_entry_of_code hk hc hi hm⟩

/-- Settles O26: an entry that is not empty was written by a code that matches its index. -/
theorem tableEntriesAreCodes : Obligations.TableEntriesAreCodes := by
  intro lengths
  refine ⟨huffTable_size lengths, fun i e hi => ?_⟩
  have hlt : i < 2 ^ (huffTable lengths).maxLen := by
    rw [← huffTable_size]
    exact (List.getElem?_eq_some_iff.1 hi).1
  rw [huffTable_entry _ _ hlt, Option.some.injEq] at hi
  obtain ⟨c, hc, hm⟩ := entryAt_some hi
  obtain ⟨h1, h2⟩ := assignCodes_length hc
  obtain ⟨-, -, hsym⟩ := assignFrom_mem hc
  exact ⟨hsym, h1, h2, c, hc, hm⟩

/-! ### The code of a symbol -/

/-- The first code of a length: twice the next code after those one shorter (41 R207). -/
def firstCode (lengths : List Nat) : Nat → Nat
  | 0 | 1 => 0
  | l + 2 => 2 * (firstCode lengths (l + 1) + lengths.count (l + 1))

theorem firstCode_succ (h : 1 ≤ l) : firstCode lengths (l + 1) = 2 * (firstCode lengths l + lengths.count l) := by
  obtain ⟨k, rfl⟩ := Nat.exists_eq_add_of_le' h
  rfl

/-- Within one length the codes count the symbols of that length. -/
theorem assignLength_code {len symbol code : Nat} (h : lengths[s]? = some len) :
    (⟨len, symbol + s⟩, code + (lengths.take s).count len) ∈ (assignLength len lengths symbol code).1 := by
  induction lengths generalizing s symbol code with
  | nil => simp at h
  | cons x rest ih =>
    rw [assignLength]
    cases s with
    | zero =>
      obtain rfl : x = len := by simpa using h
      simp
    | succ s =>
      rw [List.getElem?_cons_succ] at h
      have step (c : Nat) := ih (symbol := symbol + 1) (code := c) h
      rw [List.take_succ_cons, show symbol + (s + 1) = symbol + 1 + s by omega]
      split
      · next hx =>
        rw [hx, List.count_cons_self, ← Nat.add_assoc code, Nat.add_right_comm code]
        exact List.mem_cons_of_mem _ (step (code + 1))
      · next hx =>
        rw [List.count_cons_of_ne hx]
        exact step code

theorem assignFrom_code {n len : Nat} (h1 : 1 ≤ len) (hs : lengths[s]? = some l) (hl : len ≤ l) (hn : l < len + n) :
    (⟨l, s⟩, firstCode lengths l + (lengths.take s).count l) ∈ assignFrom lengths n len (firstCode lengths len) := by
  induction n generalizing len with
  | zero => omega
  | succ n ih =>
    rw [assignFrom, List.mem_append]
    rcases hl.eq_or_lt with rfl | hlt
    · have := assignLength_code (symbol := 0) (code := firstCode lengths len) hs
      exact .inl (by simpa using this)
    · rw [assignLength_next, ← firstCode_succ h1]
      exact .inr (ih (by omega) hlt (by omega))

/-- The canonical code of a symbol (41 R207). -/
theorem assignCodes_code (hs : lengths[s]? = some l) (hl : 1 ≤ l) :
    (⟨l, s⟩, firstCode lengths l + (lengths.take s).count l) ∈ assignCodes lengths := by
  have := le_maxLength (List.mem_of_getElem? hs)
  exact assignFrom_code (Nat.le_refl 1) hs hl (by omega)

/-! ### Complete arrays -/

/-- Every code of the run of a length is given to a symbol. -/
theorem assignLength_covers {len symbol code : Nat} (h1 : code ≤ c) (h2 : c < code + lengths.count len) :
    ∃ e, (e, c) ∈ (assignLength len lengths symbol code).1 := by
  induction lengths generalizing symbol code with
  | nil => simp at h2; omega
  | cons x rest ih =>
    rw [assignLength]
    split
    · next hx =>
      rw [hx, List.count_cons_self] at h2
      rcases h1.eq_or_lt with rfl | hlt
      · exact ⟨_, List.mem_cons_self⟩
      · obtain ⟨e, he⟩ := ih (symbol := symbol + 1) hlt (by omega)
        exact ⟨e, List.mem_cons_of_mem _ he⟩
    · next hx => exact ih h1 (List.count_cons_of_ne hx ▸ h2)

theorem kraftFrom_beyond {M len : Nat} (h : M < len) (ls : List Nat) : kraftFrom M len ls = 0 := by
  induction ls with
  | nil => rfl
  | cons x rest ih => rw [kraftFrom, ih, if_neg (by omega)]

/-- The intervals of the codes leave no gap: a point of the part of the code space that the lengths from `len` on take
up has a code at its head. -/
theorem assignFrom_covers {n len code M v : Nat} (hM : len + n = M + 1) (h1 : code * 2 ^ (M - len) ≤ v)
    (h2 : v < code * 2 ^ (M - len) + kraftFrom M len lengths) :
    ∃ e, (e, v / 2 ^ (M - e.length)) ∈ assignFrom lengths n len code := by
  induction n generalizing len code with
  | zero =>
    rw [kraftFrom_beyond (by omega)] at h2
    omega
  | succ n ih =>
    simp only [assignFrom, assignLength_next, List.mem_append]
    rw [kraftFrom_step M len lengths (by omega), ← Nat.add_assoc, ← Nat.add_mul] at h2
    by_cases hv : v < (code + lengths.count len) * 2 ^ (M - len)
    · obtain ⟨e, he⟩ := assignLength_covers (symbol := 0) ((Nat.le_div_iff_mul_le (Nat.two_pow_pos _)).2 h1)
        (Nat.div_lt_of_lt_mul (Nat.mul_comm _ _ ▸ hv))
      exact ⟨e, .inl ((assignLength_mem he).1 ▸ he)⟩
    · have hlen : len < M := by
        by_contra hge
        rw [kraftFrom_beyond (by omega)] at h2
        omega
      have hnext : 2 * (code + lengths.count len) * 2 ^ (M - (len + 1)) =
          (code + lengths.count len) * 2 ^ (M - len) := by
        rw [show M - len = (M - (len + 1)) + 1 by omega, Nat.pow_succ]; ring
      obtain ⟨e, he⟩ := ih (by omega) (hnext ▸ Nat.le_of_not_lt hv) (hnext ▸ h2)
      exact ⟨e, .inr he⟩

/-- The low bits of an index are the reversal of the high bits of its own reversal. -/
theorem mod_eq_revBits_div {M : Nat} (hl : l ≤ M) : i % 2 ^ l = revBits l (revBits M i / 2 ^ (M - l)) := by
  apply Nat.eq_of_testBit_eq
  intro j
  rw [Nat.testBit_mod_two_pow]
  by_cases hj : j < l
  · rw [revBits_testBit _ _ _ hj, Nat.testBit_div_two_pow, revBits_testBit _ _ _ (by omega),
      show M - 1 - (l - 1 - j + (M - l)) = j by omega]
    simp [hj]
  · rw [Nat.testBit_lt_two_pow ((revBits_lt _ _).trans_le (Nat.pow_le_pow_right (by omega) (Nat.le_of_not_lt hj)))]
    simp [hj]

/-- A complete array, one whose Kraft sum is the whole code space, leaves no entry empty (41 R209). -/
theorem huffTable_full (hk : kraftSum (maxLength lengths) lengths = 2 ^ maxLength lengths) :
    ∀ e ∈ (huffTable lengths).entries, e ≠ none := by
  intro e he
  obtain ⟨i, hi, rfl⟩ := List.mem_map.1 (show e ∈ List.map _ (List.range _) from he)
  obtain ⟨e, hcode⟩ := assignFrom_covers (lengths := lengths) (n := maxLength lengths) (code := 0)
    (v := revBits (maxLength lengths) i) (Nat.add_comm _ _) (by omega) (by
      rw [kraftFrom_one _ _ fun _ => le_maxLength, hk, Nat.zero_mul, Nat.zero_add]
      exact revBits_lt _ _)
  obtain ⟨e', he'⟩ := entryAt_isSome (i := i) hcode (mod_eq_revBits_div (assignCodes_length hcode).2)
  exact he' ▸ Option.some_ne_none e'

/-! ### The fixed tables -/

theorem kraftSum_append (M : Nat) (a b : List Nat) : kraftSum M (a ++ b) = kraftSum M a + kraftSum M b := by
  induction a with
  | nil => simp [kraftSum]
  | cons x rest ih => rw [List.cons_append, kraftSum, kraftSum, ih, Nat.add_assoc]

theorem kraftSum_replicate (M n l : Nat) (hl : 1 ≤ l) : kraftSum M (List.replicate n l) = n * 2 ^ (M - l) := by
  induction n with
  | zero => simp [kraftSum]
  | succ n ih => rw [List.replicate_succ, kraftSum, ih, if_neg (by omega), Nat.succ_mul, Nat.add_comm]

theorem maxLength_fixedLit : maxLength fixedLitLengths = 9 := by
  refine Nat.le_antisymm (maxLength_le fun l hl => ?_) (le_maxLength ?_)
  · simp only [fixedLitLengths, List.mem_append, List.mem_replicate, -List.reduceReplicate] at hl
    omega
  · simp [fixedLitLengths, -List.reduceReplicate]

theorem kraftSum_fixedLit : kraftSum 9 fixedLitLengths = 2 ^ 9 := by
  simp [fixedLitLengths, kraftSum_append, kraftSum_replicate, -List.reduceReplicate]

theorem maxLength_fixedDist : maxLength fixedDistLengths = 5 := by decide

theorem kraftSum_fixedDist : kraftSum 5 fixedDistLengths = 2 ^ 5 := by decide

/-- The first codes of the three lengths of the fixed literal/length code: 0000000, 00110000 and 110010000 (41 R212). -/
theorem firstCode_fixedLit :
    firstCode fixedLitLengths 7 = 0 ∧ firstCode fixedLitLengths 8 = 48 ∧ firstCode fixedLitLengths 9 = 400 := by
  simp [firstCode, fixedLitLengths, List.count_replicate, -List.reduceReplicate]

theorem count_take_fixedLit : (fixedLitLengths.take 97).count 8 = 97 ∧ (fixedLitLengths.take 256).count 7 = 0 ∧
    (fixedLitLengths.take 255).count 9 = 111 := by
  simp [fixedLitLengths, List.take_append, List.count_replicate, -List.reduceReplicate]

/-- The entries of FIXED_LIT: an index that begins with the code of a symbol, reversed, holds it (41 R212). -/
theorem fixedLit_entry {first before : Nat} (hs : fixedLitLengths[s]? = some l) (hl : 1 ≤ l)
    (hf : firstCode fixedLitLengths l = first) (hb : (fixedLitLengths.take s).count l = before) (hi : i < 512)
    (hm : i % 2 ^ l = revBits l (first + before)) : fixedLit.entries[i]? = some (some ⟨l, s⟩) := by
  subst hf hb
  exact huffTable_entry_of_code (by simp [overSubscribed, maxLength_fixedLit, kraftSum_fixedLit])
    (assignCodes_code hs hl) (by simpa [maxLength_fixedLit] using hi) hm

/-- The entries of FIXED_DIST: all codes have 5 bits, so an index holds the symbol that is its reversal (41 R212). -/
theorem fixedDist_entry (hi : i < 32) : fixedDist.entries[i]? = some (some ⟨5, revBits 5 i⟩) := by
  have hcode : ∀ i, i < 32 → fixedDistLengths[revBits 5 i]? = some 5 ∧
      i % 2 ^ 5 = revBits 5 (firstCode fixedDistLengths 5 + (fixedDistLengths.take (revBits 5 i)).count 5) := by decide
  obtain ⟨hs, hm⟩ := hcode i hi
  exact huffTable_entry_of_code (by simp [overSubscribed, maxLength_fixedDist, kraftSum_fixedDist])
    (assignCodes_code hs (by omega)) (by simpa [maxLength_fixedDist] using hi) hm

theorem fixedLitLengths_getElem? (hs : s < 288) :
    fixedLitLengths[s]? = some (if s ≤ 143 then 8 else if s ≤ 255 then 9 else if s ≤ 279 then 7 else 8) := by
  simp only [fixedLitLengths, List.getElem?_append, List.getElem?_replicate, List.length_append, List.length_replicate,
    -List.reduceReplicate]
  grind

/-- Settles O28: both arrays are complete, and the entries listed are those of the closed form of their codes. -/
theorem fixedTableEntries : Obligations.FixedTableEntries := by
  obtain ⟨first7, first8, first9⟩ := firstCode_fixedLit
  obtain ⟨before97, before256, before255⟩ := count_take_fixedLit
  refine ⟨⟨fixedLitLengths, rfl, ?_, fun s => fixedLitLengths_getElem?⟩, rfl, ?_, ?_, huffTable_full ?_, ?_, ?_,
    huffTable_full ?_, fun i => fixedDist_entry, ?_, ?_, fun k hk => ?_, ?_⟩
  · simp [fixedLitLengths, -List.reduceReplicate]
  · rw [fixedLit, huffTable_maxLen, maxLength_fixedLit]
  · rw [fixedLit, huffTable_size, huffTable_maxLen, maxLength_fixedLit]
    rfl
  · rw [maxLength_fixedLit, kraftSum_fixedLit]
  · rw [fixedDist, huffTable_maxLen, maxLength_fixedDist]
  · rw [fixedDist, huffTable_size, huffTable_maxLen, maxLength_fixedDist]
    rfl
  · rw [maxLength_fixedDist, kraftSum_fixedDist]
  · exact fixedLit_entry (by decide) (by decide) first8 before97 (by decide) (by decide)
  · exact fixedLit_entry (by decide) (by decide) first8 before97 (by decide) (by decide)
  · exact fixedLit_entry (by decide) (by decide) first7 before256 (by omega) (by revert k; decide)
  · exact fixedLit_entry (by decide) (by decide) first9 before255 (by decide) (by decide)

end Sys2Proof
end

section
/-! The bit reader: what GetBits, PeekBits and AlignToByte answer, bit by bit (41 R200 to R203). -/

namespace Sys2Proof

open Sys2Proof.Machine

/-- Within Z a bit is that of its byte, the least significant first (41 R200). -/
theorem bitZ_within {z : List Byte} {k : Nat} (h : k < 8 * z.length) :
    bitZ z k = (byteAt z (k / 8)).toNat / 2 ^ (k % 8) % 2 := if_pos h

/-- Settles O23: the value is the bits from the cursor on, each of them within Z. -/
theorem getBitsReadsInOrder : Obligations.GetBitsReadsInOrder := by
  intro n s
  refine ⟨fun h => ⟨_, getBits_ok n s h, bitsAt_lt _ _ _, fun i hi => ?_⟩, getBits_fault n s, getBits_ok 0 s⟩
  rw [bitsAt_bit _ _ _ _ hi, bitZ_within (by omega)]

/-- Settles O24: the value is the bits from the cursor on, those past the end of Z 0. -/
theorem peekBitsPadsWithZeros : Obligations.PeekBitsPadsWithZeros :=
  fun _ _ => ⟨bitsAt_lt _ _ _, fun _ hi => bitsAt_bit _ _ _ _ hi⟩

/-- Settles O25: the end of Z is itself a multiple of 8. -/
theorem alignSkipsToByte : Obligations.AlignSkipsToByte := by
  intro s h
  refine ⟨_, rfl, ?_, ?_, ?_, ?_⟩ <;> omega

end Sys2Proof
end

section
/-! Codes and fields of INFLATE that are not there: bits that select no code, codes cut off by the end of Z, and GetBits
fields cut off by it (41 R201, R210). -/

namespace Sys2Proof

open Sys2Proof.Machine

variable {s : State} {i : Instr} {table : Option HuffTable} {l symbol n : Nat}

/-! ### The shared operations -/

theorem getBits_cut (h : s.bitPos + n > 8 * s.z.length) : getBits n s = .raised (cutAt s s.bitPos n) :=
  getBits_fault n s h

theorem huffDecode_empty (h : s.peekEntry table = none) :
    huffDecode table s = .raised (faulted s .invalidHuffmanCode s.bitPos 0) := by
  simp only [huffDecode, h, raiseFault_eq]

theorem huffDecode_cut (h : s.peekEntry table = some ⟨l, symbol⟩) (hz : s.bitPos + l > 8 * s.z.length) :
    huffDecode table s = .raised (cutAt s s.bitPos l) := by
  simp only [huffDecode, h, if_pos hz, raiseFault_eq, cutAt]

/-- Extra bits that are cut off after a code that is there: the code stays consumed (41 R201). -/
theorem huffDecode_getBits_cut {f : Nat → State → Res Unit} (h : CodeAt s table l symbol)
    (hz : s.bitPos + l + n > 8 * s.z.length) :
    ((huffDecode table s).bind fun _ s => (getBits n s).bind f) = .raised (cutAt s (s.bitPos + l) n) := by
  rw [huffDecode_ok h, Res.bind_ok, getBits_cut hz, Res.bind_raised]
  rfl

/-! ### Huffman codes -/

/-- The table a step of INFLATE decodes its next code with, in the sub-states that begin with one (42 R246, R251;
log 8). -/
def DecodesWith (s : State) (table : Option HuffTable) : Prop :=
  (s.ist = .clseq ∧ table = s.clTab) ∨ (s.ist = .codes ∧ s.pendLen = none ∧ table = s.litTab) ∨
    (s.ist = .codes ∧ s.pendLen ≠ none ∧ table = s.distTab)

/-- A code that cannot be read ends the step with its fault: there is no item to run. -/
theorem step_of_huffDecode_raised {u : State} (hhost : s.host = []) (hp : s.phase = .inflate) (ht : DecodesWith s table)
    (h : huffDecode table s = .raised u) : step s = .next u := by
  refine step_of_done ?_
  rcases ht with ⟨hx, rfl⟩ | ⟨hx, hn, rfl⟩ | ⟨hx, hn, rfl⟩
  · simp only [fetch, hhost, engineTurn, hp, fetchInflate, hx, h, fetchValue]
  · simp only [fetch, hhost, engineTurn, hp, fetchInflate, hx, hn, h, fetchValue]
  · obtain ⟨m, hm⟩ := Option.ne_none_iff_exists'.1 hn
    simp only [fetch, hhost, engineTurn, hp, fetchInflate, hx, hm, h, fetchValue]

/-- A length item ends where its distance code cannot be read (42 R253, R254). -/
theorem exec_length_of_huffDecode_raised {code p : Nat} {u : State} (hi : i.lengthCode = some code)
    (hc : CodeAt s s.litTab l code) (hp : p = s.bitPos + l + (lengthRow code).extra) (hz : p ≤ 8 * s.z.length)
    (h : huffDecode s.distTab { s with bitPos := p } = .raised u) : exec i s = .next u := by
  rw [hp] at hz h
  rw [exec_of_lengthCode s hi, lengthOp_ok _ rfl hc hz, h, Res.bind_raised, Res.outcome_raised]

/-- Settles O29: a code is read by HuffDecode alone, in the fetch or, for a distance, in the length item. -/
theorem huffmanDecodeFaults : Obligations.HuffmanDecodeFaults := by
  refine ⟨fun s table hhost hp ht => ⟨fun h => ?_, fun l sym h hz => ?_⟩, fun s i code l p hi hc e hz => ?_⟩
  · exact step_of_huffDecode_raised hhost hp ht (huffDecode_empty h)
  · exact step_of_huffDecode_raised hhost hp ht (huffDecode_cut h hz)
  · exact ⟨fun h => exec_length_of_huffDecode_raised hi hc e hz (huffDecode_empty h),
      fun dl d h hd => exec_length_of_huffDecode_raised hi hc e hz (huffDecode_cut h hd)⟩

/-! ### Block headers -/

theorem takeBlockHeader_cut_final (f : Bool) (b : BitVec 2) (h : s.bitPos + 1 > 8 * s.z.length) :
    takeBlockHeader f b s = .raised (cutAt s s.bitPos 1) := by
  rw [takeBlockHeader, readBlockHeader, getBits_cut h, Res.bind_raised, Res.bind_raised]

/-- BFINAL is held before BTYPE is read (42 R242). -/
theorem takeBlockHeader_cut_type (f : Bool) (b : BitVec 2) (h : s.bitPos + 1 ≤ 8 * s.z.length)
    (hz : s.bitPos + 3 > 8 * s.z.length) :
    takeBlockHeader f b s =
      .raised (cutAt { s with bfinal := decide (bitsAt s.z s.bitPos 1 = 1) } (s.bitPos + 1) 2) := by
  rw [takeBlockHeader, readBlockHeader, getBits_ok 1 s h, Res.bind_ok, getBits_cut (by dsimp only; omega),
    Res.bind_raised, Res.bind_raised]
  rfl

/-- A block header that is cut off ends every block item. -/
theorem exec_of_takeBlockHeader_raised {u : State} (hi : i.alphabet = .bhdr)
    (h : ∀ f b, takeBlockHeader f b s = .raised u) : exec i s = .next u := by
  cases i <;> simp only [Instr.alphabet, reduceCtorEq] at hi
  case blkStored => rw [exec, execBlkStored, h, Res.bind_raised, Res.outcome_raised]
  case blkFixed => rw [exec, execBlkFixed, h, Res.bind_raised, Res.outcome_raised]
  case blkDynamic => rw [exec, execBlkDynamic, h, Res.bind_raised, Res.outcome_raised]
  case blkInvalid => rw [exec, execBlkInvalid, h, Res.bind_raised, Res.outcome_raised]

/-- The state after a block header that is whole (42 R242). -/
def headerTaken (s : State) (f : Bool) (b : BitVec 2) : State :=
  { s with bitPos := s.bitPos + 3, bfinal := f, btype := b }

theorem exec_blkStored (f : Bool) (h : s.bitPos + 3 ≤ 8 * s.z.length) :
    exec (.blkStored f) s = (storedBody (headerTaken s f 0)).outcome := by
  rw [exec, execBlkStored, takeBlockHeader_ok f 0 s h, Res.bind_ok, headerTaken]

theorem exec_blkDynamic (f : Bool) (h : s.bitPos + 3 ≤ 8 * s.z.length) :
    exec (.blkDynamic f) s = (dynamicHeader (headerTaken s f 2)).outcome := by
  rw [exec, execBlkDynamic, takeBlockHeader_ok f 2 s h, Res.bind_ok, headerTaken]

/-! ### Stored blocks -/

theorem storedBody_cut_len {q : Nat} (hq : q = 8 * ((s.bitPos + 7) / 8)) (h : q + 16 > 8 * s.z.length) :
    storedBody s = .raised (cutAt s q 16) := by
  subst hq
  rw [storedBody, getBits_cut (s := s.alignToByte) h, Res.bind_raised]
  rfl

theorem storedBody_cut_nlen {q : Nat} (hq : q = 8 * ((s.bitPos + 7) / 8)) (h : q + 16 ≤ 8 * s.z.length)
    (hz : q + 32 > 8 * s.z.length) : storedBody s = .raised (cutAt s (q + 16) 16) := by
  subst hq
  rw [storedBody, getBits_ok 16 s.alignToByte h, Res.bind_ok, getBits_cut hz, Res.bind_raised]
  rfl

/-! ### The header of a dynamic block -/

theorem readClLengths_append (a b : List Nat) (s : State) :
    readClLengths (a ++ b) s = (readClLengths a s).bind fun _ s => readClLengths b s := by
  induction a generalizing s with
  | nil => rfl
  | cons x a ih =>
    rw [List.cons_append, readClLengths, readClLengths]
    cases getBits 3 s with
    | raised u => rfl
    | ok v u => exact ih _

theorem clOrder_nodup : clOrder.Nodup := by decide

theorem clOrder_getD_lt : ∀ k, k < 19 → clOrder.getD k 0 < 19 := by decide

theorem clOrder_getElem? {k : Nat} (h : k < 19) : clOrder[k]? = some (clOrder.getD k 0) := by
  rw [List.getD_eq_getElem?_getD, List.getElem?_eq_getElem (show k < clOrder.length from h), Option.getD_some]

/-- The code-length code lengths once the first n of them have been read from bit p on, in CL_ORDER, those not given 0
(42 R245). -/
structure ClLengthsGiven (z : List Byte) (p n : Nat) (cl : List (BitVec 3)) : Prop where
  size : cl.length = 19
  given : ∀ k, k < 19 → cl[clOrder.getD k 0]? =
    some (if k < n then BitVec.ofNat 3 (bitsAt z (p + 3 * k) 3) else 0)

theorem readClLengths_clOrder (hn : n ≤ 19) (s : State) (hcl : s.clLen = List.replicate 19 0)
    (h : s.bitPos + 3 * n ≤ 8 * s.z.length) :
    ∃ cl, readClLengths (clOrder.take n) s = .ok () { s with bitPos := s.bitPos + 3 * n, clLen := cl } ∧
      ClLengthsGiven s.z s.bitPos n cl := by
  have hlen : (clOrder.take n).length = n := List.length_take_of_le hn
  obtain ⟨cl, e, hl, hrest, hgiven⟩ := readClLengths_ok (clOrder.take n) s (by rwa [hlen])
  rw [hlen] at e
  rw [hcl, List.length_replicate] at hl hgiven
  refine ⟨cl, e, hl, fun k hk => ?_⟩
  have hx := clOrder_getElem? hk
  have hlt := clOrder_getD_lt k hk
  split
  · next hkn =>
    rw [← List.getElem?_take_of_lt hkn] at hx
    exact hgiven (clOrder_nodup.sublist (List.take_sublist _ _)) k _ hx hlt
  · next hkn =>
    have hnot : clOrder.getD k 0 ∉ clOrder.take n := by
      intro hm
      obtain ⟨j, hj⟩ := List.getElem?_of_mem hm
      have hjn : j < n := hlen ▸ (List.getElem?_eq_some_iff.1 hj).1
      rw [List.getElem?_take_of_lt hjn, ← hx] at hj
      have := (List.getElem?_inj (show j < clOrder.length from hjn.trans_le hn) clOrder_nodup).1 hj
      omega
    rw [hrest _ hnot, hcl, List.getElem?_replicate, if_pos hlt]

/-- A code-length code length that is cut off, those before it held (42 R245). -/
theorem readClLengths_clOrder_cut {j : Nat} (hj : j < n) (hn : n ≤ 19) (s : State)
    (hcl : s.clLen = List.replicate 19 0) (h : s.bitPos + 3 * j ≤ 8 * s.z.length)
    (hz : s.bitPos + 3 * j + 3 > 8 * s.z.length) :
    ∃ cl, ClLengthsGiven s.z s.bitPos j cl ∧
      readClLengths (clOrder.take n) s = .raised (cutAt { s with clLen := cl } (s.bitPos + 3 * j) 3) := by
  obtain ⟨cl, e, hgiven⟩ := readClLengths_clOrder (hj.le.trans hn) s hcl h
  refine ⟨cl, hgiven, ?_⟩
  have hlen : j < (clOrder.take n).length := by rwa [List.length_take_of_le hn]
  rw [← List.take_append_drop j (clOrder.take n), List.take_take, Nat.min_eq_left hj.le, List.drop_eq_getElem_cons hlen,
    readClLengths_append, e, Res.bind_ok, readClLengths, getBits_cut (by dsimp only; omega), Res.bind_raised]
  rfl

theorem dynamicHeader_cut_hlit (h : s.bitPos + 5 > 8 * s.z.length) :
    dynamicHeader s = .raised (cutAt s s.bitPos 5) := by
  rw [dynamicHeader, getBits_cut h, Res.bind_raised]

theorem dynamicHeader_cut_hdist (h : s.bitPos + 5 ≤ 8 * s.z.length) (hz : s.bitPos + 10 > 8 * s.z.length) :
    dynamicHeader s = .raised (cutAt { s with hlit := bitsAt s.z s.bitPos 5 + 257 } (s.bitPos + 5) 5) := by
  rw [dynamicHeader, getBits_ok 5 s h, Res.bind_ok, getBits_cut (by dsimp only; omega), Res.bind_raised]
  rfl

theorem dynamicHeader_cut_hclen (h : s.bitPos + 10 ≤ 8 * s.z.length) (hz : s.bitPos + 14 > 8 * s.z.length) :
    dynamicHeader s = .raised (cutAt
      { s with hlit := bitsAt s.z s.bitPos 5 + 257, hdist := bitsAt s.z (s.bitPos + 5) 5 + 1 } (s.bitPos + 10) 4) := by
  rw [dynamicHeader, getBits_ok 5 s (by omega), Res.bind_ok, getBits_ok 5 _ (by dsimp only; omega), Res.bind_ok,
    getBits_cut (by dsimp only; omega), Res.bind_raised]
  rfl

/-- The counts of a dynamic header held, and no code-length code length yet (42 R245). -/
def countsTaken (s : State) : State :=
  { s with
    bitPos := s.bitPos + 14
    hlit := bitsAt s.z s.bitPos 5 + 257
    hdist := bitsAt s.z (s.bitPos + 5) 5 + 1
    hclen := bitsAt s.z (s.bitPos + 10) 4 + 4
    clLen := List.replicate 19 0 }

theorem countsTaken_hclen_le (s : State) : (countsTaken s).hclen ≤ 19 := by
  have := bitsAt_lt s.z (s.bitPos + 10) 4
  simp only [countsTaken]
  omega

/-- A dynamic header whose three counts are there goes on with the code-length code lengths (42 R245). -/
theorem dynamicHeader_of_counts (h : s.bitPos + 14 ≤ 8 * s.z.length) :
    dynamicHeader s = (readClLengths (clOrder.take (countsTaken s).hclen) (countsTaken s)).bind fun _ s =>
      (huffBuild 0 (s.clLen.map BitVec.toNat) s).bind fun t s =>
      .ok () { s with clTab := some t, lens := [], ist := .clseq } := by
  rw [dynamicHeader, getBits_ok 5 s (by omega), Res.bind_ok, getBits_ok 5 _ (by dsimp only; omega), Res.bind_ok,
    getBits_ok 4 _ (by dsimp only; omega), Res.bind_ok]
  rfl

theorem dynamicHeader_cut_length {j : Nat} (hj : j < (countsTaken s).hclen)
    (h : s.bitPos + 14 + 3 * j ≤ 8 * s.z.length) (hz : s.bitPos + 14 + 3 * j + 3 > 8 * s.z.length) :
    ∃ cl, ClLengthsGiven s.z (s.bitPos + 14) j cl ∧
      dynamicHeader s = .raised (cutAt { countsTaken s with clLen := cl } (s.bitPos + 14 + 3 * j) 3) := by
  obtain ⟨cl, hgiven, e⟩ := readClLengths_clOrder_cut hj (countsTaken_hclen_le s) (countsTaken s) rfl h hz
  refine ⟨cl, hgiven, ?_⟩
  rw [dynamicHeader_of_counts (by omega), e, Res.bind_raised]
  rfl

/-! ### Extra bits -/

/-- The extra bits of a repeat code (42 R247 to R249). -/
theorem exec_repeat_cut (hi : (i, symbol, n) ∈ [(Instr.repprev, 16, 2), (.repzero, 17, 3), (.repzerol, 18, 7)])
    (hc : CodeAt s s.clTab l symbol) (hprev : i = .repprev → s.lens ≠ []) (hz : s.bitPos + l + n > 8 * s.z.length) :
    exec i s = .next (cutAt s (s.bitPos + l) n) := by
  simp only [List.mem_cons, Prod.mk.injEq, List.not_mem_nil, or_false] at hi
  rcases hi with ⟨rfl, rfl, rfl⟩ | ⟨rfl, rfl, rfl⟩ | ⟨rfl, rfl, rfl⟩
  · have hlast := List.getLast?_eq_some_getLast (hprev rfl)
    simp only [exec, execRepprev, huffDecode_ok hc, Res.bind_ok, hlast]
    rw [getBits_cut hz, Res.bind_raised, Res.outcome_raised]
    rfl
  · rw [exec, execRepzero, huffDecode_getBits_cut hc hz, Res.outcome_raised]
  · rw [exec, execRepzerol, huffDecode_getBits_cut hc hz, Res.outcome_raised]

theorem lengthOp_cut {code : Nat} (hc : CodeAt s s.litTab l code)
    (hz : s.bitPos + l + (lengthRow code).extra > 8 * s.z.length) :
    lengthOp code s = .raised (cutAt s (s.bitPos + l) (lengthRow code).extra) :=
  huffDecode_getBits_cut hc hz

theorem finishReference_cut {d : Nat} (p len : Nat) (hd : d ≤ 29)
    (hz : s.bitPos + (distanceRow d).extra > 8 * s.z.length) :
    finishReference p d len s = .raised (cutAt s s.bitPos (distanceRow d).extra) := by
  rw [finishReference, distanceOf_cut p d s hd hz, Res.bind_raised]

/-- The extra bits of the distance code of a length item (42 R253, R254). -/
theorem exec_length_cut_distance {code p dl d : Nat} (hi : i.lengthCode = some code) (hc : CodeAt s s.litTab l code)
    (hp : p = s.bitPos + l + (lengthRow code).extra) (hdc : CodeAt { s with bitPos := p } s.distTab dl d) (hd : d ≤ 29)
    (hz : p + dl + (distanceRow d).extra > 8 * s.z.length) :
    exec i s = .next (cutAt s (p + dl) (distanceRow d).extra) := by
  have hfits : p ≤ 8 * s.z.length := (Nat.le_add_right p dl).trans hdc.fits
  rw [hp] at hfits
  rw [exec_of_lengthCode s hi, lengthOp_ok _ rfl hc hfits, ← hp, huffDecode_ok hdc, Res.bind_ok,
    finishReference_cut _ _ hd hz, Res.outcome_raised]
  rfl

/-- The extra bits of a distance item on its own (42 R254; log 8). -/
theorem exec_distance_cut {d dl : Nat} (hi : i.distanceCode = some d) (hc : CodeAt s s.distTab dl d)
    (hz : s.bitPos + dl + (distanceRow d).extra > 8 * s.z.length) :
    exec i s = .next (cutAt { s with pendLen := none } (s.bitPos + dl) (distanceRow d).extra) := by
  obtain ⟨hd, he⟩ := exec_of_distanceCode s hi
  rw [he, distanceOp, huffDecode_ok hc, Res.bind_ok, finishReference_cut _ _ hd hz, Res.outcome_raised]
  rfl

/-- Settles O60: each field is a GetBits that its item reaches with the fields before it held. -/
theorem truncatedStreamFaults : Obligations.TruncatedStreamFaults := by
  refine ⟨?header, ?stored, ?dynamic, ?repeatCode, ?length, ?distance⟩
  case header =>
    intro s i hi
    exact ⟨fun h => exec_of_takeBlockHeader_raised hi fun f b => takeBlockHeader_cut_final f b h,
      fun h hz => exec_of_takeBlockHeader_raised hi fun f b => takeBlockHeader_cut_type f b h hz⟩
  case stored =>
    intro s f q h _ hq
    have ends {u : State} (e : storedBody (headerTaken s f 0) = .raised u) : exec (.blkStored f) s = .next u := by
      rw [exec_blkStored f h, e, Res.outcome_raised]
    exact ⟨fun hz => ends (storedBody_cut_len hq hz), fun hlen hz => ends (storedBody_cut_nlen hq hlen hz)⟩
  case dynamic =>
    intro s f p hp h _
    subst hp
    have ends {u : State} (e : dynamicHeader (headerTaken s f 2) = .raised u) : exec (.blkDynamic f) s = .next u := by
      rw [exec_blkDynamic f h, e, Res.outcome_raised]
    refine ⟨fun hz => ends (dynamicHeader_cut_hlit hz), fun hlit hz => ends (dynamicHeader_cut_hdist hlit hz),
      fun hdist hz => ends (dynamicHeader_cut_hclen hdist hz), fun j hj hlen hz => ?_⟩
    obtain ⟨cl, hgiven, e⟩ := dynamicHeader_cut_length (s := headerTaken s f 2) hj hlen hz
    exact ⟨cl, hgiven.size, hgiven.given, ends e⟩
  case repeatCode => exact fun s i symbol n l => exec_repeat_cut
  case length =>
    intro s i code l p hi hc hp
    refine ⟨fun hz => ?_, fun dl d => exec_length_cut_distance hi hc hp⟩
    rw [hp] at hz
    rw [exec_of_lengthCode s hi, lengthOp_cut hc hz, Res.outcome_raised]
  case distance => exact fun s i d dl => exec_distance_cut

end Sys2Proof
end

section
/-! The headers of INFLATE and the codes that stand alone: the zlib header, the block headers and the stored body, the
code-length items, LIT and EOB (42 R241 to R252). -/

namespace Sys2Proof

open Sys2Proof.Machine

variable {s : State} {l n : Nat}

/-! ### The zlib header -/

theorem zlibHeaderOk_iff (v : BitVec 16) :
    zlibHeaderOk v = true ↔ v.toNat / 256 % 16 = 8 ∧ v.toNat % 31 = 0 ∧ v.toNat / 32 % 2 = 0 := by
  simp only [zlibHeaderOk, Bool.and_eq_true, beq_iff_eq]
  tauto

theorem readZlibHeader_ok (h : s.bitPos + 16 ≤ 8 * s.z.length) :
    readZlibHeader s =
      .ok (bitsAt s.z s.bitPos 8 * 256 + bitsAt s.z (s.bitPos + 8) 8) { s with bitPos := s.bitPos + 16 } := by
  rw [readZlibHeader, getBits_ok 8 s (by omega), Res.bind_ok, getBits_ok 8 _ (by dsimp only; omega)]
  rfl

theorem readZlibHeader_cut_cmf (h : s.bitPos + 8 > 8 * s.z.length) :
    readZlibHeader s = .raised (cutAt s s.bitPos 8) := by
  rw [readZlibHeader, getBits_cut h, Res.bind_raised]

theorem readZlibHeader_cut_flg (h : s.bitPos + 8 ≤ 8 * s.z.length) (hz : s.bitPos + 16 > 8 * s.z.length) :
    readZlibHeader s = .raised (cutAt s (s.bitPos + 8) 8) := by
  rw [readZlibHeader, getBits_ok 8 s h, Res.bind_ok, getBits_cut (by dsimp only; omega), Res.bind_raised]
  rfl

/-- A zlib header that cannot be read ends both its items. -/
theorem exec_zlib_of_raised {i : Instr} {v : BitVec 16} {u : State} (hi : i = .zhdr v ∨ i = .zhdrBad v)
    (h : readZlibHeader s = .raised u) : exec i s = .next u := by
  rcases hi with rfl | rfl
  · rw [exec, execZhdr, h, Res.bind_raised, Res.outcome_raised]
  · rw [exec, execZhdrBad, h, Res.bind_raised, Res.outcome_raised]

/-- Settles O30: the decoder makes the three checks, and both items read the same two bytes. -/
theorem zlibHeaderChecked : Obligations.ZlibHeaderChecked := by
  refine fun s v => ⟨fun h _ => ⟨fun good => ⟨?_, ?_⟩, fun bad => ⟨?_, ?_⟩⟩, fun i hi => ⟨fun hz => ?_, fun h hz => ?_⟩⟩
  · rw [decode_zlib_toNat, if_pos ((zlibHeaderOk_iff v).2 good)]
  · rw [exec, execZhdr, readZlibHeader_ok h, Res.bind_ok, Res.outcome_ok]
  · rw [decode_zlib_toNat, if_neg (bad ∘ (zlibHeaderOk_iff v).1)]
  · rw [exec, execZhdrBad, readZlibHeader_ok h, Res.bind_ok, raiseFault_eq, Res.outcome_raised]
  · exact exec_zlib_of_raised hi (readZlibHeader_cut_cmf hz)
  · exact exec_zlib_of_raised hi (readZlibHeader_cut_flg h hz)

/-! ### Blocks of type 0, 1 and 3 -/

/-- A stored block whose LEN and NLEN are there: NLEN is checked, then LEN bytes are copied and the block ends
(42 R243). -/
theorem storedBody_of_lengths {q len nlen : Nat} (hq : q = 8 * ((s.bitPos + 7) / 8)) (h : q + 32 ≤ 8 * s.z.length)
    (hlen : len = bitsAt s.z q 16) (hnlen : nlen = bitsAt s.z (q + 16) 16) :
    storedBody s =
      if nlen ≠ 65535 - len then
        .raised (faulted { s with bitPos := q + 32 } .storedLengthMismatch q (len * 65536 + nlen))
      else (copyStored len { s with bitPos := q + 32 }).bind fun _ s => endBlock s := by
  subst hq
  rw [storedBody, getBits_ok 16 s.alignToByte (by dsimp only [State.alignToByte]; omega), Res.bind_ok,
    getBits_ok 16 _ h, Res.bind_ok]
  simp only [State.alignToByte, ← hlen, ← hnlen, raiseFault_eq, Nat.add_assoc, Nat.reduceAdd]

theorem exec_blkStored_mismatch (f : Bool) {q len nlen : Nat} (hq : q = 8 * ((s.bitPos + 3 + 7) / 8))
    (h : q + 32 ≤ 8 * s.z.length) (hlen : len = bitsAt s.z q 16) (hnlen : nlen = bitsAt s.z (q + 16) 16)
    (hne : nlen ≠ 65535 - len) :
    exec (.blkStored f) s = .next (faulted { s with bitPos := q + 32, bfinal := f, btype := 0 } .storedLengthMismatch q
      (len * 65536 + nlen)) := by
  rw [exec_blkStored f (by omega), storedBody_of_lengths (s := headerTaken s f 0) hq h hlen hnlen, if_pos hne,
    Res.outcome_raised, headerTaken]

/-- A stored block whose NLEN is the complement of its LEN copies its bytes and ends (42 R243). -/
theorem exec_blkStored_of_complement (f : Bool) {q len nlen : Nat} (hq : q = 8 * ((s.bitPos + 3 + 7) / 8))
    (h : q + 32 ≤ 8 * s.z.length) (hlen : len = bitsAt s.z q 16) (hnlen : nlen = bitsAt s.z (q + 16) 16)
    (heq : nlen = 65535 - len) :
    exec (.blkStored f) s =
      ((copyStored len { s with bitPos := q + 32, bfinal := f, btype := 0 }).bind fun _ s => endBlock s).outcome := by
  rw [exec_blkStored f (by omega), storedBody_of_lengths (s := headerTaken s f 0) hq h hlen hnlen,
    if_neg (not_not.2 heq), headerTaken]

/-- Settles O31: LEN and NLEN, the copy of the bytes, the end of the block. -/
theorem storedBlockCopies : Obligations.StoredBlockCopies := by
  intro s f q len _ hq h hlen heq hz hroom
  rw [exec_blkStored_of_complement f hq h hlen rfl heq,
    copyStored_ok len _ (q / 8 + 4) (by dsimp only; omega) (by dsimp only; omega) (by exact hroom), Res.bind_ok]
  exact endBlock_ended _

/-- Settles O32: the check of NLEN, and the two ways the copy of the bytes can end early. -/
theorem storedBlockFaults : Obligations.StoredBlockFaults := by
  intro s f q len nlen _ hq h hlen hnlen
  refine ⟨exec_blkStored_mismatch f hq h hlen hnlen, fun heq hz hroom => ?short, fun cap k heq hc hk hlt hz => ?capped⟩
  case short =>
    rw [exec_blkStored_of_complement f hq h hlen hnlen heq,
      copyStored_short len _ (q / 8 + 4) (by dsimp only; omega) (by dsimp only; omega) (by dsimp only; omega)
        (by exact hroom), Res.bind_raised, Res.outcome_raised]
  case capped =>
    rw [exec_blkStored_of_complement f hq h hlen hnlen heq,
      copyStored_capped len _ (q / 8 + 4) k cap (by dsimp only; omega) (by exact hc) (by exact hk) hlt
        (by dsimp only; omega),
      Res.bind_raised, Res.outcome_raised, show 8 * (q / 8 + 4 + (k + 1)) = q + 32 + 8 * (k + 1) by omega]

/-- Settles O33: each is the block header and then one write, or the fault. -/
theorem fixedAndInvalidBlocks : Obligations.FixedAndInvalidBlocks := by
  refine fun s f h => ⟨fun _ => ?_, fun _ => ?_⟩
  · rw [exec, execBlkFixed, takeBlockHeader_ok f 1 s h, Res.bind_ok, Res.outcome_ok]
  · rw [exec, execBlkInvalid, takeBlockHeader_ok f 3 s h, Res.bind_ok, raiseFault_eq, Res.outcome_raised]

/-! ### Dynamic blocks -/

/-- CL_ORDER names every code-length symbol (30 R118). -/
theorem exists_clOrder_eq : ∀ k, k < 19 → ∃ j, j < 19 ∧ clOrder.getD j 0 = k := by decide

/-- What is read determines every code-length code length (42 R245). -/
theorem ClLengthsGiven.unique {z : List Byte} {p : Nat} {cl cl' : List (BitVec 3)} (h : ClLengthsGiven z p n cl)
    (h' : ClLengthsGiven z p n cl') : cl = cl' := by
  refine List.ext_getElem? fun k => ?_
  by_cases hk : k < 19
  · obtain ⟨j, hj, rfl⟩ := exists_clOrder_eq k hk
    rw [h.given j hj, h'.given j hj]
  · rw [List.getElem?_eq_none (by rw [h.size]; omega), List.getElem?_eq_none (by rw [h'.size]; omega)]

/-- A dynamic header that is whole: the code-length code lengths read are those given, and their table is built
(42 R245). -/
theorem dynamicHeader_of_lengths {cl : List (BitVec 3)}
    (h : s.bitPos + 14 + 3 * (countsTaken s).hclen ≤ 8 * s.z.length)
    (hcl : ClLengthsGiven s.z (s.bitPos + 14) (countsTaken s).hclen cl) :
    dynamicHeader s =
      (huffBuild 0 (cl.map BitVec.toNat)
        { countsTaken s with bitPos := s.bitPos + 14 + 3 * (countsTaken s).hclen, clLen := cl }).bind fun t s =>
      .ok () { s with clTab := some t, lens := [], ist := .clseq } := by
  obtain ⟨cl', e, hgiven⟩ := readClLengths_clOrder (countsTaken_hclen_le s) (countsTaken s) rfl h
  rw [dynamicHeader_of_counts (by omega), e, Res.bind_ok, ClLengthsGiven.unique hgiven hcl]
  rfl

/-- Settles O34: the counts, the code-length code lengths they announce, and HuffBuild. -/
theorem dynamicHeaderBuilds : Obligations.DynamicHeaderBuilds := by
  intro s f p n cl _ hp hn h hsize hgiven
  subst hp hn
  have e := dynamicHeader_of_lengths (s := headerTaken s f 2) h ⟨hsize, hgiven⟩
  refine ⟨fun hk => ?_, fun hk => ?_⟩
  · rw [exec_blkDynamic f (by omega), e, huffBuild, hk]
    rfl
  · rw [exec_blkDynamic f (by omega), e, huffBuild, hk]
    rfl

/-! ### Code-length items -/

/-- A repeat item whose code and extra bits are there: what it repeats, and how often (42 R247 to R249). -/
theorem exec_repprev {prev : BitVec 4} (hc : CodeAt s s.clTab l 16) (hprev : s.lens.getLast? = some prev)
    (h : s.bitPos + l + 2 ≤ 8 * s.z.length) :
    exec .repprev s = (repeatLen s.bitPos prev (3 + bitsAt s.z (s.bitPos + l) 2)
      { s with bitPos := s.bitPos + l + 2 }).outcome := by
  simp only [exec, execRepprev, huffDecode_ok hc, Res.bind_ok, hprev]
  rw [getBits_ok 2 _ h, Res.bind_ok]

theorem exec_repzero (hc : CodeAt s s.clTab l 17) (h : s.bitPos + l + 3 ≤ 8 * s.z.length) :
    exec .repzero s = (repeatLen s.bitPos 0 (3 + bitsAt s.z (s.bitPos + l) 3)
      { s with bitPos := s.bitPos + l + 3 }).outcome := by
  rw [exec, execRepzero, huffDecode_ok hc, Res.bind_ok, getBits_ok 3 _ h, Res.bind_ok]

theorem exec_repzerol (hc : CodeAt s s.clTab l 18) (h : s.bitPos + l + 7 ≤ 8 * s.z.length) :
    exec .repzerol s = (repeatLen s.bitPos 0 (11 + bitsAt s.z (s.bitPos + l) 7)
      { s with bitPos := s.bitPos + l + 7 }).outcome := by
  rw [exec, execRepzerol, huffDecode_ok hc, Res.bind_ok, getBits_ok 7 _ h, Res.bind_ok]

/-- Settles O35: every item appends lengths that fit the sequence. -/
theorem codeLengthItemsAppend : Obligations.CodeLengthItemsAppend := by
  refine fun s l => ⟨fun n hc => ?_, fun prev e hc hprev h he hfit => ?_, fun e hc h he hfit => ?_,
    fun e hc h he hfit => ?_⟩
  · rw [exec, execClen, huffDecode_ok hc, Res.bind_ok]
    exact appendLens_appended _ _
  · rw [exec_repprev hc hprev h, ← he, repeatLen_ok _ _ _ _ (by exact hfit)]
    exact appendLens_appended _ _
  · rw [exec_repzero hc h, ← he, repeatLen_ok _ _ _ _ (by exact hfit)]
    exact appendLens_appended _ _
  · rw [exec_repzerol hc h, ← he, repeatLen_ok _ _ _ _ (by exact hfit)]
    exact appendLens_appended _ _

/-- Settles O36: the missing length is seen before the extra bits are read, the overrun after them. -/
theorem repeatCodesFault : Obligations.RepeatCodesFault := by
  refine fun s l => ⟨fun hc hempty => ?_, fun hc hne h hover => ?_, fun hc h hover => ?_, fun hc h hover => ?_⟩
  · simp only [exec, execRepprev, huffDecode_ok hc, Res.bind_ok, hempty, List.getLast?_nil, raiseFault_eq,
      Res.outcome_raised]
  · rw [exec_repprev hc (List.getLast?_eq_some_getLast hne) h, repeatLen_fault _ _ _ _ (by exact hover),
      Res.outcome_raised]
  · rw [exec_repzero hc h, repeatLen_fault _ _ _ _ (by exact hover), Res.outcome_raised]
  · rw [exec_repzerol hc h, repeatLen_fault _ _ _ _ (by exact hover), Res.outcome_raised]

/-! ### LIT and EOB -/

/-- Settles O37: the code, then one byte appended to OUT. -/
theorem litAppendsByte : Obligations.LitAppendsByte := by
  refine fun s b l hc => ⟨fun hroom => ?_, fun cap hcap hfull => ?_⟩
  · rw [exec, execLit, huffDecode_ok hc, Res.bind_ok, appendOut_ok b _ (by exact hroom), Res.outcome_ok]
  · rw [exec, execLit, huffDecode_ok hc, Res.bind_ok, appendOut_fault b _ cap (by exact hcap) (by exact hfull),
      Res.outcome_raised]

/-- Settles O38: the code, then the end of the block. -/
theorem eobEndsBlock : Obligations.EobEndsBlock := by
  intro s l hc
  rw [exec, execEob, huffDecode_ok hc, Res.bind_ok]
  exact endBlock_ended _

end Sys2Proof
end

section
/-! Back-references: a length item or a distance item up to its copy, and the symbols and distances that have no meaning
(42 R253 to R257). -/

namespace Sys2Proof

open Sys2Proof.Machine

variable {s : State} {i : Instr} {d dl l n p : Nat}

/-- LL_INVALID faults with its code consumed (42 R256). -/
theorem exec_llInvalid (low : BitVec 1) {symbol : Nat} (hc : CodeAt s s.litTab l symbol) :
    exec (.llInvalid low) s =
      .next (faulted { s with bitPos := s.bitPos + l } .invalidSymbol s.bitPos (286 + low.toNat)) := by
  rw [exec, execLlInvalid, huffDecode_ok hc, Res.bind_ok, raiseFault_eq, Res.outcome_raised]

/-- A length item once its distance code is decoded too (42 R253). -/
theorem exec_length_of_distance {code : Nat} (hi : i.lengthCode = some code) (hc : CodeAt s s.litTab l code)
    (hp : p = s.bitPos + l + (lengthRow code).extra) (hd : CodeAt { s with bitPos := p } s.distTab dl d) :
    exec i s = (finishReference p d ((lengthRow code).base + bitsAt s.z (s.bitPos + l) (lengthRow code).extra)
      { s with bitPos := p + dl }).outcome := by
  have hfits : p ≤ 8 * s.z.length := (Nat.le_add_right p dl).trans hd.fits
  rw [hp] at hfits
  rw [exec_of_lengthCode s hi, lengthOp_ok _ rfl hc hfits, ← hp, huffDecode_ok hd, Res.bind_ok]

/-- A distance item on its own once its code is decoded, the pending length taken (42 R254; log 8). -/
theorem distanceOp_ok (h : CodeAt s s.distTab dl d) (symbol : Nat) :
    distanceOp symbol s = finishReference s.bitPos symbol (s.pendLen.getD 0)
      { s with bitPos := s.bitPos + dl, pendLen := none } := by
  rw [distanceOp, huffDecode_ok h, Res.bind_ok]

/-- A distance symbol without a meaning faults before its extra bits (42 R257). -/
theorem finishReference_invalid (p n : Nat) (s : State) (hd : d > 29) :
    finishReference p d n s = .raised (faulted s .invalidSymbol p d) := by
  rw [finishReference, distanceOf, if_pos hd, raiseFault_eq, Res.bind_raised]

/-- A distance past the start of OUT faults before any byte of the copy (42 R254). -/
theorem finishReference_far (p n : Nat) (s : State) (hd : d ≤ 29)
    (hf : s.bitPos + (distanceRow d).extra ≤ 8 * s.z.length)
    (hl : (distanceRow d).base + bitsAt s.z s.bitPos (distanceRow d).extra > s.out.length) :
    finishReference p d n s = .raised (faulted { s with bitPos := s.bitPos + (distanceRow d).extra } .invalidDistance p
      ((distanceRow d).base + bitsAt s.z s.bitPos (distanceRow d).extra)) := by
  rw [finishReference, distanceOf_far p d s hd hf hl, Res.bind_raised]

/-- The outcome of copying n bytes from `distance` behind in a state whose stream has been read: all of them where they
fit, and the k that fit before the fault where OUT_CAP is reached (42 R255, 20 R83, 60 R404). -/
def CopiesTo (o : Host.Outcome State Fault Refusal) (read : State) (n distance : Nat) : Prop :=
  (RoomFor read n → ∃ out', o = .next { read with out := out' } ∧ Copied read.out out' n distance) ∧
  ∀ cap k, read.outCap = some cap → read.out.length + k = cap → k < n →
    ∃ out', o = .next (faulted { read with out := out' } .outBuffer cap cap) ∧ Copied read.out out' k distance

theorem copyBack_copiesTo {distance : Nat} (n : Nat) (s : State) (h1 : 1 ≤ distance) (hl : distance ≤ s.out.length) :
    CopiesTo (copyBack distance n s).outcome s n distance := by
  refine ⟨fun hroom => ?_, fun cap k hc hk hlt => ?_⟩
  · obtain ⟨out', e, hcopied⟩ := copyBack_ok distance n s h1 hl hroom
    exact ⟨out', by rw [e, Res.outcome_ok], hcopied⟩
  · obtain ⟨out', e, hcopied⟩ := copyBack_capped distance n s k cap h1 hl hc hk hlt
    exact ⟨out', by rw [e, Res.outcome_raised], hcopied⟩

/-- A distance that is within OUT is copied from (42 R254, R255). -/
theorem finishReference_copiesTo (p n : Nat) (s : State) (hd : d ≤ 29)
    (hf : s.bitPos + (distanceRow d).extra ≤ 8 * s.z.length)
    (hl : (distanceRow d).base + bitsAt s.z s.bitPos (distanceRow d).extra ≤ s.out.length) :
    CopiesTo (finishReference p d n s).outcome { s with bitPos := s.bitPos + (distanceRow d).extra } n
      ((distanceRow d).base + bitsAt s.z s.bitPos (distanceRow d).extra) := by
  rw [finishReference, distanceOf_ok p d s hd hf hl, Res.bind_ok]
  exact copyBack_copiesTo n _ (Nat.le_add_right_of_le (distanceRow_base_pos d)) hl

/-- Settles O39: the length, the distance, and the copy. -/
theorem backReferenceCopies : Obligations.BackReferenceCopies := by
  intro s i code l dl d hi hc p1 length distance hdc hd hf hl
  rw [exec_length_of_distance hi hc rfl hdc]
  exact finishReference_copiesTo p1 length { s with bitPos := p1 + dl } hd hf hl

/-- Settles O40: the copy of a length item, for the pending length. -/
theorem distanceItemCopies : Obligations.DistanceItemCopies := by
  intro s i d dl hi hc length distance hf hl
  obtain ⟨hd, e⟩ := exec_of_distanceCode s hi
  rw [e, distanceOp_ok hc]
  exact finishReference_copiesTo s.bitPos length { s with bitPos := s.bitPos + dl, pendLen := none } hd hf hl

/-- Settles O41: the symbol is checked when its code is decoded, the distance when its extra bits are read. -/
theorem invalidReferencesFault : Obligations.InvalidReferencesFault := by
  refine ⟨fun s low l => ⟨exec_llInvalid low, fun hc => ?alone⟩, ?withinReference, ?distanceItem⟩
  case alone =>
    have hd : 30 + low.toNat > 29 := by omega
    rw [exec, execDistInvalid, distanceOp_ok hc, finishReference_invalid _ _ _ hd, Res.outcome_raised]
  case withinReference =>
    intro s i code l dl d hi hc p1 distance hdc
    rw [exec_length_of_distance hi hc rfl hdc]
    refine ⟨fun hd => ?_, fun hd hf hl => ?_⟩
    · rw [finishReference_invalid _ _ _ hd, Res.outcome_raised]
    · rw [finishReference_far _ _ _ hd hf hl, Res.outcome_raised]
  case distanceItem =>
    intro s i d dl hi hc distance hf hl
    obtain ⟨hd, e⟩ := exec_of_distanceCode s hi
    rw [e, distanceOp_ok hc, finishReference_far _ _ _ hd hf hl, Res.outcome_raised]

end Sys2Proof
end

section
/-! The bit cursor through INFLATE: the first thing an item reads consumes a bit, and nothing after it moves the cursor
back (42 R259, 10 R33). -/

namespace Sys2Proof

open Sys2Proof.Machine

variable {s t : State} {p : Nat}

/-- An operation that goes on leaves the cursor past bit p; one that faults leaves ERROR. -/
def EndsPast {α : Type} (p : Nat) (r : Res α) : Prop := r.Ends (p < ·.bitPos) (·.phase = .error)

theorem EndsPast.fault {α : Type} {d : FaultDetail} {i j : Nat} : EndsPast (α := α) p (.raised (faulted s d i j)) := rfl

theorem EndsPast.bind {α β : Type} {r : Res α} {f : α → State → Res β} (h : EndsPast p r)
    (hf : ∀ v u, p < u.bitPos → EndsPast p (f v u)) : EndsPast p (r.bind f) :=
  Res.Ends.bind h hf

theorem EndsPast.of_outcome {r : Res Unit} (h : EndsPast p r) (e : r.outcome = .next t) (ht : t.phase ≠ .error) :
    p < t.bitPos :=
  (Res.Ends.of_outcome h e).resolve_right ht

/-! ### The first read of an item -/

theorem getBits_endsPast {n : Nat} (h : p < s.bitPos + n) : EndsPast p (getBits n s) := by
  rcases getBits_cases n s with ⟨-, e⟩ | ⟨-, e⟩ <;> rw [e]
  · exact h
  · exact .fault

/-- No code of a legal table is empty (41 R207). -/
theorem peekEntry_length_pos {n : Nat} {table : HuffTable} {c : CodeEntry} (hok : TableOk n table)
    (h : s.peekEntry (some table) = some c) : 1 ≤ c.length := by
  have hmem := List.mem_of_getElem? (Option.join_eq_some_iff.1 h)
  exact (hok.entry c hmem).1

theorem huffDecode_consumes {n : Nat} {table : HuffTable} (hok : TableOk n table) :
    EndsPast s.bitPos (huffDecode (some table) s) := by
  rcases huffDecode_cases (some table) s with ⟨l, _, hc, e⟩ | ⟨-, e⟩ | ⟨_, _, -, -, e⟩ <;> rw [e]
  · exact Nat.lt_add_of_pos_right (peekEntry_length_pos hok hc.selected)
  all_goals exact .fault

/-! ### What follows it -/

theorem getBits_past (n : Nat) (h : p < s.bitPos) : EndsPast p (getBits n s) := getBits_endsPast (Nat.lt_add_right n h)

theorem huffDecode_past (table : Option HuffTable) (h : p < s.bitPos) : EndsPast p (huffDecode table s) := by
  rcases huffDecode_cases table s with ⟨l, _, -, e⟩ | ⟨-, e⟩ | ⟨_, _, -, -, e⟩ <;> rw [e]
  · exact Nat.lt_add_right l h
  all_goals exact .fault

theorem huffBuild_past (n : Nat) (lengths : List Nat) (h : p < s.bitPos) : EndsPast p (huffBuild n lengths s) := by
  unfold huffBuild
  split
  · exact .fault
  · exact h

theorem appendOut_past (b : Byte) (h : p < s.bitPos) : EndsPast p (appendOut b s) := by
  rcases appendOut_cases b s with ⟨-, e⟩ | ⟨_, -, -, e⟩ <;> rw [e]
  · exact h
  · exact .fault

theorem copyBack_past (d n : Nat) (h : p < s.bitPos) : EndsPast p (copyBack d n s) := by
  induction n generalizing s with
  | zero => exact h
  | succ n ih => exact (appendOut_past _ h).bind fun _ _ hu => ih hu

theorem copyStored_past (n : Nat) (h : p < s.bitPos) : EndsPast p (copyStored n s) := by
  induction n generalizing s with
  | zero => exact h
  | succ n ih => exact (getBits_past 8 h).bind fun _ _ hu => (appendOut_past _ hu).bind fun _ _ hv => ih hv

theorem endUnfilter_past (h : p < s.bitPos) : p < (endUnfilter s).bitPos := by
  unfold endUnfilter
  split <;> exact h

/-- The end of a block reads nothing, also when it enters UNFILTER (42 R240, R258). -/
theorem endBlock_past (h : p < s.bitPos) : EndsPast p (endBlock s) := by
  unfold endBlock enterUnfilter
  dsimp only
  split_ifs
  · exact .fault
  · exact endUnfilter_past h
  · exact h

/-- The alignment of a stored block skips forward (41 R203, 42 R243). -/
theorem storedBody_past (h : p < s.bitPos) : EndsPast p (storedBody s) := by
  have ha : p < s.alignToByte.bitPos := by dsimp only [State.alignToByte]; omega
  refine (getBits_past 16 ha).bind fun len u hu => (getBits_past 16 hu).bind fun nlen v hv => ?_
  split
  · exact .fault
  · exact (copyStored_past len hv).bind fun _ _ hw => endBlock_past hw

theorem readClLengths_past (symbols : List Nat) (h : p < s.bitPos) : EndsPast p (readClLengths symbols s) := by
  induction symbols generalizing s with
  | nil => exact h
  | cons x symbols ih => exact (getBits_past 3 h).bind fun v u hu => ih hu

theorem dynamicHeader_past (h : p < s.bitPos) : EndsPast p (dynamicHeader s) :=
  (getBits_past 5 h).bind fun hlit u hu =>
  (getBits_past (s := { u with hlit := hlit + 257 }) 5 hu).bind fun hdist v hv =>
  (getBits_past (s := { v with hdist := hdist + 1 }) 4 hv).bind fun hclen w hw =>
  (readClLengths_past (s := { w with hclen := hclen + 4, clLen := List.replicate 19 0 }) _ hw).bind fun _ _ hx =>
  (huffBuild_past 0 _ hx).bind fun _ _ hy => hy

theorem appendLens_past (lengths : List (BitVec 4)) (h : p < s.bitPos) : EndsPast p (appendLens lengths s) := by
  unfold appendLens
  dsimp only
  split
  · exact (huffBuild_past (s := { s with lens := s.lens ++ lengths }) 1 _ h).bind fun t u hu =>
      (huffBuild_past (s := { u with litTab := some t }) 2 _ hu).bind fun _ _ hv => hv
  · exact h

theorem repeatLen_past (q : Nat) (length : BitVec 4) (r : Nat) (h : p < s.bitPos) :
    EndsPast p (repeatLen q length r s) := by
  unfold repeatLen
  split
  · exact .fault
  · exact appendLens_past _ h

theorem finishReference_past (q d n : Nat) (h : p < s.bitPos) : EndsPast p (finishReference q d n s) := by
  refine EndsPast.bind ?_ fun _ _ hu => copyBack_past _ _ hu
  unfold distanceOf
  split
  · exact .fault
  · refine (getBits_past _ h).bind fun e u hu => ?_
    dsimp only
    split
    · exact .fault
    · exact hu

/-! ### The items -/

variable {i : Instr}

theorem readZlibHeader_consumes (s : State) : EndsPast s.bitPos (readZlibHeader s) :=
  (getBits_endsPast (n := 8) (by omega)).bind fun _ _ hu => (getBits_past 8 hu).bind fun _ _ hv => hv

theorem readBlockHeader_consumes (s : State) : EndsPast s.bitPos (readBlockHeader s) :=
  (getBits_endsPast (n := 1) (by omega)).bind fun f u hu =>
    (getBits_past (s := { u with bfinal := f == 1 }) 2 hu).bind fun _ _ hv => hv

theorem exec_zlib_consumes (hi : i.alphabet = .zlib) (e : exec i s = .next t) (ht : t.phase ≠ .error) :
    s.bitPos < t.bitPos := by
  have h := readZlibHeader_consumes s
  cases i <;> simp only [Instr.alphabet, reduceCtorEq] at hi <;> simp only [exec] at e
  case zhdr => exact (h.bind fun _ _ hu => by exact hu).of_outcome e ht
  case zhdrBad => exact (h.bind fun _ _ _ => by exact .fault).of_outcome e ht

theorem exec_bhdr_consumes (hi : i.alphabet = .bhdr) (e : exec i s = .next t) (ht : t.phase ≠ .error) :
    s.bitPos < t.bitPos := by
  have h (f : Bool) (b : BitVec 2) : EndsPast s.bitPos (takeBlockHeader f b s) :=
    (readBlockHeader_consumes s).bind fun _ _ hu => hu
  cases i <;> simp only [Instr.alphabet, reduceCtorEq] at hi <;> simp only [exec] at e
  case blkStored => exact ((h _ _).bind fun _ _ hu => storedBody_past hu).of_outcome e ht
  case blkFixed => exact ((h _ _).bind fun _ _ hu => by exact hu).of_outcome e ht
  case blkDynamic => exact ((h _ _).bind fun _ _ hu => dynamicHeader_past hu).of_outcome e ht
  case blkInvalid => exact ((h _ _).bind fun _ _ _ => by exact .fault).of_outcome e ht

theorem exec_cl_consumes (h : EndsPast s.bitPos (huffDecode s.clTab s)) (hi : i.alphabet = .cl)
    (e : exec i s = .next t) (ht : t.phase ≠ .error) : s.bitPos < t.bitPos := by
  cases i <;> simp only [Instr.alphabet, reduceCtorEq] at hi <;> simp only [exec] at e <;>
    refine (h.bind fun _ u hu => ?_).of_outcome e ht
  case clen => exact appendLens_past _ hu
  case repprev =>
    split
    · exact .fault
    · exact (getBits_past 2 hu).bind fun _ _ hv => repeatLen_past _ _ _ hv
  case repzero => exact (getBits_past 3 hu).bind fun _ _ hv => repeatLen_past _ _ _ hv
  case repzerol => exact (getBits_past 7 hu).bind fun _ _ hv => repeatLen_past _ _ _ hv

theorem lengthOp_consumes (h : EndsPast s.bitPos (huffDecode s.litTab s)) (code : Nat) :
    EndsPast s.bitPos (lengthOp code s) := by
  unfold lengthOp
  generalize lengthRow code = row
  exact h.bind fun _ _ hu => (getBits_past _ hu).bind fun _ _ hv => (huffDecode_past _ hv).bind fun _ _ hw =>
    finishReference_past _ _ _ hw

theorem exec_ll_consumes (h : EndsPast s.bitPos (huffDecode s.litTab s)) (hi : i.alphabet = .ll)
    (e : exec i s = .next t) (ht : t.phase ≠ .error) : s.bitPos < t.bitPos := by
  cases hc : i.lengthCode with
  | some code =>
    rw [exec_of_lengthCode s hc] at e
    exact (lengthOp_consumes h code).of_outcome e ht
  | none =>
    cases i <;> simp only [Instr.alphabet, Instr.lengthCode, reduceCtorEq] at hi hc <;> simp only [exec] at e <;>
      refine (h.bind fun _ u hu => ?_).of_outcome e ht
    case lit => exact appendOut_past _ hu
    case eob => exact endBlock_past hu
    case llInvalid => exact .fault

/-! ### The step -/

/-- From s to t an item of INFLATE goes that consumes a bit. -/
def Consumes (s t : State) : Prop :=
  ∃ i : Instr, i.alphabet ∈ [.zlib, .bhdr, .cl, .ll, .dist] ∧ exec i s = .next t ∧ s.bitPos < t.bitPos

/-- A value read ahead that leads to no fault is an item of its alphabet, and the step is that item's. -/
theorem fetchValue_consumes {a : Alphabet} {r : Res Nat} (ha : a ∈ [.zlib, .bhdr, .cl, .ll, .dist])
    (hr : EndsPast p r) (hi : ∀ i : Instr, i.alphabet = a → exec i s = .next t → s.bitPos < t.bitPos)
    (e : (fetchValue a s r).outcome = .next t) (ht : t.phase ≠ .error) : Consumes s t := by
  cases r with
  | raised u => cases e; exact absurd hr ht
  | ok v u =>
    unfold fetchValue at e
    dsimp only at e
    split at e
    next i hd =>
      have hia := decode_alphabet hd
      exact ⟨i, hia ▸ ha, e, hi i hia e⟩
    · cases e

/-- What INFLATE fetches without a fault consumes a bit; the tables it decodes with are present and legal. -/
theorem fetchInflate_consumes (h : Inv s) (hp : s.phase = .inflate) (e : (fetchInflate s).outcome = .next t)
    (ht : t.phase ≠ .error) : Consumes s t := by
  unfold fetchInflate at e
  cases hx : s.ist <;> rw [hx] at e <;> dsimp only at e
  case zhdr =>
    exact fetchValue_consumes (by simp) (readZlibHeader_consumes s) (fun _ hi e => exec_zlib_consumes hi e ht) e ht
  case bhdr =>
    exact fetchValue_consumes (by simp) (readBlockHeader_consumes s) (fun _ hi e => exec_bhdr_consumes hi e ht) e ht
  case clseq =>
    obtain ⟨table, htab⟩ := Option.isSome_iff_exists.1 (h.tables.clseq hp hx).1
    have hd : EndsPast s.bitPos (huffDecode s.clTab s) := htab ▸ huffDecode_consumes (h.tables.cl _ htab)
    exact fetchValue_consumes (by simp) hd (fun _ hi e => exec_cl_consumes hd hi e ht) e ht
  case codes =>
    obtain ⟨table, htab⟩ := Option.isSome_iff_exists.1 (h.tables.codes hp hx).1
    have hd : EndsPast s.bitPos (huffDecode s.litTab s) := htab ▸ huffDecode_consumes (h.tables.lit _ htab)
    rw [h.tables.no_pending] at e
    exact fetchValue_consumes (by simp) hd (fun _ hi e => exec_ll_consumes hd hi e ht) e ht
  case idone => exact absurd hx (h.tables.not_idone hp)

/-- Settles O57: the step is an item of INFLATE that goes on; it has consumed a bit, it keeps Z, and the invariant keeps
the cursor within Z. -/
theorem inflateConsumesBits : Obligations.InflateConsumesBits := by
  intro s t h hhost hp e ht
  have hturn : (fetchInflate s).outcome = .next t := by
    rw [← e, step_eq_outcome]
    simp only [fetch, hhost, engineTurn, hp]
  obtain ⟨i, hi, ei, hlt⟩ := fetchInflate_consumes h hp hturn (by simp [ht])
  have hkept : Kept i s t := (exec_inflate_ran hi ei).elim (·.toKept) (·.toKept)
  exact ⟨hlt, (stepKeepsInvariant s t h e).cursor.bitPos_le, hkept.z (by rintro rfl; simp [Instr.alphabet] at hi)⟩

end Sys2Proof
end

section
/-! SUPPORT. UNFILTER: the row a filter item appends, the two faults, and the Paeth choice (43 R322 to R331). -/

namespace Sys2Proof

open Sys2Proof.Machine

variable {s : State} {i : Instr}

/-! ### A filter item and its row -/

/-- A filter item with a predictor is the row operation with it (43 R322, R324 to R328). -/
theorem exec_of_predictor (s : State) {pred : Byte → Byte → Byte → Byte} (hp : i.predictor = some pred) :
    exec i s = (rowOp pred s).outcome := by
  cases i <;> simp only [Instr.predictor, reduceCtorEq, Option.some.injEq] at hp <;> subst hp <;> rfl

/-- A filter item has a predictor, or it is FILT_INVALID. -/
theorem predictor_or_filtInvalid (hi : i.alphabet = .filter) :
    (∃ pred, i.predictor = some pred) ∨ ∃ tag, i = .filtInvalid tag := by
  cases i <;> simp only [Instr.alphabet, reduceCtorEq] at hi
  case filtInvalid tag => exact .inr ⟨tag, rfl⟩
  all_goals exact .inl ⟨_, rfl⟩

/-- Settles O43: the row operation appends the reconstruction of the row. -/
theorem filterReconstructsRow : Obligations.FilterReconstructsRow := by
  intro s i pred hp hb hw
  obtain ⟨t, e, ht⟩ := rowOp_appended pred s hw
  exact ⟨_, t, (exec_of_predictor s hp).trans e, reconRow_recon pred s.bpp _ _ hb, ht⟩

/-! ### The faults -/

/-- Whatever a filter item is, a row that is not whole faults in its fetch (43 R322). -/
theorem exec_filter_of_not_rowWhole (hi : i.alphabet = .filter) (h : ¬ RowWhole s) :
    exec i s = .next (faulted s .truncatedImageData s.row s.out.length) := by
  rcases predictor_or_filtInvalid hi with ⟨pred, hp⟩ | ⟨tag, rfl⟩
  · rw [exec_of_predictor s hp, rowOp, fetchRow_fault s h]
    rfl
  · simp only [exec, execFiltInvalid]
    rw [fetchRow_fault s h]
    rfl

/-- FILT_INVALID on a whole row faults with the row and the tag (43 R329). -/
theorem exec_filtInvalid_of_rowWhole (tag : Byte) (h : RowWhole s) :
    exec (.filtInvalid tag) s = .next (faulted s .invalidFilterType s.row tag.toNat) := by
  simp only [exec, execFiltInvalid]
  rw [fetchRow_ok s h]
  rfl

/-- Settles O44: every filter item fetches its row first, and FILT_INVALID then faults. -/
theorem badRowsFault : Obligations.BadRowsFault :=
  fun _ _ tag hi => ⟨exec_filter_of_not_rowWhole hi, exec_filtInvalid_of_rowWhole tag⟩

/-! ### The Paeth predictor -/

/-- Settles O45: each case is a branch of the predictor; on row 0, where b and c are 0, the distance of a is 0, and before
the first pixel, where a and c are 0, the distance of a is b, which is 0 only if b is a. -/
theorem paethPredictsNearest : Obligations.PaethPredictsNearest := by
  intro a b c d
  have not_a (ha : d b < d a ∨ d c < d a) : ¬ (d a ≤ d b ∧ d a ≤ d c) := by omega
  refine ⟨fun hab hac => if_pos ⟨hab, hac⟩, fun ha hbc => (if_neg (not_a ha)).trans (if_pos hbc),
    fun ha hcb => (if_neg (not_a ha)).trans (if_neg hcb.not_ge), if_pos (by simp), ?_⟩
  by_cases h : b = 0
  · subst h
    rfl
  · have hb : b.toNat ≠ 0 := fun e => h (BitVec.eq_of_toNat_eq e)
    exact (if_neg (by simp [hb])).trans (if_pos (by simp))

end Sys2Proof
end

section
/-! SUPPORT. EXTRACT: what GetPixel answers in each of its cases, and how PLEN, PIXEL and PIXEL_READ use it (44 R360 to
R374). -/

namespace Sys2Proof

open Sys2Proof.Machine

variable {s : State} {x y : Nat}

/-! ### The checks of GetPixel -/

/-- Before the image is reconstructed there is no pixel (44 R360). -/
theorem getPixel_of_not_pixValid (hv : s.pixValid = false) : s.getPixel x y = .error ⟨.noPixels, x, y⟩ :=
  if_pos hv

/-- Outside the image there is no pixel (44 R360). -/
theorem getPixel_of_outside (hv : s.pixValid = true) (h : s.width.toNat ≤ x ∨ s.height.toNat ≤ y) :
    s.getPixel x y = .error ⟨.pixelCoordinates, x, y⟩ :=
  (if_neg (by simp [hv])).trans (if_pos h)

/-- Inside the image, at a depth other than 8, the answer is that of the open parameter SampleFn (44 R361). -/
theorem getPixel_of_not_eight (hv : s.pixValid = true) (hx : x < s.width.toNat) (hy : y < s.height.toNat)
    (hd : s.bitDepth ≠ 8) : s.getPixel x y =
      if s.sampleFnPresent then .ok (Config.sampleFn s.sampleView x y) else .error ⟨.sampleFn, x, y⟩ :=
  (if_neg (by simp [hv])).trans ((if_neg (by omega)).trans (if_pos hd))

/-- Settles O47: each check is reached when those before it pass. -/
theorem pixelChecksInOrder : Obligations.PixelChecksInOrder := by
  intro s x y
  refine ⟨getPixel_of_not_pixValid, getPixel_of_outside, fun hv hx hy hd hf => ?_, fun hv hx hy hd hf => ?_⟩
  · rw [getPixel_of_not_eight hv hx hy hd, hf]
    rfl
  · exact ⟨_, by rw [getPixel_of_not_eight hv hx hy hd, if_pos hf]⟩

/-! ### A pixel at depth 8 -/

/-- An index below the number of entries is its entry, fully opaque (44 R364). -/
theorem paletteChannels_of_entry {pal : List Rgb} {k : Nat} {e : Rgb} (h : pal[k]? = some e) :
    paletteChannels pal k = .ok ⟨e.r, e.g, e.b, 255⟩ := by
  rw [paletteChannels, h]

/-- An index past the entries faults with both numbers (44 R367). -/
theorem paletteChannels_of_length_le {pal : List Rgb} {k : Nat} (h : pal.length ≤ k) :
    paletteChannels pal k = .error ⟨.paletteIndex, k, pal.length⟩ := by
  rw [paletteChannels, List.getElem?_eq_none h]

/-- A palette image's pixel is looked up by its byte (44 R364). -/
theorem channelsAt_palette {o : Nat} (hc : s.colorType = .palette) :
    s.channelsAt o = paletteChannels s.palette (byteAt s.pix o).toNat := by
  rw [State.channelsAt, hc]
  rfl

/-- Settles O46: past its checks GetPixel is the sample of the colour type, which for a palette is a lookup. -/
theorem pixelByColourType : Obligations.PixelByColourType := by
  intro s x y hv hx hy hd o b
  rw [getPixel_eight s x y hv hx hy hd]
  refine ⟨fun hc => ?gray, fun hc => ?rgb, fun e hc he => ?entry, fun hc hl => ?past, fun hc => ?grayAlpha,
    fun hc => ?rgba⟩
  case entry => rw [channelsAt_palette hc]; exact paletteChannels_of_entry he
  case past => rw [channelsAt_palette hc]; exact paletteChannels_of_length_le hl
  all_goals rw [State.channelsAt, hc]

/-! ### The operations -/

/-- A walk step that leaves a full payload is the end of the run (44 R373). -/
theorem endExtract_of_full (h : s.payload.length = s.plen.toNat) : endExtract s = completePayload s := if_pos h

/-- A walk step that leaves a short payload goes on (44 R370). -/
theorem endExtract_of_short (h : s.payload.length ≠ s.plen.toNat) : endExtract s = s := if_neg h

/-- Settles O48: the pixel's value is compared with the ceiling, then with 0. -/
theorem plenReadsLength : Obligations.PlenReadsLength :=
  ⟨fun s c n hc hn => execPlen_cases s c n hc hn.symm, execPlen_fault⟩

/-- Settles O49: the pixel is read where the wrap leaves the walk, and the payload it extends is full or short. -/
theorem pixelAppendsChannels : Obligations.PixelAppendsChannels := by
  intro s x y hxy
  refine ⟨fun c hc => ?_, fun f => execPixel_fault s x y f hxy⟩
  intro payload
  have hstep : exec .pixel s = .next (endExtract { s with px := x + 1, py := y, payload := payload }) :=
    execPixel_ok s x y c hxy hc
  refine ⟨fun hfull => ?_, fun hshort => ?_⟩
  · rw [hstep, endExtract_of_full hfull]
    rfl
  · rw [hstep, endExtract_of_short hshort]

/-- Outside a busy phase a pixel that is read is reported in PIX_DATA, with status 0 (44 R374). -/
theorem execPixelRead_ok {c : Channels} (hb : s.phase.busy = false)
    (hc : s.getPixel s.pixX.toNat s.pixY.toNat = .ok c) :
    execPixelRead s = .next { s with pixData := BitVec.ofNat 32 (channelsValue c), pixStatus := 0 } := by
  rw [execPixelRead, if_neg (by simp [hb]), hc]

/-- Outside a busy phase the fault of a pixel is reported in PIX_STATUS alone, by its class (44 R374). -/
theorem execPixelRead_fault {f : FaultRecord} (hb : s.phase.busy = false)
    (hf : s.getPixel s.pixX.toNat s.pixY.toNat = .error f) :
    execPixelRead s = .next { s with pixStatus := BitVec.ofNat 8 f.detail.cls.code } := by
  rw [execPixelRead, if_neg (by simp [hb]), hf]

/-- Settles O8: the command is ignored in a busy phase, and otherwise reports what GetPixel answers. -/
theorem pixelReadReports : Obligations.PixelReadReports :=
  fun _ => ⟨fun hb => if_pos hb, fun _ => execPixelRead_ok, fun _ => execPixelRead_fault⟩

end Sys2Proof
end

section
/-! What a fault leaves: an engine item either keeps out of ERROR, or it has latched a fault and emptied the payload
(60 R403, R404). -/

namespace Sys2Proof

open Sys2Proof.Machine

variable {s t : State} {i : Instr} {v : Bool}

/-- Between the reads of an operation: no fault, pixValid still v. -/
structure Unfaulted (v : Bool) (s : State) : Prop where
  phase : s.phase ≠ .error
  pixValid : s.pixValid = v

/-- Just after a fault. -/
structure NoPayload (v : Bool) (s : State) : Prop where
  latched : s.err.isSome = true
  payload : s.payload = []
  payloadValid : s.payloadValid = false
  pixValid : s.pixValid = v

theorem Unfaulted.fault (h : Unfaulted v s) (d : FaultDetail) (m n : Nat) : NoPayload v (faulted s d m n) :=
  ⟨rfl, rfl, rfl, h.pixValid⟩

theorem unfaulted_outKeeps (v : Bool) : OutKeeps (Unfaulted v) (NoPayload v) where
  cursor _ _ h := { h with }
  fault _ d m n h := h.fault d m n
  out _ _ h := { h with }

theorem unfaulted_chunkKeeps (v : Bool) : ChunkKeeps (Unfaulted v) (NoPayload v) where
  cursor _ _ h := { h with }
  fault _ d m n h := h.fault d m n

/-- What an item answers: it has not faulted, or it has and left no payload. -/
def FaultsClean (v : Bool) (t : State) : Prop := t.phase ≠ .error ∨ NoPayload v t

theorem FaultsClean.of_outcome {r : Res Unit} (h : r.Ends (·.phase ≠ .error) (NoPayload v)) (e : r.outcome = .next t) :
    FaultsClean v t :=
  Res.Ends.of_outcome h e

theorem FaultsClean.of_keeps (h : Unfaulted v t ∨ NoPayload v t) : FaultsClean v t := h.imp_left (·.phase)

/-! ### PARSE -/

/-- The items of PARSE. -/
theorem exec_parse_faultsClean (hi : i.alphabet = .sig ∨ i.alphabet = .chunk) (h : Unfaulted v s)
    (e : exec i s = .next t) : FaultsClean v t := by
  have k := unfaulted_chunkKeeps v
  have hc := chunkAfterHeader_keeps k h
  cases i <;> simp only [Instr.alphabet, reduceCtorEq, or_self, or_false, false_or] at hi <;> simp only [exec] at e
  case sig =>
    unfold execSig at e
    rcases memRead_cases 0 0 8 s with ⟨-, hr⟩ | ⟨-, hr⟩ <;> rw [hr] at e <;> refine FaultsClean.of_outcome ?_ e
    · rw [Res.bind_ok]
      split
      · exact h.phase
      · exact h.fault _ _ _
    · exact h.fault _ _ _
  case ihdr =>
    refine FaultsClean.of_outcome ((chunkFrame_keeps k h).bind fun c u h => ?_) e
    split_ifs
    · exact h.fault _ _ _
    · exact h.fault _ _ _
    refine (setDescriptor_keeps k (fun _ _ _ _ _ _ _ _ h => { h with }) h _ _).bind fun _ u h => ?_
    dsimp only [Res.ends_ok]
    split
    · exact nofun
    · exact h.phase
  case plte =>
    refine FaultsClean.of_outcome (hc.bind fun c u h => ?_) e
    split_ifs
    case neg => exact h.phase
    all_goals exact h.fault _ _ _
  case iend =>
    refine FaultsClean.of_outcome (hc.bind fun c u h => ?_) e
    split
    · exact h.fault _ _ _
    · exact nofun
  case idat | skip => exact FaultsClean.of_outcome (hc.bind fun c u h => by exact h.phase) e

/-! ### INFLATE -/

/-- The end of UNFILTER enters EXTRACT or goes on (43 R331). -/
theorem endUnfilter_phase_ne_error (h : s.phase ≠ .error) : (endUnfilter s).phase ≠ .error := by
  unfold endUnfilter
  split
  · exact h
  · exact nofun

/-- The end of a block: the interlace fault comes before pixValid may be set (43 R320, R331). -/
theorem endBlock_faultsClean (h : Unfaulted v s) : (endBlock s).Ends (·.phase ≠ .error) (NoPayload v) := by
  unfold endBlock enterUnfilter
  dsimp only
  split_ifs
  · exact ⟨rfl, rfl, rfl, h.pixValid⟩
  · exact endUnfilter_phase_ne_error nofun
  · exact h.phase

/-- A stored block ends as its last read, or as the end of the block it reaches (42 R243). -/
theorem storedBody_ends {P P' Q : State → Prop} (k : OutKeeps P Q) (hend : ∀ u, P u → (endBlock u).Ends P' Q)
    (h : P s) : (storedBody s).Ends P' Q := by
  unfold storedBody
  have ha : P s.alignToByte := k.cursor _ _ h
  refine (getBits_keeps k.toBitsKeep ha _).bind fun len u h => (getBits_keeps k.toBitsKeep h _).bind fun nlen u h => ?_
  split
  · exact k.fault _ _ _ _ h
  · exact (copyStored_keeps k len h).bind fun _ u h => hend u h

/-- The items of INFLATE: only the two that end a block write pixValid (42 R243, R252). -/
theorem exec_inflate_faultsClean (hi : i.alphabet ∈ [.zlib, .bhdr, .cl, .ll, .dist]) (h : Unfaulted v s)
    (e : exec i s = .next t) : FaultsClean v t := by
  have ko := unfaulted_outKeeps v
  have k := ko.toBitsKeep
  have hw : ∀ u f b, Unfaulted v u → Unfaulted v { u with bfinal := f, btype := b } := fun _ _ _ h => { h with }
  simp only [List.mem_cons, List.not_mem_nil, or_false] at hi
  rcases hi with hi | hi | hi | hi | hi
  · exact .of_keeps (exec_zlib_keeps k (fun _ _ h => { h with }) hi h e)
  · cases i <;> simp only [Instr.alphabet, reduceCtorEq] at hi
    case blkStored =>
      exact .of_outcome ((takeBlockHeader_keeps k hw h _ _).bind fun _ _ h =>
        storedBody_ends ko (fun _ => endBlock_faultsClean) h) e
    case blkFixed => exact .of_keeps (exec_blkFixed_keeps k hw (fun _ _ _ _ h => { h with }) h e)
    case blkDynamic => exact .of_keeps (exec_blkDynamic_keeps k hw (fun _ _ _ _ _ _ _ _ h => { h with }) h e)
    case blkInvalid => exact .of_keeps (exec_blkInvalid_keeps k hw h e)
  · exact .of_keeps (exec_cl_keeps k (fun _ _ _ _ _ h => { h with }) hi h e)
  · by_cases hne : i = .eob
    · subst hne
      exact .of_outcome ((huffDecode_keeps k h _).bind fun _ _ h => endBlock_faultsClean h) e
    · exact .of_keeps (exec_ll_keeps ko hi hne h e)
  · exact .of_keeps (exec_dist_keeps ko (fun _ h => { h with }) hi h e)

/-! ### UNFILTER and EXTRACT -/

/-- The items of UNFILTER: a row that faults has not been appended (43 R322, R329). -/
theorem exec_filter_faultsClean (hi : i.alphabet = .filter) (h : Unfaulted v s) (e : exec i s = .next t) :
    FaultsClean v t := by
  by_cases hw : RowWhole s
  swap
  · cases (exec_filter_of_not_rowWhole hi hw).symm.trans e
    exact .inr (h.fault _ _ _)
  rcases predictor_or_filtInvalid hi with ⟨pred, hp⟩ | ⟨tag, rfl⟩
  · obtain ⟨u, hu, hrow⟩ := rowOp_appended pred s hw
    cases hu.symm.trans ((exec_of_predictor s hp).symm.trans e)
    unfold RowAppended at hrow
    split at hrow <;> subst hrow
    · exact .inl h.phase
    · exact .inl nofun
  · cases (exec_filtInvalid_of_rowWhole tag hw).symm.trans e
    exact .inr (h.fault _ _ _)

/-- The items of EXTRACT. -/
theorem exec_seq_faultsClean (hi : i.alphabet = .seq) (h : Unfaulted v s) (e : exec i s = .next t) :
    FaultsClean v t := by
  cases i <;> simp only [Instr.alphabet, reduceCtorEq] at hi <;> simp only [exec] at e
  case plen =>
    rcases execPlen_next e with ⟨d, m, n, rfl⟩ | rfl | ⟨n, -, -, rfl⟩
    · exact .inr (h.fault _ _ _)
    · exact .inl nofun
    · exact .inl h.phase
  case pixel =>
    rcases execPixel_next e with ⟨x, y, d, m, n, rfl⟩ | ⟨x, y, c, rfl⟩
    · exact .inr ⟨rfl, rfl, rfl, h.pixValid⟩
    · unfold endExtract
      split
      · exact .inl nofun
      · exact .inl h.phase

/-- Settles O52: an item that ends in ERROR has faulted, since no other write of an engine item is of that phase. -/
theorem faultLeavesNoPayload : Obligations.FaultLeavesNoPayload := by
  intro i s t hi hs e ht
  have h : Unfaulted s.pixValid s := ⟨hs, rfl⟩
  have hclean : FaultsClean s.pixValid t := by
    cases ha : i.alphabet with
    | ctrl | pixCmd => cases i <;> simp [Instr.alphabet, Instr.isEngine] at ha hi
    | sig => exact exec_parse_faultsClean (.inl ha) h e
    | chunk => exact exec_parse_faultsClean (.inr ha) h e
    | zlib | bhdr | cl | ll | dist => exact exec_inflate_faultsClean (by simp [ha]) h e
    | filter => exact exec_filter_faultsClean ha h e
    | seq => exact exec_seq_faultsClean ha h e
  obtain ⟨hl, hp, hpv, hpix⟩ := hclean.resolve_left (not_not.2 ht)
  exact ⟨hl, hp, hpv, hpix⟩

end Sys2Proof
end

section
/-! The way out of ERROR: the engine does nothing there, and of the host's accesses only START and power-on reset write
the phase or the latch (60 R407 to R409). -/

namespace Sys2Proof

open Sys2Proof.Machine

variable {s t : State}

/-- The phase and the latch are as before. -/
def SameLatch (s t : State) : Prop := t.phase = s.phase ∧ t.err = s.err

theorem writeRegister_sameLatch (s : State) (offset : Nat) (w : Word) : SameLatch s (s.writeRegister offset w) := by
  unfold State.writeRegister
  split_ifs <;> exact ⟨rfl, rfl⟩

theorem writeWindow_sameLatch {w : Window} {a : Nat} {b : Byte} (e : s.writeWindow w a b = .ok t) : SameLatch s t := by
  unfold State.writeWindow at e
  split at e
  · split_ifs at e
    cases e
    exact ⟨rfl, rfl⟩
  all_goals cases e

/-- The outcome of a PIXEL_READ goes to PIX_STATUS, never to the latch (44 R374). -/
theorem execPixelRead_sameLatch (e : execPixelRead s = .next t) : SameLatch s t := by
  unfold execPixelRead at e
  split at e
  · cases e
    exact ⟨rfl, rfl⟩
  · split at e <;> cases e <;> exact ⟨rfl, rfl⟩

/-- The word written is a START (10 R46). -/
theorem getLsbD_zero_of_decode_ctrl {w : Word} {i : Instr} (hd : decode .ctrl w.toNat = .ok i) : w.getLsbD 0 = true := by
  by_contra h
  rw [decode_command_clear (Bool.eq_false_iff.2 h) (.inl rfl)] at hd
  cases hd

/-- A register write of the host that is no START keeps the latch. -/
theorem fetchRegisterWrite_sameLatch {offset width : Nat} {w : Word}
    (e : (fetchRegisterWrite offset width w s).outcome = .next t) :
    SameLatch s t ∨ (offset = 0x00 ∧ width = 4 ∧ w.getLsbD 0 = true) := by
  unfold fetchRegisterWrite at e
  split at e
  · cases e
  next hok =>
  split at e
  · cases e
    exact .inl (writeRegister_sameLatch s offset w)
  next a ha =>
  split at e
  next i hd =>
    unfold commandAlphabet at ha
    split_ifs at ha with h0 h3c <;> cases ha
    · have hwidth : width = 4 := by simpa [registerAccessOk, h0] using hok
      exact .inr ⟨h0, hwidth, getLsbD_zero_of_decode_ctrl hd⟩
    · simp only [decode] at hd
      split_ifs at hd
      cases hd
      exact .inl (execPixelRead_sameLatch e)
  · cases e
    exact .inl (writeRegister_sameLatch s offset w)

/-- In ERROR the engine's turn changes nothing (60 R408). -/
theorem engineTurn_of_error (h : s.phase = .error) : engineTurn s = .done s := by
  simp only [engineTurn, h]

/-- A turn taken in ERROR keeps the latch, unless it is a START or a power-on reset. -/
theorem hostTurn_sameLatch {ev : HostEvent} (hp : s.phase = .error) (e : (hostTurn ev s).outcome = .next t) :
    SameLatch s t ∨ (∃ w, ev = .writeReg 0x00 4 w ∧ w.getLsbD 0 = true) ∨ ev = .powerOn := by
  cases ev <;> simp only [hostTurn] at e
  case pass =>
    rw [engineTurn_of_error hp] at e
    cases e
    exact .inl ⟨rfl, rfl⟩
  case writeReg offset width w =>
    rcases fetchRegisterWrite_sameLatch e with h | ⟨rfl, rfl, hw⟩
    · exact .inl h
    · exact .inr (.inl ⟨w, rfl, hw⟩)
  case powerOn => exact .inr (.inr rfl)
  case writeWindow =>
    split at e
    next hw => cases e; exact .inl (writeWindow_sameLatch hw)
    · cases e
  all_goals
    split at e <;> cases e
    exact .inl ⟨rfl, rfl⟩

/-- Settles O53: with no host access due nothing happens in ERROR; an access due keeps the latch or is one of the two. -/
theorem errorLeftOnlyByStart : Obligations.ErrorLeftOnlyByStart := by
  intro s t hp e
  rw [step_eq_outcome] at e
  cases hh : s.host with
  | nil =>
    simp only [fetch, hh, engineTurn_of_error hp] at e
    cases e
    exact .inl ⟨hp, rfl⟩
  | cons ev rest =>
    rw [fetch_of_host hh] at e
    rcases hostTurn_sameLatch (s := { s with host := rest }) hp e with ⟨hphase, herr⟩ | ⟨w, rfl, hw⟩ | rfl
    · exact .inl ⟨hphase.trans hp, herr⟩
    · exact .inr (.inl ⟨w, rest, rfl, hw⟩)
    · exact .inr (.inr ⟨rest, rfl⟩)

end Sys2Proof
end

section
/-! Every run ends: with no host access due a step always answers a state, and a step that stays in its stage leaves it
less to do; the stages follow one another to a terminal phase (60 R415). -/

namespace Sys2Proof

open Sys2Proof.Machine

variable {s t : State} {i : Instr}

/-! ### A step answers a state -/

/-- Every item answers a state: a fault of the core is state too (60 R403). -/
theorem exec_eq_next (i : Instr) (s : State) : ∃ t, exec i s = .next t := by
  cases i
  case start =>
    simp only [exec, execStart]
    split_ifs <;> exact ⟨_, rfl⟩
  case pixelRead =>
    simp only [exec, execPixelRead]
    split_ifs
    · exact ⟨_, rfl⟩
    · split <;> exact ⟨_, rfl⟩
  all_goals exact Res.outcome_eq_next _

/-- What an operation reads, if it goes on, has p. -/
def Machine.Res.Yields {α : Type} (p : α → Prop) : Res α → Prop
  | .ok v _ => p v
  | .raised _ => True

theorem Machine.Res.Yields.bind {α β : Type} {p : α → Prop} {q : β → Prop} {r : Res α} {f : α → State → Res β}
    (h : r.Yields p) (hf : ∀ v s, p v → (f v s).Yields q) : (r.bind f).Yields q := by
  cases r with
  | ok v s => exact hf v s h
  | raised s => trivial

theorem getBits_yields (n : Nat) (s : State) : (getBits n s).Yields (· < 2 ^ n) := by
  rcases getBits_cases n s with ⟨-, e⟩ | ⟨-, e⟩ <;> rw [e]
  · exact bitsAt_lt _ _ _
  · trivial

/-- A header is two bytes (30 R116). -/
theorem readZlibHeader_yields (s : State) : (readZlibHeader s).Yields (· < 2 ^ 16) :=
  (getBits_yields 8 s).bind fun cmf u hcmf => (getBits_yields 8 u).bind fun flg _ hflg => by
    change cmf * 256 + flg < 2 ^ 16
    omega

/-- A block header is one bit and two (30 R117). -/
theorem readBlockHeader_yields (s : State) : (readBlockHeader s).Yields (· < 8) :=
  (getBits_yields 1 s).bind fun f _ hf => (getBits_yields 2 _).bind fun t _ ht => by
    change f + 2 * t < 8
    omega

/-- The symbols of a legal table are those of its alphabet (41 R207). -/
theorem huffDecode_yields {n : Nat} {table : HuffTable} (hok : TableOk n table) (s : State) :
    (huffDecode (some table) s).Yields (· < n) := by
  rcases huffDecode_cases (some table) s with ⟨l, symbol, hc, e⟩ | ⟨-, e⟩ | ⟨_, _, -, -, e⟩ <;> rw [e]
  · have hmem := List.mem_of_getElem? (Option.join_eq_some_iff.1 hc.selected)
    exact (hok.entry _ hmem).2.2
  all_goals trivial

theorem readChunkType_yields (s : State) : (readChunkType s).Yields (· < 2 ^ 32) := by
  unfold readChunkType
  cases chunkHead s with
  | ok head u => exact head.2.isLt
  | raised u => trivial

theorem readTag_yields (s : State) : (readTag s).Yields (· < 2 ^ 8) := by
  unfold readTag
  cases fetchRow s with
  | ok row u => exact row.1.isLt
  | raised u => trivial

/-- How many values, from 0 on, the decoder accepts of an alphabet the engine reads ahead (30 R134); the others have
none here. -/
def valueCount : Alphabet → Nat
  | .chunk => 2 ^ 32
  | .zlib => 2 ^ 16
  | .bhdr => 8
  | .cl => 19
  | .ll => 288
  | .dist => 32
  | .filter => 2 ^ 8
  | .ctrl | .pixCmd | .sig | .seq => 0

theorem decode_of_lt_valueCount {a : Alphabet} {v : Nat} (h : v < valueCount a) : ∃ i, decode a v = .ok i := by
  cases a <;> simp only [valueCount, Nat.not_lt_zero] at h <;> simp only [decode]
  case chunk | bhdr | filter => exact ⟨_, if_neg (Nat.not_le.2 h)⟩
  case zlib =>
    rw [if_neg (Nat.not_le.2 h)]
    split <;> exact ⟨_, rfl⟩
  case cl =>
    split_ifs
    case neg => omega
    all_goals exact ⟨_, rfl⟩
  case ll =>
    split_ifs
    · exact ⟨_, rfl⟩
    · exact ⟨_, rfl⟩
    · split <;> exact ⟨_, rfl⟩
  case dist =>
    rw [if_pos h]
    split <;> exact ⟨_, rfl⟩

/-- A value read ahead in its alphabet's range leads to a next state. -/
theorem fetchValue_answers {a : Alphabet} {r : Res Nat} (h : r.Yields (· < valueCount a)) :
    ∃ t, (fetchValue a s r).outcome = .next t := by
  cases r with
  | raised u => exact ⟨u, rfl⟩
  | ok v u =>
    obtain ⟨i, hd⟩ := decode_of_lt_valueCount h
    rw [fetchValue_of_decode rfl hd]
    exact exec_eq_next i s

theorem fetchInflate_answers (h : Inv s) (hp : s.phase = .inflate) : ∃ t, (fetchInflate s).outcome = .next t := by
  unfold fetchInflate
  cases hx : s.ist <;> dsimp only
  case zhdr => exact fetchValue_answers (readZlibHeader_yields s)
  case bhdr => exact fetchValue_answers (readBlockHeader_yields s)
  case clseq =>
    obtain ⟨table, htab⟩ := Option.isSome_iff_exists.1 (h.tables.clseq hp hx).1
    exact fetchValue_answers (htab ▸ huffDecode_yields (h.tables.cl _ htab) s)
  case codes =>
    obtain ⟨table, htab⟩ := Option.isSome_iff_exists.1 (h.tables.codes hp hx).1
    rw [h.tables.no_pending]
    exact fetchValue_answers (htab ▸ huffDecode_yields (h.tables.lit _ htab) s)
  case idone => exact absurd hx (h.tables.not_idone hp)

theorem engineTurn_answers (h : Inv s) : ∃ t, (engineTurn s).outcome = .next t := by
  unfold engineTurn
  cases hp : s.phase <;> dsimp only
  case parse =>
    split
    · exact exec_eq_next .sig s
    · exact fetchValue_answers (readChunkType_yields s)
  case inflate => exact fetchInflate_answers h hp
  case unfilter =>
    split
    · exact fetchValue_answers (readTag_yields s)
    · exact ⟨_, rfl⟩
  case extract =>
    split
    · exact exec_eq_next .plen s
    · exact exec_eq_next .pixel s
  all_goals exact ⟨s, rfl⟩

theorem step_eq_engineTurn (hhost : s.host = []) : step s = (engineTurn s).outcome := by
  rw [step_eq_outcome, fetch, hhost]

/-! ### The item a step runs -/

/-- The items a busy state may run with no host access due, and what it checks before it runs them (30 R131). -/
inductive Due (s : State) : Instr → Prop
  | sig : s.phase = .parse → s.pos = 0 → Due s .sig
  | chunk {i : Instr} : s.phase = .parse → i.alphabet = .chunk → Due s i
  | inflate {i : Instr} : s.phase = .inflate → i.alphabet ∈ [.zlib, .bhdr, .cl, .ll, .dist] → Due s i
  | filter {i : Instr} : s.phase = .unfilter → i.alphabet = .filter → Due s i
  | plen : s.phase = .extract → s.px = 0 → Due s .plen
  | pixel : s.phase = .extract → s.px ≠ 0 → Due s .pixel

/-- The two commands have alphabets of their own (30 R134). -/
theorem isEngine_of_alphabet (h : i.alphabet ∉ [.ctrl, .pixCmd]) : i.isEngine = true := by
  cases i
  case start | pixelRead => simp [Instr.alphabet] at h
  all_goals rfl

theorem Due.isEngine (h : Due s i) : i.isEngine = true := by
  refine isEngine_of_alphabet ?_
  cases h with
  | sig | plen | pixel => decide
  | chunk _ hi | filter _ hi => simp [hi]
  | inflate _ hi =>
    intro hc
    simp only [List.mem_cons, List.not_mem_nil, or_false] at hi hc
    rcases hc with hc | hc <;> simp [hc] at hi

/-- A value read ahead that leads to no fault is an item of its alphabet. -/
theorem fetchValue_item {a : Alphabet} {r : Res Nat} (hr : r.Ends (fun _ => True) (·.phase = .error))
    (e : (fetchValue a s r).outcome = .next t) (ht : t.phase ≠ .error) :
    ∃ i : Instr, i.alphabet = a ∧ exec i s = .next t := by
  cases r with
  | raised u => cases e; exact absurd hr ht
  | ok v u =>
    unfold fetchValue at e
    dsimp only at e
    split at e
    next i hd => exact ⟨i, decode_alphabet hd, e⟩
    · cases e

theorem readChunkType_raises (s : State) : (readChunkType s).Ends (fun _ => True) (·.phase = .error) := by
  unfold readChunkType chunkHead
  rcases memRead_cases s.pos s.pos 8 s with ⟨-, e⟩ | ⟨-, e⟩ <;> rw [e]
  · trivial
  · exact rfl

theorem readTag_raises (s : State) : (readTag s).Ends (fun _ => True) (·.phase = .error) := by
  unfold readTag
  rcases fetchRow_cases s with ⟨-, e⟩ | ⟨-, e⟩ <;> rw [e]
  · trivial
  · exact rfl

/-- What the engine's turn runs, unless it faults, is an item due; the invariant leaves it no other transition. -/
theorem engineTurn_due (h : Inv s) (hb : s.phase.busy = true) (e : (engineTurn s).outcome = .next t)
    (ht : t.phase ≠ .error) : ∃ i, Due s i ∧ exec i s = .next t := by
  unfold engineTurn at e
  cases hp : s.phase <;> rw [hp] at e hb <;> dsimp only at e
  case parse =>
    split at e
    next hpos => exact ⟨.sig, .sig hp hpos, e⟩
    · obtain ⟨i, hi, e⟩ := fetchValue_item (readChunkType_raises s) e ht
      exact ⟨i, .chunk hp hi, e⟩
  case inflate =>
    obtain ⟨i, hi, e, -⟩ := fetchInflate_consumes h hp e ht
    exact ⟨i, .inflate hp hi, e⟩
  case unfilter =>
    rw [if_pos (h.pixels.rows hp).2.1] at e
    obtain ⟨i, hi, e⟩ := fetchValue_item (readTag_raises s) e ht
    exact ⟨i, .filter hp hi, e⟩
  case extract =>
    split at e
    next hx => exact ⟨.plen, .plen hp hx, e⟩
    next hx => exact ⟨.pixel, .pixel hp hx, e⟩
  all_goals cases hb


/-! ### What a stage has left to do -/

/-- The stages from a phase to the end of the run. -/
def stagesLeft : Phase → Nat
  | .parse => 4
  | .inflate => 3
  | .unfilter => 2
  | .extract => 1
  | .idle | .done | .doneHeader | .error => 0

/-- What the stage of a state has left: bytes of IN, bits of Z, rows, or bytes of the payload, whose number PLEN reads and
the ceiling bounds. -/
def workLeft (s : State) : Nat :=
  match s.phase with
  | .parse => s.inLen.toNat - s.pos
  | .inflate => 8 * s.z.length - s.bitPos
  | .unfilter => s.height.toNat - s.row
  | .extract => if s.px = 0 then Config.payloadCeiling + 1 else s.plen.toNat - s.payload.length
  | .idle | .done | .doneHeader | .error => 0

/-- An operation that goes on leaves the cursor of PARSE past p; one that faults leaves ERROR. -/
def MovesPast {α : Type} (p : Nat) (r : Res α) : Prop := r.Ends (p < ·.pos) (·.phase = .error)

theorem MovesPast.bind {α β : Type} {p : Nat} {r : Res α} {f : α → State → Res β} (h : MovesPast p r)
    (hf : ∀ v u, p < u.pos → MovesPast p (f v u)) : MovesPast p (r.bind f) :=
  Res.Ends.bind h hf

theorem MovesPast.of_outcome {p : Nat} {r : Res Unit} (h : MovesPast p r) (e : r.outcome = .next t)
    (ht : t.phase ≠ .error) : p < t.pos :=
  (Res.Ends.of_outcome h e).resolve_right ht

/-- A check before a fault or a write, which is not of the cursor. -/
theorem MovesPast.check {α : Type} {p : Nat} {c : Prop} [Decidable c] {x : α} {u : State} {d : FaultDetail} {j k : Nat}
    (h : p < u.pos) : MovesPast p (if c then .ok x u else raiseFault d j k s) := by
  split
  · exact h
  · exact rfl

theorem setColorType_movesPast {p : Nat} (h : p < s.pos) (a : Nat) (ct : Byte) : MovesPast p (setColorType a ct s) := by
  unfold setColorType
  split
  · exact rfl
  · exact .check h

/-- No setter of IHDR moves the cursor (40 R155 to R161). -/
theorem setDescriptor_movesPast {p : Nat} (h : p < s.pos) (a : Nat) (data : List Byte) :
    MovesPast p (setDescriptor a data s) :=
  MovesPast.bind (.check h) fun _ _ hu => (setColorType_movesPast hu a _).bind fun _ _ hu =>
    MovesPast.bind (.check hu) fun _ _ hu => MovesPast.bind (.check hu) fun _ _ hu => .check hu

/-- The frame of a chunk is 12 bytes and its data (40 R152). -/
theorem chunkFrame_movesPast (s : State) : MovesPast s.pos (chunkFrame s) := by
  rcases chunkFrame_cases s with ⟨n, type, data, -, e⟩ | ⟨-, e⟩ | ⟨-, -, e⟩ | ⟨-, -, e⟩ <;> rw [e]
  · change s.pos < s.pos + 12 + n
    omega
  all_goals exact rfl

theorem chunkAfterHeader_movesPast (s : State) : MovesPast s.pos (chunkAfterHeader s) :=
  (chunkFrame_movesPast s).bind fun _ _ hu => .check hu

/-- A chunk item that goes on has moved the cursor past its frame. -/
theorem exec_chunk_moves (hi : i.alphabet = .chunk) (e : exec i s = .next t) (ht : t.phase ≠ .error) :
    s.pos < t.pos := by
  have hc := chunkAfterHeader_movesPast s
  cases i <;> simp only [Instr.alphabet, reduceCtorEq] at hi <;> simp only [exec] at e
  case ihdr =>
    refine ((chunkFrame_movesPast s).bind fun c u hu => ?_).of_outcome e ht
    split_ifs
    · exact rfl
    · exact rfl
    · exact (setDescriptor_movesPast hu _ _).bind fun _ _ hv => hv
  case plte =>
    refine (hc.bind fun c u hu => ?_).of_outcome e ht
    split_ifs
    case neg => exact hu
    all_goals exact rfl
  case iend =>
    refine (hc.bind fun c u hu => ?_).of_outcome e ht
    split
    · exact rfl
    · exact hu
  case idat | skip => exact (hc.bind fun _ _ hu => by exact hu).of_outcome e ht

/-- The signature that is read moves the cursor to the first chunk (40 R151). -/
theorem exec_sig_moves (hpos : s.pos = 0) (e : exec .sig s = .next t) (ht : t.phase ≠ .error) : s.pos < t.pos := by
  refine MovesPast.of_outcome ?_ e ht
  rcases memRead_cases 0 0 8 s with ⟨-, hr⟩ | ⟨-, hr⟩ <;> rw [hr]
  · exact .check (hpos ▸ Nat.zero_lt_succ 7)
  · exact rfl

/-- A filter item that goes on has done its row (43 R322). -/
theorem exec_filter_row (hi : i.alphabet = .filter) (e : exec i s = .next t) (ht : t.phase ≠ .error) :
    t.row = s.row + 1 := by
  by_cases hw : RowWhole s
  swap
  · cases (exec_filter_of_not_rowWhole hi hw).symm.trans e
    exact absurd rfl ht
  rcases predictor_or_filtInvalid hi with ⟨pred, hp⟩ | ⟨tag, rfl⟩
  · obtain ⟨u, hu, hrow⟩ := rowOp_appended pred s hw
    cases hu.symm.trans ((exec_of_predictor s hp).symm.trans e)
    unfold RowAppended at hrow
    split at hrow <;> rw [hrow]
  · cases (exec_filtInvalid_of_rowWhole tag hw).symm.trans e
    exact absurd rfl ht

/-- PLEN that begins the walk leaves at most the ceiling to do (44 R369). -/
theorem execPlen_workLeft (hp : s.phase = .extract) (hx : s.px = 0) (e : execPlen s = .next t)
    (ht : t.phase = .extract) : workLeft t < workLeft s := by
  rcases execPlen_next e with ⟨d, j, k, rfl⟩ | rfl | ⟨n, -, hle, rfl⟩
  · cases ht
  · cases ht
  · have hmod : n % 2 ^ 32 ≤ n := Nat.mod_le _ _
    simp only [workLeft, hp, hx, one_ne_zero, if_true, if_false, BitVec.toNat_ofNat]
    omega

/-- PIXEL that goes on has appended at least one byte of those missing (44 R371). -/
theorem execPixel_workLeft (h : Inv s) (hp : s.phase = .extract) (hx : s.px ≠ 0) (e : execPixel s = .next t)
    (ht : t.phase = .extract) : workLeft t < workLeft s := by
  have hshort := h.payload.after_plen hp hx
  rcases execPixel_next e with ⟨x, y, d, j, k, rfl⟩ | ⟨x, y, c, rfl⟩
  · cases ht
  unfold endExtract at ht ⊢
  split at ht
  · cases ht
  next hne =>
    rw [if_neg hne]
    simp only [workLeft, hp, if_neg hx, Nat.succ_ne_zero, if_false, List.length_append, List.length_take, channelsBytes,
      List.length_cons, List.length_nil]
    omega


/-- A step that stays in its stage leaves it less to do: it moves the stage's cursor and not the bound of it, which the
cursor keeps within. -/
theorem workLeft_lt (h : Inv s) (hhost : s.host = []) (hi : Due s i) (ei : exec i s = .next t) (e : step s = .next t)
    (ht : t.phase = s.phase) : workLeft t < workLeft s := by
  have hinv := stepKeepsInvariant s t h e
  have parse (hp : s.phase = .parse) (hlt : s.pos < t.pos) : workLeft t < workLeft s := by
    have hle := hinv.cursor.pos_le (ht.trans hp)
    have hlen : t.inLen = s.inLen := eq_of_hostSide (exec_hostSide hi.isEngine ei) State.inLen fun _ => rfl
    simp only [workLeft, ht, hp]
    rw [hlen] at hle ⊢
    omega
  have running {p : Phase} (hp : s.phase = p) (hne : p ≠ .error) : t.phase ≠ .error := ht.trans hp ▸ hne
  cases hi with
  | sig hp hpos => exact parse hp (exec_sig_moves hpos ei (running hp nofun))
  | chunk hp ha => exact parse hp (exec_chunk_moves ha ei (running hp nofun))
  | inflate hp _ =>
    obtain ⟨hlt, hle, hz⟩ := inflateConsumesBits s t h hhost hp e (ht.trans hp)
    simp only [workLeft, ht, hp]
    rw [hz] at hle ⊢
    omega
  | filter hp ha =>
    have hrow := exec_filter_row ha ei (running hp nofun)
    obtain ⟨-, hlt, -⟩ := hinv.pixels.rows (ht.trans hp)
    have hk : Kept i s t := (exec_filter_ran ha ei).elim (·.toKept) (·.toKept)
    obtain ⟨-, hheight, -⟩ := hk.descriptor (by rintro rfl; cases ha)
    simp only [workLeft, ht, hp]
    rw [hheight] at hlt ⊢
    omega
  | plen hp hx => exact execPlen_workLeft hp hx ei (ht.trans hp)
  | pixel hp hx => exact execPixel_workLeft h hp hx ei (ht.trans hp)

/-! ### The run -/

/-- The stages that may follow a busy one end the run or are nearer to its end (20 R95). -/
theorem stageEnds_nearer {p q : Phase} (h : q ∈ stageEnds p) :
    q.terminal = true ∨ q.busy = true ∧ stagesLeft q < stagesLeft p := by
  cases p <;> simp only [stageEnds, List.mem_cons, List.not_mem_nil, or_false] at h
  case parse | inflate => rcases h with rfl | rfl <;> decide
  case unfilter | extract => subst h; decide

/-- The run is nearer to its end: in a later stage, or in the same one with less to do. -/
def Nearer (t s : State) : Prop :=
  Prod.Lex (· < ·) (· < ·) (stagesLeft t.phase, workLeft t) (stagesLeft s.phase, workLeft s)

theorem nearer_wellFounded : WellFounded Nearer :=
  InvImage.wf (fun s : State => (stagesLeft s.phase, workLeft s)) (wellFounded_lt.prod_lex wellFounded_lt)

/-- A step from a busy phase ends the run or is one nearer to its end, again with no host access due. -/
theorem step_nearer (h : Inv s) (hhost : s.host = []) (hb : s.phase.busy = true) (e : step s = .next t) :
    t.phase.terminal = true ∨ t.host = [] ∧ t.phase.busy = true ∧ Nearer t s := by
  by_cases ht : t.phase = .error
  · exact .inl (by rw [ht]; rfl)
  have hturn := (step_eq_engineTurn hhost).symm.trans e
  obtain ⟨i, hi, ei⟩ := engineTurn_due h hb hturn ht
  have hhost' : t.host = [] :=
    (eq_of_hostSide (exec_hostSide hi.isEngine ei) State.host fun _ => rfl).trans hhost
  rcases engineTurn_follows hturn with hp | hp | hp
  · refine .inr ⟨hhost', hp ▸ hb, ?_⟩
    rw [Nearer, hp]
    exact .right _ (workLeft_lt h hhost hi ei e hp)
  · exact (stageEnds_nearer hp).imp_right fun ⟨hb', hlt⟩ => ⟨hhost', hb', .left _ _ hlt⟩
  · exact absurd hp ht

theorem run_succ (n : Nat) (e : step s = .next t) : core.run (n + 1) s = core.run n t := by
  have hstep : core.step s = .next t := e
  simp only [Host.Core.run, hstep]

/-- Settles O58: by induction on how near the run is to its end. -/
theorem everyRunEnds : Obligations.EveryRunEnds := by
  intro s
  induction s using nearer_wellFounded.induction with
  | _ s ih =>
  intro h hhost hb
  obtain ⟨t, hturn⟩ := engineTurn_answers h
  have e : step s = .next t := (step_eq_engineTurn hhost).trans hturn
  rcases step_nearer h hhost hb e with hend | ⟨hhost', hb', hnear⟩
  · exact ⟨1, t, run_succ 0 e, hend⟩
  · obtain ⟨n, u, hrun, hend⟩ := ih t hnear (stepKeepsInvariant s t h e) hhost' hb'
    exact ⟨n + 1, u, (run_succ n e).trans hrun, hend⟩

end Sys2Proof
end

section
/-! Outside the busy phases the engine waits: its turn changes nothing, so without a host access a step changes nothing
(70 R450, 60 R408). -/

namespace Sys2Proof

open Sys2Proof.Machine

variable {s : State}

/-- The phases that are not busy: before the first START and after the end of a run (10 R45). -/
theorem Phase.eq_idle_or_terminal_of_not_busy {p : Phase} (h : p.busy = false) : p = .idle ∨ p.terminal = true := by
  cases p
  case parse | inflate | unfilter | extract => cases h
  case idle => exact .inl rfl
  case done | doneHeader | error => exact .inr rfl

theorem engineTurn_of_idle (h : s.phase = .idle) : engineTurn s = .done s := by
  simp only [engineTurn, h]

/-- In a terminal phase the engine's turn changes nothing, in ERROR as after a run that ended well (60 R408, R415). -/
theorem engineTurn_of_terminal (h : s.phase.terminal = true) : engineTurn s = .done s := by
  cases hp : s.phase <;> rw [hp] at h
  case idle | parse | inflate | unfilter | extract => cases h
  case error => exact engineTurn_of_error hp
  case done | doneHeader => simp only [engineTurn, hp]

/-- Settles O6: the step is the engine's turn, which changes nothing in IDLE or in a terminal phase. -/
theorem engineWaitsForStart : Obligations.EngineWaitsForStart := by
  intro s hhost hb
  have hturn : engineTurn s = .done s :=
    (Phase.eq_idle_or_terminal_of_not_busy hb).elim engineTurn_of_idle engineTurn_of_terminal
  rw [step_eq_engineTurn hhost, hturn]
  rfl

end Sys2Proof
end
